-- ==== Sys2Proof/Word.lean ====
section
/-! DEFINITION. Words. Every value of the block is a mathematical integer (R8), written `Int` throughout: no rule reads a bit of
a word, so a word is no bit vector. An address that has passed the address check (R11) is a `Nat`. -/

namespace Sys2Proof

/-- `WMIN` of words of `w` bits (R6). -/
def wordMin (w : Nat) : Int := -(2 ^ (w - 1) : Int)

/-- `WMAX` of words of `w` bits (R6). -/
def wordMax (w : Nat) : Int := (2 ^ (w - 1) : Int) - 1

end Sys2Proof
end

