-- ==== Sys2Proof/Syntax.lean ====
section
/-! DEFINITION. The ten instructions, one constructor per row of the opcode table (R82). An instruction is what
the decoder gives the engine (R83, R102): the operation and one addressing mode per parameter. The literals are
memory words that the engine fetches while it resolves the operands (R80, R125), so they are no part of it. -/

namespace Sys2Proof

/-- An addressing mode (R86). -/
inductive Mode
  | position
  | immediate
  | relative
deriving DecidableEq, Repr

/-- The kind of a parameter (R82): its value is read, or it names a destination address. -/
inductive ParamKind
  | input
  | output
deriving DecidableEq, Repr

/-- The instruction set (R82); an argument is the mode of the parameter of that number. -/
inductive Instr
  | add (m1 m2 m3 : Mode)
  | mul (m1 m2 m3 : Mode)
  | inp (m1 : Mode)
  | out (m1 : Mode)
  | jt (m1 m2 : Mode)
  | jf (m1 m2 : Mode)
  | lt (m1 m2 m3 : Mode)
  | eq (m1 m2 m3 : Mode)
  | arb (m1 : Mode)
  | halt
deriving DecidableEq, Repr

/-- The modes of an instruction in parameter order. -/
def Instr.modes : Instr → List Mode
  | .add m1 m2 m3 => [m1, m2, m3]
  | .mul m1 m2 m3 => [m1, m2, m3]
  | .inp m1 => [m1]
  | .out m1 => [m1]
  | .jt m1 m2 => [m1, m2]
  | .jf m1 m2 => [m1, m2]
  | .lt m1 m2 m3 => [m1, m2, m3]
  | .eq m1 m2 m3 => [m1, m2, m3]
  | .arb m1 => [m1]
  | .halt => []

end Sys2Proof
end

