-- ==== Sys2Proof/WellFormed.lean ====
section
/-! DEFINITION. Which instruction terms an encoding can stand for (R91, R100). -/

namespace Sys2Proof

/-- "Immediate mode is invalid for Output parameters" (R91): an output parameter is Position or Relative. -/
def Mode.namesAddress : Mode → Bool
  | .position => true
  | .immediate => false
  | .relative => true

/-- The legal class of R100: parameter 3 of ADD, MUL, LT and EQ and parameter 1 of IN are no Immediate. -/
def Instr.wf : Instr → Bool
  | .add _ _ m3 => m3.namesAddress
  | .mul _ _ m3 => m3.namesAddress
  | .inp m1 => m1.namesAddress
  | .out _ => true
  | .jt _ _ => true
  | .jf _ _ => true
  | .lt _ _ m3 => m3.namesAddress
  | .eq _ _ m3 => m3.namesAddress
  | .arb _ => true
  | .halt => true

/-- The words of an instruction are its opcode word and one literal for each parameter (R80). -/
def Instr.literalsOk (i : Instr) (literals : List Int) : Bool :=
  literals.length == i.modes.length

end Sys2Proof
end

