-- ==== Sys2Proof/Decode.lean ====
section
/-! DEFINITION. The instruction decoder (R81 to R89, R91, R100, R102), total on every integer, and the encoder (R103).
The mode digit and length tables are R82's and R86's. -/

namespace Sys2Proof

/-- Why the decoder rejects a word, with the `fault_info` of R83. -/
inductive DecodeError
  /-- R84, R85: carries the negative word, or the unsupported opcode. -/
  | invalidOpcode (info : Int)
  /-- R89, R91: carries the offending digit. -/
  | invalidAddressingMode (info : Nat)
deriving DecidableEq, Repr

/-- `dig(w, i)`, the decimal digit of weight `10^i` (R9). -/
def dig (w i : Nat) : Nat := w / 10 ^ i % 10

/-- The parameter kinds of a supported opcode, in order (R82); `none` for any other (R85). -/
def paramKinds (op : Nat) : Option (List ParamKind) :=
  match op with
  | 1 => some [.input, .input, .output]
  | 2 => some [.input, .input, .output]
  | 3 => some [.output]
  | 4 => some [.input]
  | 5 => some [.input, .input]
  | 6 => some [.input, .input]
  | 7 => some [.input, .input, .output]
  | 8 => some [.input, .input, .output]
  | 9 => some [.input]
  | 99 => some []
  | _ => none

/-- The mode of parameter `k` (R81, R86, R87), refused for a digit 3 to 9 (R89) and for Immediate on an output (R91). -/
def decodeMode (kind : ParamKind) (w k : Nat) : Except DecodeError Mode :=
  match dig w (k + 1), kind with
  | 0, _ => .ok .position
  | 1, .input => .ok .immediate
  | 1, .output => .error (.invalidAddressingMode 1)
  | 2, _ => .ok .relative
  | d, _ => .error (.invalidAddressingMode d)

/-- The modes of a one-parameter word. -/
def decode1 (mk : Mode → Instr) (kind : ParamKind) (w : Nat) : Except DecodeError Instr := do
  let m1 ← decodeMode kind w 1
  return mk m1

/-- The modes of a two-parameter word, both inputs. -/
def decode2 (mk : Mode → Mode → Instr) (w : Nat) : Except DecodeError Instr := do
  let m1 ← decodeMode .input w 1
  let m2 ← decodeMode .input w 2
  return mk m1 m2

/-- The modes of a three-parameter word, two inputs and a destination. -/
def decode3 (mk : Mode → Mode → Mode → Instr) (w : Nat) : Except DecodeError Instr := do
  let m1 ← decodeMode .input w 1
  let m2 ← decodeMode .input w 2
  let m3 ← decodeMode .output w 3
  return mk m1 m2 m3

/-- `Decode(w)` of R83, with its checks in the order given there. Digits above the consumed ones play no part (R88). -/
def decode (w : Int) : Except DecodeError Instr :=
  if w < 0 then .error (.invalidOpcode w)
  else
    match w.toNat % 100 with
    | 1 => decode3 .add w.toNat
    | 2 => decode3 .mul w.toNat
    | 3 => decode1 .inp .output w.toNat
    | 4 => decode1 .out .input w.toNat
    | 5 => decode2 .jt w.toNat
    | 6 => decode2 .jf w.toNat
    | 7 => decode3 .lt w.toNat
    | 8 => decode3 .eq w.toNat
    | 9 => decode1 .arb .input w.toNat
    | 99 => .ok .halt
    | op => .error (.invalidOpcode (op : Int))

/-- The decoder's output `op` (R82, R102). -/
def Instr.opcode : Instr → Nat
  | .add _ _ _ => 1
  | .mul _ _ _ => 2
  | .inp _ => 3
  | .out _ => 4
  | .jt _ _ => 5
  | .jf _ _ => 6
  | .lt _ _ _ => 7
  | .eq _ _ _ => 8
  | .arb _ => 9
  | .halt => 99

/-- The decoder's output `n` (R82, R102): the length in words, the opcode word among them. -/
def Instr.length : Instr → Nat
  | .add _ _ _ => 4
  | .mul _ _ _ => 4
  | .inp _ => 2
  | .out _ => 2
  | .jt _ _ => 3
  | .jf _ _ => 3
  | .lt _ _ _ => 4
  | .eq _ _ _ => 4
  | .arb _ => 2
  | .halt => 1

/-- The digit of a mode (R86). -/
def Mode.digit : Mode → Nat
  | .position => 0
  | .immediate => 1
  | .relative => 2

/-- The decoder's outputs `m1`, `m2`, `m3` (R102): the digit of parameter `k`; "an unused position reads 0". -/
def Instr.modeDigit (i : Instr) (k : Nat) : Nat :=
  ((i.modes[k - 1]?).map Mode.digit).getD 0

/-- The decoder's outputs `kind1`, `kind2`, `kind3` (R102). -/
def Instr.kind (i : Instr) (k : Nat) : Option ParamKind :=
  ((paramKinds i.opcode).getD [])[k - 1]?

/-- The opcode word of an instruction (R103): `op + 100*m1 + 1000*m2 + 10000*m3`. -/
def opcodeWord (i : Instr) : Int :=
  ((i.opcode + 100 * i.modeDigit 1 + 1000 * i.modeDigit 2 + 10000 * i.modeDigit 3 : Nat) : Int)

/-- The words of an instruction (R80, R103): its opcode word, then the literals. -/
def encode (i : Instr) (literals : List Int) : List Int := opcodeWord i :: literals

/-- Reads an instruction and its literals off a list of words, with the words that follow it.
A word beyond the end of the list reads as 0, as in memory (R51, R80). -/
def decodeWords (ws : List Int) : Except DecodeError (Instr × List Int × List Int) := do
  let i ← decode (ws.getD 0 0)
  return (i, (List.range (i.length - 1)).map (fun k => ws.getD (k + 1) 0), ws.drop i.length)

/-- Int number `k` of an instruction whose bits are the number `w`, in 64-bit words, the first the least significant.
PRESUMED (log 2): a pattern is read as two's complement, which R8 calls the usual storage. -/
def wordOfBits (w k : Nat) : Int :=
  let u : Nat := w / 2 ^ (64 * k) % 2 ^ 64
  if u < 2 ^ 63 then (u : Int) else (u : Int) - 2 ^ 64

/-- What the decoder reads from an instruction whose bits are `w`; the bits above `nbits` are 0.
The opcode word alone decides (R83). -/
def decodeTableWord (nbits w : Nat) : Option Instr :=
  (decode (wordOfBits (w % 2 ^ nbits) 0)).toOption

end Sys2Proof
end

