-- ==== Sys2Proof/Config.lean ====
section
/-! DEFINITION. The implementation parameters of rule R6: the parameters of every instance (`Config`) and
the configuration of the FIFO mux (`MuxConfig`, R231). `none` stands for the spec's `unbounded`. Both are
kept in State, where no step changes them, so a statement about every state is a statement about every value of them. -/

namespace Sys2Proof

/-- The parameters of an instance (R6). -/
structure Config where
  /-- `WORD_BITS`. -/
  wordBits : Option Nat
  /-- `ADDR_LIMIT`: one more than the highest legal address. -/
  addrLimit : Option Nat
  /-- `CAPACITY`: the largest footprint. -/
  capacity : Option Nat
  /-- `IN_DEPTH`: the depth of an input FIFO. -/
  inDepth : Option Nat
  /-- `OUT_DEPTH`: the depth of an output FIFO. -/
  outDepth : Option Nat
deriving DecidableEq, Repr

/-- The values R6 gives for this hardware: 64-bit words, every non-negative word an address, no other bound. -/
def Config.hardware : Config where
  wordBits := some 64
  addrLimit := some 9223372036854775808
  capacity := none
  inDepth := none
  outDepth := none

/-- The exact reading of the source (R7): nothing is bounded. -/
def Config.unbounded : Config where
  wordBits := none
  addrLimit := none
  capacity := none
  inDepth := none
  outDepth := none

/-- `fits(v)` (R8): `v` is a word, `WMIN ≤ v ≤ WMAX`;
every integer is one when `WORD_BITS` is unbounded. -/
def Config.fits (c : Config) (v : Int) : Bool :=
  match c.wordBits with
  | some w => decide (wordMin w ≤ v) && decide (v ≤ wordMax w)
  | none => true

/-- The parameter values R6 and R23 admit: at least 64 bits, and `ADDR_LIMIT ≤ WMAX + 1` for a finite width. -/
def Config.wf (c : Config) : Bool :=
  match c.wordBits with
  | none => true
  | some w =>
    decide (64 ≤ w) &&
      match c.addrLimit with
      | some l => decide (l ≤ 2 ^ (w - 1))
      | none => false

/-- `MUX_MODE` (R6, R231). -/
inductive MuxMode
  | chain
  | packet
deriving DecidableEq, Repr

/-- `EMPTY_INPUT_POLICY` (R6, R242, R244). -/
inductive EmptyInputPolicy
  | suspend
  | supply (v : Int)
deriving DecidableEq, Repr

/-- The configuration of the FIFO mux (R6, R231). -/
structure MuxConfig where
  /-- `MUX_MODE`. -/
  mode : MuxMode
  /-- `FEEDBACK`. -/
  feedback : Bool
  /-- `BCAST_ADDR`. -/
  bcastAddr : Int
  /-- `NAT_TARGET`. -/
  natTarget : Nat
  /-- `EMPTY_INPUT_POLICY`. -/
  emptyInput : EmptyInputPolicy
  /-- `IDLE_WAIT`, which the spec leaves OPEN (D27). -/
  idleWait : Nat
deriving DecidableEq, Repr

/-- The mux configuration at reset: 255, 0 and `Suspend` are R6's values.
DESIGN CHOICE (log 4): the mode, the feedback and `IDLE_WAIT`, to which the spec gives no value. -/
def MuxConfig.hardware : MuxConfig where
  mode := .chain
  feedback := false
  bcastAddr := 255
  natTarget := 0
  emptyInput := .suspend
  idleWait := 1

/-- `IDLE_WAIT` is "a positive integer" (R6), and a supplied value is a word (R31). -/
def MuxConfig.wf (c : Config) (m : MuxConfig) : Bool :=
  decide (1 ≤ m.idleWait) &&
    match m.emptyInput with
    | .suspend => true
    | .supply v => c.fits v

end Sys2Proof
end

