-- ==== Sys2Proof/Machine/State.lean ====
section
/-! DEFINITION. The whole state as plain data: the VM instances (R20, R285), the FIFO mux (R231), and the host's side of
them (commands waiting, RUN commands in progress, the last value returned). Reset is power-on (R311). -/

namespace Sys2Proof.Machine

/-- The seven faults (R270). Whoever raises one, the fault entry of R276 answers a NEXT state whose `RUN_STATE` is
`Faulted` and whose record names it; no step of this model ends in `Host.Outcome.fault`.
Safe: the spec gives every fault its entry, so none is a stop. -/
inductive Fault
  /-- Code 1, raised by the decoder (R84, R85, R271). Safe: a next state (R276). -/
  | invalidOpcode
  /-- Code 2, raised by the address check: an address below 0 (R11, R272). Safe: a next state (R276). -/
  | invalidAddress
  /-- Code 3, raised by the decoder (R89, R91, R273). Safe: a next state (R276). -/
  | invalidAddressingMode
  /-- Code 4, raised by IN under `INPUT_POLICY = Fault` (R160, R274). Safe: a next state (R276). -/
  | inputExhausted
  /-- Code 5, raised by ADD, MUL and ARB (R150, R151, R190, R275). Safe: a next state (R276). -/
  | arithmeticOverflow
  /-- Code 6, raised by the address check: an address at or above `ADDR_LIMIT` (R11, R275). Safe: a next state (R276). -/
  | addressOutOfRange
  /-- Code 7, raised by a memory write (R54, R55, R275). Safe: a next state (R276). -/
  | capacityExceeded
deriving DecidableEq, Repr

/-- Why a step could answer no state. -/
inductive Refusal
  /-- Raised by an arm of `exec` whose instruction has no meaning yet; no arm of this model does. Safe. -/
  | notModelled (mnemonic : String)
deriving DecidableEq, Repr

/-- `RUN_STATE` (R26). -/
inductive RunState
  | running
  | awaitingInput
  | haltedNormally
  | faulted
  | killed
deriving DecidableEq, Repr

/-- `INPUT_POLICY` (R29). -/
inductive InputPolicy
  | suspend
  | fault
deriving DecidableEq, Repr

/-- The fault record (R28). `FAULT_REASON = 0` is `none`. -/
structure FaultRecord where
  /-- `FAULT_REASON`. -/
  reason : Option Fault
  /-- `FAULT_IP`. -/
  ip : Int
  /-- `FAULT_OPCODE`. -/
  opcode : Nat
  /-- `FAULT_WORD`. -/
  word : Int
  /-- `FAULT_WORD_VALID`. -/
  wordValid : Bool
  /-- `FAULT_ADDR`. -/
  addr : Int
  /-- `FAULT_ADDR_VALID`. -/
  addrValid : Bool
deriving DecidableEq, Repr

/-- The record "when no fault" (R28, R34). -/
def FaultRecord.clear : FaultRecord where
  reason := none
  ip := 0
  opcode := 0
  word := 0
  wordValid := false
  addr := 0
  addrValid := false

/-- The memory `M` (R50): address and word pairs, addresses rising, no word 0 (`Memory.wf` in Safety.lean).
An address that is not listed reads as 0 (R51). -/
abbrev Memory := List (Nat × Int)

/-- The state of one VM instance, exactly R20's list. -/
structure Vm where
  /-- `M`. -/
  mem : Memory
  /-- `FP`, the footprint (R52): addresses rising. -/
  fp : List Nat
  /-- `IP` (R23). -/
  ip : Int
  /-- `RB` (R25). -/
  rb : Int
  /-- `RUN_STATE` (R26). -/
  runState : RunState
  /-- `HALTED` (R27). -/
  halted : Bool
  /-- The fault record (R28). -/
  fault : FaultRecord
  /-- `INPUT_POLICY` (R29). -/
  inputPolicy : InputPolicy
  /-- `InQ`, front first (R31). -/
  inQ : List Int
  /-- `OutQ`, front first (R31). -/
  outQ : List Int
deriving DecidableEq, Repr

/-- What a step returns to its caller (R120). In `faulted` the reason is the record's; `none` (code 0) is there only for
a `Faulted` state without a reason, which R35 rules out. -/
inductive StepResult
  | continued (ip : Int)
  | producedOutput (v : Int)
  | needsInput
  | outputBlocked
  | halted
  | faulted (reason : Option Fault)
  | killed
deriving DecidableEq, Repr

/-- The kind of a monitor record (R231). -/
inductive MonKind
  | broadcast
  | reinject
deriving DecidableEq, Repr

/-- A record of the monitor FIFO `MON` (R231). -/
structure MonRecord where
  kind : MonKind
  x : Int
  y : Int
deriving DecidableEq, Repr

/-- `MUX_STATUS` (R231). -/
inductive MuxStatus
  | active
  | finished
  | deadlocked
  | routingFault
deriving DecidableEq, Repr

/-- The state of the FIFO mux (R231). -/
structure Mux where
  /-- `MUX_MODE`, `FEEDBACK`, `BCAST_ADDR`, `NAT_TARGET`, `EMPTY_INPUT_POLICY`, `IDLE_WAIT`. -/
  cfg : MuxConfig
  /-- `MUX_STATUS`. -/
  status : MuxStatus
  /-- `ROUTE_FAULT_SRC`. -/
  routeFaultSrc : Nat
  /-- `ROUTE_FAULT_DEST`. -/
  routeFaultDest : Int
  /-- `HostOut`, front first. -/
  hostOut : List Int
  /-- `LAST_SIGNAL`. -/
  lastSignal : Int
  /-- `LAST_SIGNAL_VALID`. -/
  lastSignalValid : Bool
  /-- `ASM[i]`, the assembly buffer of each instance in order. -/
  asm : List (List Int)
  /-- `EMPTY_COUNT[i]`, the counter of each instance in order. -/
  emptyCount : List Nat
  /-- `LAST_BCAST`, its X and its Y. -/
  lastBcast : Int × Int
  /-- `LAST_BCAST_VALID`. -/
  lastBcastValid : Bool
  /-- `MON`, front first. -/
  mon : List MonRecord
deriving DecidableEq, Repr

/-- Why a host command is refused (R200, R202, R204, R205, R212). -/
inductive RefuseReason
  /-- A value is not a word (R202, R205). -/
  | notAWord
  /-- The image is longer than `ADDR_LIMIT` (R202). -/
  | imageTooLong
  /-- The image is longer than `CAPACITY` (R202). -/
  | overCapacity
  /-- `InQ` has no room (R204, R205). -/
  | inputFull
  /-- The address does not exist (R212). -/
  | badAddress
  /-- The mux has no instance of that number (R230); the model's own (log 6). -/
  | noSuchInstance
deriving DecidableEq, Repr

/-- What READ_STATUS returns (R210). -/
structure StatusView where
  status : BitVec 16
  ip : Int
  rb : Int
  faultIp : Int
  faultOpcode : Nat
  faultWord : Int
  faultAddr : Int
  inLen : Nat
  outLen : Nat
deriving DecidableEq, Repr

/-- What the host reads of the mux (R250). -/
structure MuxView where
  status : MuxStatus
  routeFaultSrc : Nat
  routeFaultDest : Int
  lastSignal : Int
  lastSignalValid : Bool
  lastBcast : Int × Int
  lastBcastValid : Bool
deriving DecidableEq, Repr

/-- The value the last event handed to the host. R33: results are "handed to the host and not kept in a register", so this
is the wire to the host, a field of the model's own (log 5). -/
inductive Reply
  /-- Nothing yet. -/
  | idle
  /-- STEP, and RUN when it ends (R206, R207). -/
  | stepResult (r : StepResult)
  /-- A command was carried out (R201, R203). -/
  | ok
  /-- A command was refused and changed nothing (R200). -/
  | refused (why : RefuseReason)
  /-- READ_OUTPUT, and popping `HostOut` (R208, R250). -/
  | output (v : Option Int)
  /-- IS_HALTED (R209). -/
  | isHalted (b : Bool)
  /-- READ_STATUS (R210). -/
  | status (v : StatusView)
  /-- PEEK (R212). -/
  | word (v : Int)
  /-- Reading the mux (R250). -/
  | muxStatus (v : MuxView)
  /-- Popping `MON` (R250). -/
  | monRecord (r : Option MonRecord)
  /-- A step of the mux was taken (R234). -/
  | muxStep
  /-- The step of the mux that the schedule named is not enabled (R234), and nothing happened (log 6). -/
  | notEnabled
deriving DecidableEq, Repr

/-- What can happen next in the system (R200, R234). `j` is the number of an instance (R230). -/
inductive Event
  /-- LOAD(P) (R201). -/
  | load (j : Nat) (program : List Int)
  /-- PROVIDE_INPUT(v) (R203). -/
  | provideInput (j : Nat) (v : Int)
  /-- PROVIDE_INPUT_SEQUENCE(vs) (R204). -/
  | provideInputSequence (j : Nat) (vs : List Int)
  /-- STEP by the host (R206). -/
  | hostStep (j : Nat)
  /-- RUN(stop_on_output) (R207): its first step. -/
  | run (j : Nat) (stopOnOutput : Bool)
  /-- READ_OUTPUT (R208). -/
  | readOutput (j : Nat)
  /-- IS_HALTED (R209). -/
  | isHalted (j : Nat)
  /-- READ_STATUS (R210). -/
  | readStatus (j : Nat)
  /-- SET_INPUT_POLICY(p) (R211). -/
  | setInputPolicy (j : Nat) (p : InputPolicy)
  /-- PEEK(a) (R212). -/
  | peek (j : Nat) (a : Int)
  /-- KILL (R213). -/
  | kill (j : Nat)
  /-- MUX_RESET (R232). -/
  | muxReset
  /-- KILL(j) issued through the mux (R243). -/
  | muxKill (j : Nat)
  /-- Reading the mux's registers (R250). -/
  | readMux
  /-- Popping `HostOut` (R250). -/
  | popHostOut
  /-- Popping `MON` (R250). -/
  | popMon
  /-- The mux steps a ready instance (R234 (a)). -/
  | muxStep (j : Nat)
  /-- ROUTE(j) (R234 (b), R236, R239). -/
  | route (j : Nat)
  /-- SUPPLY(j) (R234 (c), R244). -/
  | supply (j : Nat)
  /-- The idle action (R234 (d), R238, R247, R248). -/
  | idleAction
  /-- The mux sees that no instance is live (R238, R246). -/
  | complete
  /-- The next action of the cooperative round-robin schedule (R235). -/
  | roundRobin
deriving DecidableEq, Repr

/-- The machine. The instances are `lower ++ inst :: upper`, number 0 first; `inst`, the one at the focus, is the instance
whose instructions `exec` runs, so there is always one (`N_INST ≥ 1`, R6) and its number is `lower.length`. -/
structure State where
  /-- The parameters of the instances (R6). -/
  cfg : Config
  /-- The instances before the focus, in order. -/
  lower : List Vm
  /-- The instance at the focus. -/
  inst : Vm
  /-- The instances after the focus, in order. -/
  upper : List Vm
  /-- The FIFO mux (R231). -/
  mux : Mux
  /-- The RUN commands in progress (R207): an instance and its `stop_on_output`, at most one for an instance. -/
  runs : List (Nat × Bool)
  /-- What happens next, first event first (R200, R234). With none, the host steps the instance at the focus (log 5). -/
  pending : List Event
  /-- What the last event handed to the host. -/
  reply : Reply
deriving DecidableEq, Repr

/-- An instance before its first LOAD: "the state LOAD of the empty program gives" (R311, R34). -/
def Vm.powerOn : Vm where
  mem := []
  fp := []
  ip := 0
  rb := 0
  runState := .running
  halted := false
  fault := FaultRecord.clear
  inputPolicy := .suspend
  inQ := []
  outQ := []

/-- The mux of `n` instances in "the state MUX_RESET gives" (R232, R311). -/
def Mux.powerOn (m : MuxConfig) (n : Nat) : Mux where
  cfg := m
  status := .active
  routeFaultSrc := 0
  routeFaultDest := 0
  hostOut := []
  lastSignal := 0
  lastSignalValid := false
  asm := List.replicate n []
  emptyCount := List.replicate n 0
  lastBcast := (0, 0)
  lastBcastValid := false
  mon := []

/-- A system of `n + 1` instances at power-on (R311), for any parameters (R6). -/
def State.powerOn (c : Config) (m : MuxConfig) (n : Nat) : State where
  cfg := c
  lower := []
  inst := Vm.powerOn
  upper := List.replicate n Vm.powerOn
  mux := Mux.powerOn m (n + 1)
  runs := []
  pending := []
  reply := .idle

/-- The machine right after reset: power-on (R311) with this hardware's parameters.
DESIGN CHOICE (log 4): one instance, which R6 allows ("any `N_INST >= 1`; observed 1, 5, 50"). -/
def State.reset : State := State.powerOn Config.hardware MuxConfig.hardware 0

end Sys2Proof.Machine
end

