-- ==== Sys2Proof/Machine/Ops.lean ====
section
/-! DEFINITION. The named operations over memory and registers: the address check, the memory controller (R50 to R56),
the fault entry (R276), the commit of a step (R127), and the instances of the system by number (R230). -/

namespace Sys2Proof.Machine

/-! ## The memory as data -/

/-- The word at an address; 0 where nothing is listed (R51, R53). -/
def Memory.read : Memory → Nat → Int
  | [], _ => 0
  | (b, v) :: rest, a => if a = b then v else Memory.read rest a

/-- The memory with `v` at `a`, in the canonical form: a word 0 is not listed. -/
def Memory.write : Memory → Nat → Int → Memory
  | [], a, v => if v = 0 then [] else [(a, v)]
  | (b, w) :: rest, a, v =>
    if a < b then (if v = 0 then (b, w) :: rest else (a, v) :: (b, w) :: rest)
    else if a = b then (if v = 0 then rest else (a, v) :: rest)
    else (b, w) :: Memory.write rest a v

/-- The words of `ws` stored at `a`, `a + 1`, … -/
def Memory.writeList : Memory → Nat → List Int → Memory
  | m, _, [] => m
  | m, a, v :: vs => Memory.writeList (m.write a v) (a + 1) vs

/-- `FP ∪ {a}` (R54), addresses rising. -/
def footprintAdd : List Nat → Nat → List Nat
  | [], a => [a]
  | b :: rest, a =>
    if a < b then a :: b :: rest else if a = b then b :: rest else b :: footprintAdd rest a

/-! ## The memory controller -/

/-- `raise F(info)` (R10). -/
structure Raise where
  cause : Fault
  info : Int
deriving DecidableEq, Repr

/-- `check_addr(a)` (R11). -/
def checkAddr (c : Config) (a : Int) : Except Raise Nat :=
  if a < 0 then .error ⟨.invalidAddress, a⟩
  else
    match c.addrLimit with
    | some l => if (l : Int) ≤ a then .error ⟨.addressOutOfRange, a⟩ else .ok a.toNat
    | none => .ok a.toNat

/-- `MemRead(a, 1)` (R53). -/
def memRead (c : Config) (x : Vm) (a : Int) : Except Raise Int := do
  let n ← checkAddr c a
  return x.mem.read n

/-- Whether a write to `a` finds the footprint full (R54). -/
def footprintFull (c : Config) (x : Vm) (a : Nat) : Bool :=
  match c.capacity with
  | some k => !x.fp.contains a && x.fp.length == k
  | none => false

/-- `M[a] <- v` and `FP <- FP ∪ {a}` (R54). -/
def Vm.store (x : Vm) (a : Nat) (v : Int) : Vm :=
  { x with mem := x.mem.write a v, fp := footprintAdd x.fp a }

/-- `MemWrite(a, 1, v)` (R54, R55). -/
def memWrite (c : Config) (x : Vm) (a : Int) (v : Int) : Except Raise Vm := do
  let n ← checkAddr c a
  if footprintFull c x n then .error ⟨.capacityExceeded, a⟩ else return x.store n v

/-- The opcode word at `IP` (R123). -/
def fetch (c : Config) (x : Vm) : Except Raise Int := memRead c x x.ip

/-! ## The fault entry -/

/-- Whether `FAULT_ADDR` carries information for a fault (R270, R276). -/
def Fault.hasAddr : Fault → Bool
  | .invalidOpcode => false
  | .invalidAddress => true
  | .invalidAddressingMode => true
  | .inputExhausted => false
  | .arithmeticOverflow => false
  | .addressOutOfRange => true
  | .capacityExceeded => true

/-- The fault record that `FaultEntry(F, info)` writes (R276). DEDUCED (log 7): the fetch is the first thing a step does
(R121), so the opcode word was fetched exactly when the address `IP` is legal, and it is the word there. -/
def faultRecord (c : Config) (x : Vm) (e : Raise) : FaultRecord where
  reason := some e.cause
  ip := x.ip
  opcode := match fetch c x with
    | .ok w => if w < 0 then 0 else w.toNat % 100
    | .error _ => 0
  word := match fetch c x with
    | .ok w => w
    | .error _ => 0
  wordValid := match fetch c x with
    | .ok _ => true
    | .error _ => false
  addr := if e.cause.hasAddr then e.info else 0
  addrValid := e.cause.hasAddr

/-- `FaultEntry(F, info)` (R276): the only state it changes is `RUN_STATE` and the record. There is no return
from a fault (R279): LOAD is the only way out. -/
def faultEntry (c : Config) (x : Vm) (e : Raise) : Vm :=
  { x with runState := .faulted, fault := faultRecord c x e }

/-- The fault a decoder rejection raises (R83). -/
def decodeRaise : DecodeError → Raise
  | .invalidOpcode info => ⟨.invalidOpcode, info⟩
  | .invalidAddressingMode info => ⟨.invalidAddressingMode, info⟩

/-! ## The end of a step -/

/-- What an instruction comes to: its result and the instance after it, or a fault raised (R121). -/
abbrev Executed := Except Raise (StepResult × Vm)

/-- `IP <- next` and `RUN_STATE <- Running` (R121, R127). -/
def Vm.advance (x : Vm) (next : Int) : Vm := { x with ip := next, runState := .running }

/-- `Continued(next)` with the instance advanced (R120, R121). -/
def continueAt (x : Vm) (next : Int) : Executed := .ok (.continued next, x.advance next)

/-- The end of a step of the instance at the focus: the result goes to the host, and a fault takes its entry (R121, R276). -/
def State.finish (s : State) (r : Executed) : State :=
  match r with
  | .ok (result, x) => { s with inst := x, reply := .stepResult result }
  | .error e =>
    { s with inst := faultEntry s.cfg s.inst e, reply := .stepResult (.faulted (some e.cause)) }

/-! ## The instances by number (R230) -/

/-- Every instance, number 0 first. -/
def State.insts (s : State) : List Vm := s.lower ++ s.inst :: s.upper

/-- `N_INST`. -/
def State.count (s : State) : Nat := s.lower.length + 1 + s.upper.length

/-- The number of the instance at the focus. -/
def State.current (s : State) : Nat := s.lower.length

/-- Instance `j`. -/
def State.vm? (s : State) (j : Nat) : Option Vm := s.insts[j]?

/-- The system with instance `j` changed by `f`. -/
def State.modifyVm (s : State) (j : Nat) (f : Vm → Vm) : State :=
  if j < s.lower.length then { s with lower := s.lower.modify j f }
  else if j = s.lower.length then { s with inst := f s.inst }
  else { s with upper := s.upper.modify (j - s.lower.length - 1) f }

/-- The system with the focus on instance `j`, where there is one. -/
def State.focus (s : State) (j : Nat) : State :=
  match s.insts.drop j with
  | [] => s
  | x :: rest => { s with lower := s.insts.take j, inst := x, upper := rest }

/-- The system with a value handed to the host. -/
def State.answer (s : State) (r : Reply) : State := { s with reply := r }

end Sys2Proof.Machine
end

