-- ==== Sys2Proof/Machine/Flags.lean ====
section
/-! DEFINITION. The arithmetic/logical unit (R152) and the status bits. There are no condition codes (R22): the one flag
is `HALTED` (R27), and comparisons give a word. `STATUS` packs the short fields for the host (R30). -/

namespace Sys2Proof.Machine

/-- An exact result that must be a word (R152): itself, or `ArithmeticOverflow`; it never wraps. -/
def exactWord (c : Config) (v : Int) : Except Raise Int :=
  if c.fits v then .ok v else .error ⟨.arithmeticOverflow, 0⟩

/-- Exact signed addition (R150, R190). -/
def aluAdd (c : Config) (a b : Int) : Except Raise Int := exactWord c (a + b)

/-- Exact signed multiplication (R151). -/
def aluMul (c : Config) (a b : Int) : Except Raise Int := exactWord c (a * b)

/-- Signed less-than as a word (R180). -/
def aluLt (a b : Int) : Int := if a < b then 1 else 0

/-- Equality as a word (R181). -/
def aluEq (a b : Int) : Int := if a = b then 1 else 0

/-- `HALTED <- 1; RUN_STATE <- HaltedNormally` (R27, R191). -/
def Vm.setHalted (x : Vm) : Vm := { x with halted := true, runState := .haltedNormally }

/-- The code of a run state (R26). -/
def RunState.code : RunState → Nat
  | .running => 0
  | .awaitingInput => 1
  | .haltedNormally => 2
  | .faulted => 3
  | .killed => 4

/-- The code of a fault (R270). -/
def Fault.code : Fault → Nat
  | .invalidOpcode => 1
  | .invalidAddress => 2
  | .invalidAddressingMode => 3
  | .inputExhausted => 4
  | .arithmeticOverflow => 5
  | .addressOutOfRange => 6
  | .capacityExceeded => 7

/-- `FAULT_REASON` as its code, 0 for no fault (R28, R270). -/
def FaultRecord.reasonCode (f : FaultRecord) : Nat := (f.reason.map Fault.code).getD 0

/-- `INPUT_POLICY` as its bit (R29). -/
def InputPolicy.code : InputPolicy → Nat
  | .suspend => 0
  | .fault => 1

/-- `MUX_STATUS` as its code (R231). -/
def MuxStatus.code : MuxStatus → Nat
  | .active => 0
  | .finished => 1
  | .deadlocked => 2
  | .routingFault => 3

/-- `STATUS` (R30): [2:0] run state, [3] halted, [7:4] reason, [8] word valid, [9] address valid, [10] input policy. -/
def Vm.status (x : Vm) : BitVec 16 :=
  BitVec.ofNat 16
    (x.runState.code + 8 * x.halted.toNat + 16 * x.fault.reasonCode + 256 * x.fault.wordValid.toNat
      + 512 * x.fault.addrValid.toNat + 1024 * x.inputPolicy.code)

end Sys2Proof.Machine
end

