-- ==== Sys2Proof/Machine/Operands.lean ====
section
/-! DEFINITION. Operand resolution (R90 to R98): the literal fetch and the three addressing modes, for an input
parameter and for an output parameter. -/

namespace Sys2Proof.Machine

/-- The literal of parameter `k`: `MemRead(IP + k, 1)` (R80, R125). -/
def literal (c : Config) (x : Vm) (k : Nat) : Except Raise Int := memRead c x (x.ip + k)

/-- `ResolveIn(k)` (R90, R92, R93, R94). -/
def resolveIn (c : Config) (x : Vm) (k : Nat) (m : Mode) : Except Raise Int := do
  let lit ← literal c x k
  match m with
  | .position => memRead c x lit
  | .immediate => return lit
  | .relative => memRead c x (x.rb + lit)

/-- `ResolveOut(k)` (R90, R95, R96): the destination address, checked. The decoder refuses Immediate for an output
parameter (R91), so no decoded instruction comes here with it; for such a term the same fault is raised. -/
def resolveOut (c : Config) (x : Vm) (k : Nat) (m : Mode) : Except Raise Int := do
  let lit ← literal c x k
  let ea ← match m with
    | .position => Except.ok lit
    | .immediate => Except.error ⟨.invalidAddressingMode, 1⟩
    | .relative => Except.ok (x.rb + lit)
  let _ ← checkAddr c ea
  return ea

end Sys2Proof.Machine
end

