-- ==== Sys2Proof/Machine/Arithmetic.lean ====
section
/-! DEFINITION. ADD and MUL (R150, R151), and the shape they share with LT and EQ. -/

namespace Sys2Proof.Machine

/-- The last part of a storing instruction of length `n`: `MemWrite(d, 1, v)`, then on to `IP + n` (R127, R128). -/
def storeAndContinue (c : Config) (x : Vm) (n : Nat) (d : Int) (v : Int) : Executed := do
  let y ← memWrite c x d v
  continueAt y (x.ip + n)

/-- An instruction with two inputs and a destination (R82), with `op` between resolution and the write (R98, R277). -/
def threeOperand (op : Int → Int → Except Raise Int) (m1 m2 m3 : Mode) (c : Config) (x : Vm) : Executed := do
  let a1 ← resolveIn c x 1 m1
  let a2 ← resolveIn c x 2 m2
  let d ← resolveOut c x 3 m3
  let v ← op a1 a2
  storeAndContinue c x 4 d v

/-- ADD (R150). -/
def execAdd (m1 m2 m3 : Mode) (s : State) : Host.Outcome State Fault Refusal :=
  .next (s.finish (threeOperand (aluAdd s.cfg) m1 m2 m3 s.cfg s.inst))

/-- MUL (R151). -/
def execMul (m1 m2 m3 : Mode) (s : State) : Host.Outcome State Fault Refusal :=
  .next (s.finish (threeOperand (aluMul s.cfg) m1 m2 m3 s.cfg s.inst))

end Sys2Proof.Machine
end

