-- ==== Sys2Proof/Machine/Compare.lean ====
section
/-! DEFINITION. LT and EQ (R180, R181). -/

namespace Sys2Proof.Machine

/-- LT (R180). -/
def execLt (m1 m2 m3 : Mode) (s : State) : Host.Outcome State Fault Refusal :=
  .next (s.finish (threeOperand (fun a b => .ok (aluLt a b)) m1 m2 m3 s.cfg s.inst))

/-- EQ (R181). -/
def execEq (m1 m2 m3 : Mode) (s : State) : Host.Outcome State Fault Refusal :=
  .next (s.finish (threeOperand (fun a b => .ok (aluEq a b)) m1 m2 m3 s.cfg s.inst))

end Sys2Proof.Machine
end

