-- ==== Sys2Proof/Machine/Control.lean ====
section
/-! DEFINITION. JT and JF (R170 to R172). -/

namespace Sys2Proof.Machine

/-- A conditional jump: to the target as it is, unchecked (R172), or on to `IP + 3`. -/
def jumpIf (taken : Int → Bool) (m1 m2 : Mode) (c : Config) (x : Vm) : Executed := do
  let a1 ← resolveIn c x 1 m1
  let a2 ← resolveIn c x 2 m2
  continueAt x (if taken a1 then a2 else x.ip + 3)

/-- JT (R170). -/
def execJt (m1 m2 : Mode) (s : State) : Host.Outcome State Fault Refusal :=
  .next (s.finish (jumpIf (fun a => a != 0) m1 m2 s.cfg s.inst))

/-- JF (R171). -/
def execJf (m1 m2 : Mode) (s : State) : Host.Outcome State Fault Refusal :=
  .next (s.finish (jumpIf (fun a => a == 0) m1 m2 s.cfg s.inst))

end Sys2Proof.Machine
end

