-- ==== Sys2Proof/Machine/InputOutput.lean ====
section
/-! DEFINITION. IN and OUT (R160 to R164). -/

namespace Sys2Proof.Machine

/-- `Exec_IN` (R160): the queue test comes after the destination check and before the write check (R277), and the pop
happens only with the write. -/
def inputTo (c : Config) (x : Vm) (d : Int) : Executed :=
  match x.inQ with
  | [] =>
    match x.inputPolicy with
    | .suspend => .ok (.needsInput, { x with runState := .awaitingInput })
    | .fault => .error ⟨.inputExhausted, 0⟩
  | v :: rest => storeAndContinue c { x with inQ := rest } 2 d v

/-- Whether `OutQ` is full (R162, R163). -/
def outputFull (c : Config) (x : Vm) : Bool := c.outDepth == some x.outQ.length

/-- A word pushed to `OutQ` (R162). -/
def Vm.pushOut (x : Vm) (v : Int) : Vm := { x with outQ := x.outQ ++ [v] }

/-- `Exec_OUT` (R162, R163). -/
def outputFrom (c : Config) (x : Vm) (v : Int) : Executed :=
  if outputFull c x then .ok (.outputBlocked, x)
  else .ok (.producedOutput v, (x.pushOut v).advance (x.ip + 2))

/-- IN (R160). -/
def execInp (m1 : Mode) (s : State) : Host.Outcome State Fault Refusal :=
  .next (s.finish (do
    let d ← resolveOut s.cfg s.inst 1 m1
    inputTo s.cfg s.inst d))

/-- OUT (R162). -/
def execOut (m1 : Mode) (s : State) : Host.Outcome State Fault Refusal :=
  .next (s.finish (do
    let a1 ← resolveIn s.cfg s.inst 1 m1
    outputFrom s.cfg s.inst a1))

end Sys2Proof.Machine
end

