-- ==== Sys2Proof/Machine/RelbaseHalt.lean ====
section
/-! DEFINITION. ARB and HALT (R190, R191). -/

namespace Sys2Proof.Machine

/-- `Exec_ARB` (R190). -/
def adjustBase (c : Config) (x : Vm) (a : Int) : Executed := do
  let r ← aluAdd c x.rb a
  continueAt { x with rb := r } (x.ip + 2)

/-- ARB (R190): the operand is resolved with the base before the adjustment. -/
def execArb (m1 : Mode) (s : State) : Host.Outcome State Fault Refusal :=
  .next (s.finish (do
    let a1 ← resolveIn s.cfg s.inst 1 m1
    adjustBase s.cfg s.inst a1))

/-- HALT (R191): `IP` is unchanged. -/
def execHalt (s : State) : Host.Outcome State Fault Refusal :=
  .next (s.finish (.ok (.halted, s.inst.setHalted)))

end Sys2Proof.Machine
end

