-- ==== Sys2Proof/Machine/Engine.lean ====
section
/-! DEFINITION. The execution engine: `Step()` of one instance (R121 to R129) and the loop of RUN (R132). -/

namespace Sys2Proof.Machine

/-- A live instance (R233). -/
def Vm.live (x : Vm) : Bool :=
  match x.runState with
  | .running => true
  | .awaitingInput => true
  | .haltedNormally => false
  | .faulted => false
  | .killed => false

/-- The step of a live instance: fetch (R123), decode (R124), then the instruction (R125 to R128). -/
def liveStep (s : State) : Host.Outcome State Fault Refusal :=
  match fetch s.cfg s.inst with
  | .error e => .next (s.finish (.error e))
  | .ok w =>
    match decode w with
    | .error e => .next (s.finish (.error (decodeRaise e)))
    | .ok i => exec i s

/-- `Step()` of the instance at the focus (R121); a terminal instance stays as it is (R122). -/
def engineStep (s : State) : Host.Outcome State Fault Refusal :=
  match s.inst.runState with
  | .haltedNormally => .next (s.answer (.stepResult .halted))
  | .faulted => .next (s.answer (.stepResult (.faulted s.inst.fault.reason)))
  | .killed => .next (s.answer (.stepResult .killed))
  | .running => liveStep s
  | .awaitingInput => liveStep s

/-- Whether a step result ends `Run(stop_on_output)` (R132). -/
def endsRun (stopOnOutput : Bool) : StepResult → Bool
  | .continued _ => false
  | .producedOutput _ => stopOnOutput
  | .needsInput => true
  | .outputBlocked => true
  | .halted => true
  | .faulted _ => true
  | .killed => true

/-- After a step, the RUN command in progress on the stepped instance returns where R132 says so. -/
def State.noteRun (s : State) : State :=
  match s.reply, s.runs.lookup s.current with
  | .stepResult r, some stop =>
    if endsRun stop r then { s with runs := s.runs.filter (fun p => p.1 != s.current) } else s
  | _, _ => s

/-- An outcome with its next state changed. -/
def mapNext (f : State → State) : Host.Outcome State Fault Refusal → Host.Outcome State Fault Refusal
  | .next s => .next (f s)
  | .fault r => .fault r
  | .refused r => .refused r

/-- STEP of the instance at the focus (R206), and of a RUN in progress on it (R207). -/
def stepCurrent (s : State) : Host.Outcome State Fault Refusal := mapNext State.noteRun (engineStep s)

/-- STEP of instance `j`. -/
def stepAt (j : Nat) (s : State) : Host.Outcome State Fault Refusal := stepCurrent (s.focus j)

end Sys2Proof.Machine
end

