-- ==== Sys2Proof/Machine/HostCommands.lean ====
section
/-! DEFINITION. The host's commands on one instance (R200 to R213). A command that is refused changes nothing (R200). -/

namespace Sys2Proof.Machine

/-- A command on instance `j`: `f` says what it returns and how it changes the instance. -/
def State.command (s : State) (j : Nat) (f : Vm → Reply × Vm) : State :=
  match s.vm? j with
  | none => s.answer (.refused .noSuchInstance)
  | some x => (s.modifyVm j (fun _ => (f x).2)).answer (f x).1

/-- Whether a FIFO whose depth is a parameter has room for `k` more words (R203, R204, R236, R240). -/
def hasRoom (depth : Option Nat) (q : List Int) (k : Nat) : Bool :=
  match depth with
  | some d => decide (q.length + k ≤ d)
  | none => true

/-- Why LOAD(P) is refused, if it is (R202). -/
def loadRefusal (c : Config) (program : List Int) : Option RefuseReason :=
  if !program.all c.fits then some .notAWord
  else if c.addrLimit.any (fun l => decide (l < program.length)) then some .imageTooLong
  else if c.capacity.any (fun k => decide (k < program.length)) then some .overCapacity
  else none

/-- The instance that LOAD(P) leaves (R34, R201). -/
def Vm.loaded (program : List Int) : Vm :=
  { Vm.powerOn with mem := Memory.writeList [] 0 program, fp := List.range program.length }

/-- LOAD(P) (R201, R202). -/
def load (c : Config) (program : List Int) (x : Vm) : Reply × Vm :=
  match loadRefusal c program with
  | some why => (.refused why, x)
  | none => (.ok, Vm.loaded program)

/-- Words pushed to `InQ`, in order. -/
def Vm.pushIn (vs : List Int) (x : Vm) : Vm := { x with inQ := x.inQ ++ vs }

/-- PROVIDE_INPUT_SEQUENCE(vs) (R204), "as if by PROVIDE_INPUT of each, atomically" (R203, R205).
DESIGN CHOICE (log 16): a value that is no word is refused as such before the run state and the room are looked at, and a Killed
instance discards a sequence of any length. -/
def provideInputs (c : Config) (vs : List Int) (x : Vm) : Reply × Vm :=
  if !vs.all c.fits then (.refused .notAWord, x)
  else if x.runState = .killed then (.ok, x)
  else if hasRoom c.inDepth x.inQ vs.length then (.ok, x.pushIn vs)
  else (.refused .inputFull, x)

/-- PROVIDE_INPUT(v) (R203, R205). DESIGN CHOICE (log 16): the order of the tests. -/
def provideInput (c : Config) (v : Int) (x : Vm) : Reply × Vm :=
  if !c.fits v then (.refused .notAWord, x)
  else if x.runState = .killed then (.ok, x)
  else if hasRoom c.inDepth x.inQ 1 then (.ok, x.pushIn [v])
  else (.refused .inputFull, x)

/-- READ_OUTPUT (R208). -/
def readOutput (x : Vm) : Reply × Vm :=
  match x.outQ with
  | [] => (.output none, x)
  | v :: rest => (.output (some v), { x with outQ := rest })

/-- IS_HALTED (R209). -/
def isHalted (x : Vm) : Reply × Vm := (.isHalted (x.runState == .haltedNormally), x)

/-- What READ_STATUS returns (R210). -/
def Vm.statusView (x : Vm) : StatusView where
  status := x.status
  ip := x.ip
  rb := x.rb
  faultIp := x.fault.ip
  faultOpcode := x.fault.opcode
  faultWord := x.fault.word
  faultAddr := x.fault.addr
  inLen := x.inQ.length
  outLen := x.outQ.length

/-- READ_STATUS (R210). -/
def readStatus (x : Vm) : Reply × Vm := (.status x.statusView, x)

/-- SET_INPUT_POLICY(p) (R211). DESIGN CHOICE (log 20): it returns `Ok`. -/
def setInputPolicy (p : InputPolicy) (x : Vm) : Reply × Vm := (.ok, { x with inputPolicy := p })

/-- PEEK(a) (R212). -/
def peek (c : Config) (a : Int) (x : Vm) : Reply × Vm :=
  match memRead c x a with
  | .ok v => (.word v, x)
  | .error _ => (.refused .badAddress, x)

/-- The instance after KILL (R213). -/
def Vm.kill (x : Vm) : Vm :=
  { x with runState := if x.live then .killed else x.runState, inQ := [], outQ := [] }

/-- KILL (R213). DESIGN CHOICE (log 20): it returns `Ok`. -/
def kill (x : Vm) : Reply × Vm := (.ok, x.kill)

/-- STEP of instance `j` by the host, in any state of it (R206). -/
def hostStep (j : Nat) (s : State) : Host.Outcome State Fault Refusal :=
  match s.vm? j with
  | none => .next (s.answer (.refused .noSuchInstance))
  | some _ => stepAt j s

/-- RUN(stop_on_output) of instance `j` (R207): the command is in progress from now on, and its first step is taken.
Every later STEP of `j` is its next step, until one of them ends it (R132). -/
def startRun (j : Nat) (stopOnOutput : Bool) (s : State) : Host.Outcome State Fault Refusal :=
  match s.vm? j with
  | none => .next (s.answer (.refused .noSuchInstance))
  | some _ => stepAt j { s with runs := (j, stopOnOutput) :: s.runs.filter (fun p => p.1 != j) }

end Sys2Proof.Machine
end

