-- ==== Sys2Proof/Machine/FifoMux.lean ====
section
/-! DEFINITION. The FIFO mux (R230 to R250). A step of the mux answers `none` where it is not enabled. -/

namespace Sys2Proof.Machine

/-- A ready instance (R233). -/
def Vm.ready (x : Vm) : Bool :=
  match x.runState with
  | .running => true
  | .awaitingInput => !x.inQ.isEmpty
  | .haltedNormally => false
  | .faulted => false
  | .killed => false

/-- The front of `OutQ` popped. -/
def Vm.popOut (x : Vm) : Vm := { x with outQ := x.outQ.tail }

/-- MUX_RESET (R232): the configuration and the instances are left. -/
def Mux.clear (m : Mux) : Mux :=
  { m with
    status := .active, routeFaultSrc := 0, routeFaultDest := 0, hostOut := [], lastSignal := 0,
    lastSignalValid := false, asm := m.asm.map (fun _ => []), emptyCount := m.emptyCount.map (fun _ => 0),
    lastBcast := (0, 0), lastBcastValid := false, mon := [] }

/-- Every `EMPTY_COUNT[j]` set to 0 (R244, R247). -/
def Mux.clearCounts (m : Mux) : Mux := { m with emptyCount := m.emptyCount.map (fun _ => 0) }

/-- `ASM[i]` set (R239). -/
def Mux.setAsm (m : Mux) (i : Nat) (ws : List Int) : Mux := { m with asm := m.asm.set i ws }

/-- A word pushed to `HostOut` (R236). -/
def Mux.pushHostOut (m : Mux) (v : Int) : Mux := { m with hostOut := m.hostOut ++ [v] }

/-- `LAST_SIGNAL <- v` (R236). -/
def Mux.signal (m : Mux) (v : Int) : Mux := { m with lastSignal := v, lastSignalValid := true }

/-- The system with its mux changed by `f`. -/
def State.modifyMux (s : State) (f : Mux → Mux) : State := { s with mux := f s.mux }

/-- Words for instance `dest`, pushed together: discarded where it is `Killed`, not possible where its `InQ` has no room
(R236, R240, R243). -/
def State.deliver (s : State) (dest : Nat) (vs : List Int) : Option State :=
  match s.vm? dest with
  | none => none
  | some y =>
    if y.runState = .killed then some s
    else if hasRoom s.cfg.inDepth y.inQ vs.length then some (s.modifyVm dest (Vm.pushIn vs))
    else none

/-- The destination half of ROUTE(i) in Chain mode (R236), with `v` already popped. -/
def routeChain (i : Nat) (v : Int) (s : State) : Option State :=
  if i + 1 < s.count then s.deliver (i + 1) [v]
  else if s.mux.cfg.feedback then (s.deliver 0 [v]).map (fun t => t.modifyMux (fun m => m.signal v))
  else some (s.modifyMux (fun m => (m.pushHostOut v).signal v))

/-- Dispatch of the message `(dest, x, y)` of instance `i` (R240, R241): the broadcast test comes first. -/
def dispatchPacket (i : Nat) (dest x y : Int) (s : State) : Option State :=
  if dest = s.mux.cfg.bcastAddr then
    some (s.modifyMux (fun m =>
      { m with lastBcast := (x, y), lastBcastValid := true, mon := m.mon ++ [⟨.broadcast, x, y⟩] }))
  else if 0 ≤ dest ∧ dest < s.count then s.deliver dest.toNat [x, y]
  else some (s.modifyMux (fun m =>
    { m with status := .routingFault, routeFaultSrc := i, routeFaultDest := dest }))

/-- The assembly half of ROUTE(i) in Packet mode (R239), with `v` already popped. -/
def routePacket (i : Nat) (v : Int) (s : State) : Option State :=
  match (s.mux.asm[i]?).getD [] with
  | [dest, x] => (dispatchPacket i dest x v s).map (fun t => t.modifyMux (fun m => m.setAsm i []))
  | ws => some (s.modifyMux (fun m => m.setAsm i (ws ++ [v])))

/-- ROUTE(i) of the word `v`, already popped, in the mux's mode (R236, R239). -/
def routeWord (i : Nat) (v : Int) (s : State) : Option State :=
  match s.mux.cfg.mode with
  | .chain => routeChain i v s
  | .packet => routePacket i v s

/-- ROUTE(i) (R236, R239), enabled while the mux is `Active` (R234, R241); it resets every `EMPTY_COUNT` (R244). -/
def route (i : Nat) (s : State) : Option State :=
  match s.mux.status, (s.vm? i).map Vm.outQ with
  | .active, some (v :: _) =>
    (routeWord i v (s.modifyVm i Vm.popOut)).map (fun t => t.modifyMux Mux.clearCounts)
  | _, _ => none

/-- `EMPTY_INPUT_POLICY`, a policy of Packet mode (R6, R242, R244); in Chain mode an instance just suspends. -/
def Mux.policy (m : Mux) : EmptyInputPolicy :=
  match m.cfg.mode with
  | .chain => .suspend
  | .packet => m.cfg.emptyInput

/-- SUPPLY(i) (R244). -/
def supply (i : Nat) (s : State) : Option State :=
  match s.mux.status, s.mux.policy, s.vm? i with
  | .active, .supply v, some x =>
    if x.runState = .awaitingInput ∧ x.inQ = [] ∧ hasRoom s.cfg.inDepth x.inQ 1 = true then
      some ((s.modifyVm i (Vm.pushIn [v])).modifyMux (fun m => { m with emptyCount := m.emptyCount.modify i (· + 1) }))
    else none
  | _, _, _ => none

/-- The last condition of R245: quiescence under `Suspend`, `IDLE_WAIT` empty-queue inputs under `Supply(v)`. -/
def State.quiet (s : State) : Bool :=
  match s.mux.policy with
  | .suspend => s.insts.all (fun x => !x.live || x.runState == .awaitingInput)
  | .supply _ => (s.insts.zip s.mux.emptyCount).all (fun p => !p.1.live || decide (s.mux.cfg.idleWait ≤ p.2))

/-- The system is idle (R245). -/
def State.idle (s : State) : Bool :=
  s.insts.any Vm.live && s.insts.all (fun x => x.outQ.isEmpty)
    && s.insts.all (fun x => !x.live || x.inQ.isEmpty) && s.quiet

/-- Whether instance `j` is there and live. -/
def State.liveAt (s : State) (j : Nat) : Bool := (s.vm? j).any Vm.live

/-- `(Reinject, X, Y)` pushed to `MON`, for the last broadcast packet (R247). -/
def Mux.noteReinject (m : Mux) : Mux :=
  { m with mon := m.mon ++ [⟨.reinject, m.lastBcast.1, m.lastBcast.2⟩] }

/-- Re-injection of the last broadcast packet (R247). -/
def reinject (s : State) : Option State :=
  (s.deliver s.mux.cfg.natTarget [s.mux.lastBcast.1, s.mux.lastBcast.2]).map (fun t =>
    t.modifyMux (fun m => m.noteReinject.clearCounts))

/-- `MUX_STATUS` set. -/
def State.setMuxStatus (s : State) (v : MuxStatus) : State := s.modifyMux (fun m => { m with status := v })

/-- The idle action: none but `Deadlocked` in Chain mode (R238); in Packet mode the re-injection (R247), or `Deadlocked`
where there is nothing to re-inject or the target is not live (R248). -/
def idleAction (s : State) : Option State :=
  match s.mux.status, s.idle with
  | .active, true =>
    match s.mux.cfg.mode with
    | .chain => some (s.setMuxStatus .deadlocked)
    | .packet =>
      if s.mux.lastBcastValid && s.liveAt s.mux.cfg.natTarget then reinject s
      else some (s.setMuxStatus .deadlocked)
  | _, _ => none

/-- `MUX_STATUS <- Finished` when no instance is live (R238, R246). DEDUCED (log 8): the words still to be routed go first, since
V-L1-4's final signal is to hold "under every schedule" and no ROUTE is taken after it (R234). -/
def complete (s : State) : Option State :=
  match s.mux.status with
  | .active =>
    if s.insts.all (fun x => !x.live) && (List.range s.count).all (fun i => (route i s).isNone) then
      some (s.setMuxStatus .finished)
    else none
  | _ => none

/-- Whether the mux may step instance `j` (R234 (a)). -/
def State.mayStep (s : State) (j : Nat) : Bool :=
  s.mux.status == .active && (s.vm? j).any Vm.ready

/-- KILL(j) issued through the mux (R243). DESIGN CHOICE (log 20): it returns `Ok`. -/
def muxKill (j : Nat) (s : State) : State :=
  match s.vm? j with
  | none => s.answer (.refused .noSuchInstance)
  | some _ => ((s.modifyVm j Vm.kill).modifyMux (fun m => m.setAsm j [])).answer .ok

/-- What the host reads of the mux (R250). -/
def Mux.view (m : Mux) : MuxView where
  status := m.status
  routeFaultSrc := m.routeFaultSrc
  routeFaultDest := m.routeFaultDest
  lastSignal := m.lastSignal
  lastSignalValid := m.lastSignalValid
  lastBcast := m.lastBcast
  lastBcastValid := m.lastBcastValid

/-- Popping `HostOut` (R250). DESIGN CHOICE (log 21): where it is empty the host gets none and nothing changes. -/
def popHostOut (s : State) : State :=
  match s.mux.hostOut with
  | [] => s.answer (.output none)
  | v :: rest => (s.modifyMux (fun m => { m with hostOut := rest })).answer (.output (some v))

/-- Popping `MON` (R250). DESIGN CHOICE (log 21): where it is empty the host gets none and nothing changes. -/
def popMon (s : State) : State :=
  match s.mux.mon with
  | [] => s.answer (.monRecord none)
  | r :: rest => (s.modifyMux (fun m => { m with mon := rest })).answer (.monRecord (some r))

/-- An action of the round-robin schedule. -/
inductive RoundRobinMove
  | step (j : Nat)
  | route (j : Nat)
deriving DecidableEq, Repr

/-- What the round-robin schedule does with instance `j`, if anything (R235): ROUTE(j) after each output, else a step
while it is ready and nothing of it waits to be routed. -/
def State.moveOf (s : State) (j : Nat) : Option RoundRobinMove :=
  if (route j s).isSome then some (.route j)
  else if s.mayStep j && (s.vm? j).any (fun x => x.outQ.isEmpty) then some (.step j)
  else none

/-- The next action of the cooperative round-robin schedule (R235): the instance at the focus as long as it can go on, then
the next one in cyclic order. -/
def State.roundRobinMove (s : State) : Option RoundRobinMove :=
  ((List.range s.count).map (fun k => (s.current + k) % s.count)).findSome? s.moveOf

end Sys2Proof.Machine
end

