-- ==== Sys2Proof/Machine/System.lean ====
section
/-! DEFINITION. One event of the whole system: a host command or a step of the mux system (R200, R234), one at a time. -/

namespace Sys2Proof.Machine

/-- A step of the mux, or nothing where it is not enabled (log 6). -/
def State.takeMux (s : State) (r : Option State) : Host.Outcome State Fault Refusal :=
  match r with
  | some t => .next (t.answer .muxStep)
  | none => .next (s.answer .notEnabled)

/-- STEP of a ready instance by the mux (R234 (a)). -/
def muxStep (j : Nat) (s : State) : Host.Outcome State Fault Refusal :=
  if s.mayStep j then stepAt j s else .next (s.answer .notEnabled)

/-- One event (R200, R234). -/
def perform (e : Event) (s : State) : Host.Outcome State Fault Refusal :=
  match e with
  | .load j program => .next (s.command j (load s.cfg program))
  | .provideInput j v => .next (s.command j (provideInput s.cfg v))
  | .provideInputSequence j vs => .next (s.command j (provideInputs s.cfg vs))
  | .hostStep j => hostStep j s
  | .run j stop => startRun j stop s
  | .readOutput j => .next (s.command j readOutput)
  | .isHalted j => .next (s.command j isHalted)
  | .readStatus j => .next (s.command j readStatus)
  | .setInputPolicy j p => .next (s.command j (setInputPolicy p))
  | .peek j a => .next (s.command j (peek s.cfg a))
  | .kill j => .next (s.command j kill)
  | .muxReset => .next ((s.modifyMux Mux.clear).answer .ok)
  | .muxKill j => .next (muxKill j s)
  | .readMux => .next (s.answer (.muxStatus s.mux.view))
  | .popHostOut => .next (popHostOut s)
  | .popMon => .next (popMon s)
  | .muxStep j => muxStep j s
  | .route j => s.takeMux (route j s)
  | .supply j => s.takeMux (supply j s)
  | .idleAction => s.takeMux (idleAction s)
  | .complete => s.takeMux (complete s)
  | .roundRobin =>
    match s.roundRobinMove with
    | some (.step j) => muxStep j s
    | some (.route j) => s.takeMux (route j s)
    | none => .next (s.answer .notEnabled)

/-- What the system does next: its first pending event, or else STEP of the instance at the focus (log 5). -/
def systemStep (s : State) : Host.Outcome State Fault Refusal :=
  match s.pending with
  | [] => stepCurrent s
  | e :: rest => perform e { s with pending := rest }

/-- The program words of `withFetchWord` in place: at `IP` where that is a legal address, else at 0 with `IP` there, in an
instance that is running (log 3). -/
def Vm.withProgramAt (c : Config) (words : List Int) (x : Vm) : Vm :=
  let a : Nat := match checkAddr c x.ip with
    | .ok n => n
    | .error _ => 0
  let y := { x with
    ip := a
    mem := Memory.writeList x.mem a words
    fp := (List.range words.length).foldl (fun f k => footprintAdd f (a + k)) x.fp }
  if x.live then y else { y with runState := .running, halted := false, fault := FaultRecord.clear }

end Sys2Proof.Machine
end

