-- ==== Sys2Proof/Machine/Step.lean ====
section
/-! DEFINITION. The one step function of the machine, and the word the host lays where it fetches next. -/

namespace Sys2Proof.Machine

/-- One step of the machine: `systemStep`. -/
def step (s : State) : Host.Outcome State Fault Refusal := systemStep s

/-- `s` with the instruction whose bits are `w` stored where the next step fetches: four words (the longest instruction, R82),
the bits above `nbits` being 0, and no event before it (log 3). -/
def State.withFetchWord (s : State) (nbits w : Nat) : State :=
  { s with
    inst := s.inst.withProgramAt s.cfg ((List.range 4).map (wordOfBits (w % 2 ^ nbits)))
    pending := [] }

end Sys2Proof.Machine
end

