-- ==== Sys2Proof/Safety.lean ====
section
/-! DEFINITION. The terms the claims use, written from the spec's words and not from the machine's code: legal addresses,
what an operand resolves to, what a completed or faulted instruction leaves, and the invariant of R35. -/

namespace Sys2Proof.Machine

/-! ## Addresses and operands -/

/-- An address that exists (R50). -/
def legalAddr (c : Config) (a : Int) : Prop := 0 ≤ a ∧ ∀ l, c.addrLimit = some l → a < (l : Int)

/-- `a` fails `check_addr` with fault `f` (R11). -/
def addressFault (c : Config) (a : Int) (f : Fault) : Prop :=
  (a < 0 ∧ f = .invalidAddress) ∨
    (0 ≤ a ∧ f = .addressOutOfRange ∧ ∃ l, c.addrLimit = some l ∧ (l : Int) ≤ a)

/-- `M[a]` (R50, R51). -/
def Vm.wordAt (x : Vm) (a : Int) : Int := x.mem.read a.toNat

/-- The literal of parameter `k` (R80). -/
def Vm.lit (x : Vm) (k : Nat) : Int := x.wordAt (x.ip + k)

/-- Input parameter `k` in mode `m` has the value `v` (R92, R93, R94). -/
def inputValue (c : Config) (x : Vm) (k : Nat) (m : Mode) (v : Int) : Prop :=
  legalAddr c (x.ip + k) ∧
    match m with
    | .position => legalAddr c (x.lit k) ∧ v = x.wordAt (x.lit k)
    | .immediate => v = x.lit k
    | .relative => legalAddr c (x.rb + x.lit k) ∧ v = x.wordAt (x.rb + x.lit k)

/-- Output parameter `k` in mode `m` has the destination address `d` (R95, R96). -/
def destAddr (c : Config) (x : Vm) (k : Nat) (m : Mode) (d : Int) : Prop :=
  legalAddr c (x.ip + k) ∧ legalAddr c d ∧
    match m with
    | .position => d = x.lit k
    | .immediate => False
    | .relative => d = x.rb + x.lit k

/-- Resolving input parameter `k` raises `f` at address `a` (R90, R98). -/
def inputFault (c : Config) (x : Vm) (k : Nat) (m : Mode) (f : Fault) (a : Int) : Prop :=
  (addressFault c (x.ip + k) f ∧ a = x.ip + k) ∨
    (legalAddr c (x.ip + k) ∧ addressFault c a f ∧
      match m with
      | .position => a = x.lit k
      | .immediate => False
      | .relative => a = x.rb + x.lit k)

/-- Resolving output parameter `k` raises `f` at address `a` (R90, R98): the same checks. -/
def destFault (c : Config) (x : Vm) (k : Nat) (m : Mode) (f : Fault) (a : Int) : Prop :=
  m ≠ .immediate ∧ inputFault c x k m f a

/-- Parameter `j` of an instruction resolves. -/
def operandOk (c : Config) (x : Vm) (i : Instr) (j : Nat) : Prop :=
  match i.kind j, i.modes[j - 1]? with
  | some .input, some m => ∃ v, inputValue c x j m v
  | some .output, some m => ∃ d, destAddr c x j m d
  | _, _ => False

/-- Resolving parameter `k` of an instruction raises `f` at address `a`. -/
def operandFault (c : Config) (x : Vm) (i : Instr) (k : Nat) (f : Fault) (a : Int) : Prop :=
  match i.kind k, i.modes[k - 1]? with
  | some .input, some m => inputFault c x k m f a
  | some .output, some m => destFault c x k m f a
  | _, _ => False

/-- A write to `d` finds room: its address is in the footprint already, or the footprint is not full (R54). -/
def writeRoom (c : Config) (x : Vm) (d : Int) : Prop :=
  ∀ k, c.capacity = some k → d.toNat ∈ x.fp ∨ x.fp.length ≠ k

/-- A digit that is no legal mode for a parameter of that kind (R89, R91). -/
def badDigit (kind : ParamKind) (d : Nat) : Prop := 3 ≤ d ∨ (kind = .output ∧ d = 1)

/-! ## What an instruction leaves -/

/-- The result of a storing instruction of length `n` (R127, R128): `v` at `d`, `d` in the footprint, on to `IP + n`. -/
def State.stored (s : State) (n : Nat) (d : Int) (v : Int) : State :=
  { s with
    inst := { s.inst with
      mem := s.inst.mem.write d.toNat v, fp := footprintAdd s.inst.fp d.toNat
      ip := s.inst.ip + n, runState := .running }
    reply := .stepResult (.continued (s.inst.ip + n)) }

/-- The result of an instruction that only moves on to `next` (R121). -/
def State.movedTo (s : State) (next : Int) : State :=
  { s with
    inst := { s.inst with ip := next, runState := .running }
    reply := .stepResult (.continued next) }

/-- The record of a fault of an instruction whose opcode word was fetched (R28, R276). -/
def instrFaultRecord (x : Vm) (f : Fault) (info : Option Int) : FaultRecord where
  reason := some f
  ip := x.ip
  opcode := if x.wordAt x.ip < 0 then 0 else (x.wordAt x.ip).toNat % 100
  word := x.wordAt x.ip
  wordValid := true
  addr := info.getD 0
  addrValid := info.isSome

/-- The result of an instruction that raises `f` (R129, R276): the run state and the record, nothing else. -/
def State.faultedWith (s : State) (f : Fault) (info : Option Int) : State :=
  { s with
    inst := { s.inst with runState := .faulted, fault := instrFaultRecord s.inst f info }
    reply := .stepResult (.faulted (some f)) }

/-- A terminal run state (R26). -/
def RunState.terminal : RunState → Prop
  | .running => False
  | .awaitingInput => False
  | .haltedNormally => True
  | .faulted => True
  | .killed => True

/-- A step of the whole machine that, of the instances, changes instance `j` alone, to `y`, and hands `r` to the host. -/
def commandGives (s : State) (j : Nat) (r : Reply) (y : Vm) : Prop :=
  ∃ t, step s = .next t ∧ t.reply = r ∧ t.insts = s.insts.set j y ∧ t.current = s.current ∧
    t.cfg = s.cfg ∧ t.mux = s.mux ∧ t.runs = s.runs ∧ t.pending = s.pending.tail

/-- A step that changes nothing but the value handed to the host and the event it takes. -/
def onlyAnswers (s : State) (r : Reply) : Prop :=
  step s = .next { s with reply := r, pending := s.pending.tail }

/-- A step of the instance at the focus that changes nothing of the machine, hands `r` to the host and ends a RUN in progress on the
instance (R132). -/
def endsWith (s : State) (r : Reply) : Prop :=
  step s = .next { s with reply := r, runs := s.runs.filter (fun p => p.1 != s.current) }

/-- A step of the mux that leaves the instances `xs` and the mux `m`, and the rest as it was. -/
def muxGives (s : State) (xs : List Vm) (m : Mux) : Prop :=
  ∃ t, step s = .next t ∧ t.reply = .muxStep ∧ t.insts = xs ∧ t.mux = m ∧ t.current = s.current ∧
    t.cfg = s.cfg ∧ t.runs = s.runs ∧ t.pending = s.pending.tail

/-- The part of an instance that only its own steps and LOAD write: all but the FIFOs (R31, R230). -/
def sameButQueues (x y : Vm) : Prop := y = { x with inQ := y.inQ, outQ := y.outQ }

/-! ## The mux -/

/-- A live instance (R233). -/
def Vm.isLive (x : Vm) : Prop := x.runState = .running ∨ x.runState = .awaitingInput

/-- A ready instance (R233). -/
def Vm.isReady (x : Vm) : Prop := x.runState = .running ∨ (x.runState = .awaitingInput ∧ x.inQ ≠ [])

/-- `InQ` has room for `k` more words (R203, R236, R240). -/
def inputRoom (c : Config) (x : Vm) (k : Nat) : Prop := ∀ d, c.inDepth = some d → x.inQ.length + k ≤ d

/-- Where instance `i` sends its words in Chain mode (R236): an instance, or `HostOut` for `none`. -/
def chainDest (s : State) (i : Nat) : Option Nat :=
  if i + 1 < s.count then some (i + 1) else if s.mux.cfg.feedback then some 0 else none

/-- The mux after a ROUTE in Chain mode (R236, R244), but for `HostOut`. -/
def chainMux (s : State) (i : Nat) (v : Int) : Mux :=
  { s.mux with
    lastSignal := if i + 1 < s.count then s.mux.lastSignal else v
    lastSignalValid := if i + 1 < s.count then s.mux.lastSignalValid else true
    emptyCount := s.mux.emptyCount.map (fun _ => 0) }

/-- The mux after a ROUTE of instance `i` in Packet mode that leaves `ws` in `ASM[i]` (R239, R244). -/
def packetMux (m : Mux) (i : Nat) (ws : List Int) : Mux :=
  { m with asm := m.asm.set i ws, emptyCount := m.emptyCount.map (fun _ => 0) }

/-- The system is idle (R245). -/
def systemIdle (s : State) : Prop :=
  (∃ x ∈ s.insts, x.isLive) ∧ (∀ x ∈ s.insts, x.outQ = []) ∧ (∀ x ∈ s.insts, x.isLive → x.inQ = []) ∧
    (s.mux.policy = .suspend → ∀ x ∈ s.insts, x.isLive → x.runState = .awaitingInput) ∧
    (∀ v, s.mux.policy = .supply v →
      ∀ (j : Nat) (x : Vm) (n : Nat), s.insts[j]? = some x → s.mux.emptyCount[j]? = some n → x.isLive →
        s.mux.cfg.idleWait ≤ n)

/-! ## The invariant (R35) -/

/-- The canonical form of the memory: addresses rising, no word 0 listed. -/
abbrev Memory.wf (m : Memory) : Prop := m.Pairwise (fun p q => p.1 < q.1) ∧ ∀ p ∈ m, p.2 ≠ 0

/-- What every reachable instance keeps (R23, R25, R28, R31, R35, R52). -/
structure Vm.Inv (c : Config) (x : Vm) : Prop where
  memCanonical : x.mem.wf
  memWords : ∀ p ∈ x.mem, c.fits p.2 = true
  memInFootprint : ∀ p ∈ x.mem, p.1 ∈ x.fp
  footprintRising : x.fp.Pairwise (fun a b => a < b)
  footprintLegal : ∀ a ∈ x.fp, legalAddr c (a : Int)
  footprintRoom : ∀ k, c.capacity = some k → x.fp.length ≤ k
  ipRange : c.fits x.ip = true ∨ c.fits (x.ip - 1) = true
  rbWord : c.fits x.rb = true
  haltedIff : x.halted = true ↔ x.runState = .haltedNormally
  reasonIff : x.fault.reason ≠ none ↔ x.runState = .faulted
  recordClear : x.runState ≠ .faulted → x.fault = FaultRecord.clear
  inWords : ∀ v ∈ x.inQ, c.fits v = true
  outWords : ∀ v ∈ x.outQ, c.fits v = true
  inRoom : ∀ d, c.inDepth = some d → x.inQ.length ≤ d
  outRoom : ∀ d, c.outDepth = some d → x.outQ.length ≤ d
  awaitingAtIn : x.runState = .awaitingInput →
    legalAddr c x.ip ∧ ∃ m, decode (x.wordAt x.ip) = .ok (.inp m)

/-- What the mux of `n` instances keeps (R31, R231, R239). -/
structure Mux.Inv (c : Config) (n : Nat) (m : Mux) : Prop where
  cfgOk : m.cfg.wf c = true
  asmCount : m.asm.length = n
  emptyCountCount : m.emptyCount.length = n
  asmPartial : ∀ ws ∈ m.asm, ws.length ≤ 2
  asmWords : ∀ ws ∈ m.asm, ∀ v ∈ ws, c.fits v = true
  hostOutWords : ∀ v ∈ m.hostOut, c.fits v = true
  signalWord : c.fits m.lastSignal = true
  bcastWords : c.fits m.lastBcast.1 = true ∧ c.fits m.lastBcast.2 = true
  monWords : ∀ r ∈ m.mon, c.fits r.x = true ∧ c.fits r.y = true
  faultSource : m.routeFaultSrc < n
  faultDest : c.fits m.routeFaultDest = true

/-- What the whole system keeps. -/
structure State.Inv (s : State) : Prop where
  cfgOk : s.cfg.wf = true
  instances : ∀ x ∈ s.insts, x.Inv s.cfg
  muxOk : s.mux.Inv s.cfg s.count
  runsOnce : (s.runs.map Prod.fst).Nodup
  runsThere : ∀ p ∈ s.runs, p.1 < s.count

end Sys2Proof.Machine
end

