-- ==== Sys2Proof/Certificates/Slice0/Obligations.lean ====
section
/-! DEFINITION. The statements for the provers. Each is stated in the terms of Safety.lean. -/

open Sys2Proof
open Sys2Proof.Machine

/-! ## The decoder -/

/-- Decoder verdicts of 95_test_vectors.md L2.1: words written out from the encodings of R82 and R86. -/
def Obligations.DecodeReadsTableWords : Prop :=
  decode 1002 = .ok (.mul .position .immediate .position) ∧
  decode 21107 = .ok (.lt .immediate .immediate .relative) ∧
  decode 22201 = .ok (.add .relative .relative .relative) ∧
  decode 203 = .ok (.inp .relative) ∧
  decode 109 = .ok (.arb .immediate) ∧
  decode 2105 = .ok (.jt .immediate .relative) ∧
  decode 1106 = .ok (.jf .immediate .immediate) ∧
  decode 1008 = .ok (.eq .position .immediate .position) ∧
  decode 1104 = .ok (.out .immediate) ∧
  decode 1199 = .ok .halt ∧
  decode 11101 = .error (.invalidAddressingMode 1) ∧
  decode 401 = .error (.invalidAddressingMode 4) ∧
  decode 100 = .error (.invalidOpcode 0) ∧
  decode (-104) = .error (.invalidOpcode (-104))

/-- R80, R81, R103: reading back the words of any well-formed instruction, with any literals and whatever follows them,
gives the instruction, its literals and what followed. -/
def Obligations.DecodeInvertsEncode : Prop :=
  ∀ (i : Instr) (literals rest : List Int), i.wf = true → i.literalsOk literals = true →
    decodeWords (encode i literals ++ rest) = .ok (i, literals, rest)

/-- R81, R100: a word that decodes is the opcode word of the instruction it decodes to, which is well-formed, plus
digits above the consumed ones. -/
def Obligations.DecodedWordIsItsEncoding : Prop :=
  ∀ (w : Int) (i : Instr), decode w = .ok i →
    i.wf = true ∧ ∃ rest : Nat, w = opcodeWord i + 10 ^ (i.length + 1) * (rest : Int)

/-- R88: digits at or above position `n + 1` have no effect, whatever their value. -/
def Obligations.UnconsumedDigitsAreIgnored : Prop :=
  ∀ (w rest : Nat) (kinds : List ParamKind), paramKinds (w % 100) = some kinds →
    decode ((w + 10 ^ (kinds.length + 2) * rest : Nat) : Int) = decode (w : Int)

/-- R84, R85, R89, R91: the decoder raises `InvalidOpcode` for a negative word and for an opcode that is none of the ten, and
`InvalidAddressingMode` for the first consumed digit that is 3 to 9, or 1 for an output parameter. -/
def Obligations.DecodeRejectsByRule : Prop :=
  (∀ w : Int, w < 0 → decode w = .error (.invalidOpcode w)) ∧
  (∀ w : Nat, w % 100 ∉ [1, 2, 3, 4, 5, 6, 7, 8, 9, 99] →
    decode (w : Int) = .error (.invalidOpcode ((w % 100 : Nat) : Int))) ∧
  ∀ (w k : Nat) (kinds : List ParamKind) (kind : ParamKind), paramKinds (w % 100) = some kinds →
    kinds[k]? = some kind → badDigit kind (dig w (k + 2)) →
    (∀ (j : Nat) (other : ParamKind), j < k → kinds[j]? = some other → ¬ badDigit other (dig w (j + 2))) →
    decode (w : Int) = .error (.invalidAddressingMode (dig w (k + 2)))

/-- R81, R82, R100: every word of the legal class decodes, to the opcode and the mode digits it holds. -/
def Obligations.DecodeAcceptsLegalWords : Prop :=
  ∀ (w : Nat) (kinds : List ParamKind), paramKinds (w % 100) = some kinds →
    (∀ (k : Nat) (kind : ParamKind), kinds[k]? = some kind → ¬ badDigit kind (dig w (k + 2))) →
    ∃ i, decode (w : Int) = .ok i ∧ i.opcode = w % 100 ∧ i.length = kinds.length + 1 ∧
      i.modes.length = kinds.length ∧ ∀ k, k < kinds.length → i.modeDigit (k + 1) = dig w (k + 2)

/-! ## The step -/

/-- R121, R124, R126: a live instance at a legal `IP` whose word there decodes to `i` runs `i`. With a RUN in progress, the only
difference is that the RUN may end (R132). -/
def Obligations.StepRunsTheDecodedInstruction : Prop :=
  ∀ (s : State) (i : Instr), s.pending = [] → s.inst.isLive → legalAddr s.cfg s.inst.ip →
    decode (s.inst.wordAt s.inst.ip) = .ok i →
    step s = mapNext State.noteRun (exec i s) ∧ (s.runs = [] → step s = exec i s)

/-- R123: the fetch raises `InvalidAddress` or `AddressOutOfRange` with no word recorded, and a 0 fetched, as at every address the
footprint does not have (R35: a word that is not 0 is in it), raises `InvalidOpcode(0)`. -/
def Obligations.FetchFaults : Prop :=
  ∀ (s : State), s.pending = [] → s.inst.isLive →
    (∀ f, addressFault s.cfg s.inst.ip f →
      ∃ t, step s = .next t ∧ t.reply = .stepResult (.faulted (some f)) ∧
        t.inst = { s.inst with
          runState := .faulted
          fault := { reason := some f, ip := s.inst.ip, opcode := 0, word := 0, wordValid := false,
                     addr := s.inst.ip, addrValid := true } }) ∧
    (legalAddr s.cfg s.inst.ip →
      (s.inst.wordAt s.inst.ip = 0 ∨ ((∀ p ∈ s.inst.mem, p.1 ∈ s.inst.fp) ∧ s.inst.ip.toNat ∉ s.inst.fp)) →
      ∃ t, step s = .next t ∧ t.reply = .stepResult (.faulted (some .invalidOpcode)) ∧
        t.inst = { s.inst with
          runState := .faulted
          fault := { reason := some .invalidOpcode, ip := s.inst.ip, opcode := 0, word := 0, wordValid := true,
                     addr := 0, addrValid := false } })

/-- R271, R273, R276: a word the decoder rejects leaves the record of its fault and nothing else. -/
def Obligations.DecoderFaults : Prop :=
  ∀ (s : State) (e : DecodeError), s.pending = [] → s.inst.isLive → legalAddr s.cfg s.inst.ip →
    decode (s.inst.wordAt s.inst.ip) = .error e →
    ∃ t, step s = .next t ∧
      match e with
      | .invalidOpcode _ => t.inst = (s.faultedWith .invalidOpcode none).inst ∧
          t.reply = .stepResult (.faulted (some .invalidOpcode))
      | .invalidAddressingMode digit => t.inst = (s.faultedWith .invalidAddressingMode (some (digit : Int))).inst ∧
          t.reply = .stepResult (.faulted (some .invalidAddressingMode))

/-- R122, R132, R207: a step in a terminal state changes nothing of the machine, returns the terminal result, and ends a RUN in
progress on the instance; the list of RUN commands in progress is the model's own (log 5, log 13). -/
def Obligations.TerminalStepOnlyAnswers : Prop :=
  ∀ (s : State), s.pending = [] →
    (s.inst.runState = .haltedNormally → endsWith s (.stepResult .halted)) ∧
    (s.inst.runState = .faulted → endsWith s (.stepResult (.faulted s.inst.fault.reason))) ∧
    (s.inst.runState = .killed → endsWith s (.stepResult .killed))

/-- R121: every step of the machine answers a next state, whatever the event: nothing the spec describes stops the model. -/
def Obligations.EveryStepAnswers : Prop := ∀ s : State, ∃ t, step s = .next t

/-- R129: when a step raises, memory, `FP`, `IP`, `RB`, the FIFOs and `INPUT_POLICY` are as before; `RUN_STATE` is `Faulted`. -/
def Obligations.FaultsArePrecise : Prop :=
  ∀ (s t : State) (f : Fault), s.pending = [] → s.inst.isLive → step s = .next t →
    t.reply = .stepResult (.faulted (some f)) →
    t.inst = { s.inst with runState := .faulted, fault := t.inst.fault } ∧
      t.inst.fault.reason = some f ∧ t.inst.fault.ip = s.inst.ip

/-- R24: `IP` is changed only by a completed instruction other than HALT, to the `IP` it reports or past the OUT. -/
def Obligations.IpChangesOnlyOnCompletion : Prop :=
  ∀ (s t : State) (r : StepResult), s.pending = [] → step s = .next t → t.reply = .stepResult r →
    match r with
    | .continued ip => t.inst.ip = ip
    | .producedOutput _ => t.inst.ip = s.inst.ip + 2
    | _ => t.inst.ip = s.inst.ip

/-- R130: the transitions of `RUN_STATE` made by a step of a live instance. -/
def Obligations.RunStateTransitions : Prop :=
  ∀ (s t : State) (r : StepResult), s.pending = [] → s.inst.isLive → step s = .next t → t.reply = .stepResult r →
    match r with
    | .continued _ => t.inst.runState = .running
    | .producedOutput _ => t.inst.runState = .running
    | .outputBlocked => t.inst.runState = s.inst.runState
    | .needsInput => t.inst.runState = .awaitingInput
    | .halted => t.inst.runState = .haltedNormally ∧ t.inst.halted = true
    | .faulted f => t.inst.runState = .faulted ∧ f ≠ none ∧ t.inst.fault.reason = f
    | .killed => False

/-- R98, R277: for any instruction, the first parameter whose literal fetch or address check fails gives the fault, before the
operation and before any write. -/
def Obligations.FirstOperandFaultStops : Prop :=
  ∀ (i : Instr) (s : State) (k : Nat) (f : Fault) (a : Int), i.wf = true → legalAddr s.cfg s.inst.ip →
    1 ≤ k → (∀ j, 1 ≤ j → j < k → operandOk s.cfg s.inst i j) → operandFault s.cfg s.inst i k f a →
    exec i s = .next (s.faultedWith f (some a))

/-- R99: an Immediate literal `v` and a Position operand at an address that holds `v` give one and the same value. -/
def Obligations.ImmediateAndPositionAgree : Prop :=
  ∀ (c : Config) (x y : Vm) (k : Nat) (v : Int), legalAddr c (x.ip + k) → x.lit k = v →
    legalAddr c (y.ip + k) → legalAddr c (y.lit k) → y.wordAt (y.lit k) = v →
    resolveIn c x k .immediate = .ok v ∧ resolveIn c y k .position = .ok v

/-! ## The instructions -/

/-- R150, R151, R152, R128: ADD writes the exact sum and MUL the exact product, or `ArithmeticOverflow` where it is no word, or
`CapacityExceeded`. -/
def Obligations.AddAndMulAreExactOrFault : Prop :=
  ∀ (m1 m2 m3 : Mode) (s : State) (a1 a2 d : Int), legalAddr s.cfg s.inst.ip →
    inputValue s.cfg s.inst 1 m1 a1 → inputValue s.cfg s.inst 2 m2 a2 → destAddr s.cfg s.inst 3 m3 d →
    ∀ (i : Instr) (v : Int), (i = .add m1 m2 m3 ∧ v = a1 + a2) ∨ (i = .mul m1 m2 m3 ∧ v = a1 * a2) →
      (s.cfg.fits v = true → writeRoom s.cfg s.inst d → exec i s = .next (s.stored 4 d v)) ∧
      (s.cfg.fits v = false → exec i s = .next (s.faultedWith .arithmeticOverflow none)) ∧
      (s.cfg.fits v = true → ¬ writeRoom s.cfg s.inst d →
        exec i s = .next (s.faultedWith .capacityExceeded (some d)))

/-- R180, R181, R128: LT and EQ write 1 or 0 for the signed comparison, or raise `CapacityExceeded`; they never overflow. -/
def Obligations.ComparisonsWriteOneOrZero : Prop :=
  ∀ (m1 m2 m3 : Mode) (s : State) (a1 a2 d : Int), legalAddr s.cfg s.inst.ip →
    inputValue s.cfg s.inst 1 m1 a1 → inputValue s.cfg s.inst 2 m2 a2 → destAddr s.cfg s.inst 3 m3 d →
    (writeRoom s.cfg s.inst d →
      exec (.lt m1 m2 m3) s = .next (s.stored 4 d (if a1 < a2 then 1 else 0)) ∧
      exec (.eq m1 m2 m3) s = .next (s.stored 4 d (if a1 = a2 then 1 else 0))) ∧
    (¬ writeRoom s.cfg s.inst d →
      exec (.lt m1 m2 m3) s = .next (s.faultedWith .capacityExceeded (some d)) ∧
      exec (.eq m1 m2 m3) s = .next (s.faultedWith .capacityExceeded (some d)))

/-- R160, R161: IN with a word in `InQ` pops the front word and writes it; a `CapacityExceeded` pops nothing. -/
def Obligations.InStoresTheFrontWord : Prop :=
  ∀ (m1 : Mode) (s : State) (d v : Int) (rest : List Int), legalAddr s.cfg s.inst.ip →
    destAddr s.cfg s.inst 1 m1 d → s.inst.inQ = v :: rest →
    (writeRoom s.cfg s.inst d →
      exec (.inp m1) s = .next { s with
        inst := { s.inst with
          mem := s.inst.mem.write d.toNat v, fp := footprintAdd s.inst.fp d.toNat
          inQ := rest, ip := s.inst.ip + 2, runState := .running }
        reply := .stepResult (.continued (s.inst.ip + 2)) }) ∧
    (¬ writeRoom s.cfg s.inst d → exec (.inp m1) s = .next (s.faultedWith .capacityExceeded (some d)))

/-- R160, R274: IN with `InQ` empty suspends under `Suspend`, changing `RUN_STATE` alone, and raises `InputExhausted` under
`Fault`; a destination that resolves comes first, the capacity does not matter (R277). -/
def Obligations.InWithoutInputWaitsOrFaults : Prop :=
  ∀ (m1 : Mode) (s : State) (d : Int), legalAddr s.cfg s.inst.ip → destAddr s.cfg s.inst 1 m1 d → s.inst.inQ = [] →
    (s.inst.inputPolicy = .suspend →
      exec (.inp m1) s = .next { s with
        inst := { s.inst with runState := .awaitingInput }, reply := .stepResult .needsInput }) ∧
    (s.inst.inputPolicy = .fault → exec (.inp m1) s = .next (s.faultedWith .inputExhausted none))

/-- R162, R163: OUT appends its operand to `OutQ`, or holds and changes nothing when `OutQ` has `OUT_DEPTH` words. -/
def Obligations.OutAppendsOrHolds : Prop :=
  ∀ (m1 : Mode) (s : State) (a1 : Int), inputValue s.cfg s.inst 1 m1 a1 →
    (s.cfg.outDepth ≠ some s.inst.outQ.length →
      exec (.out m1) s = .next { s with
        inst := { s.inst with outQ := s.inst.outQ ++ [a1], ip := s.inst.ip + 2, runState := .running }
        reply := .stepResult (.producedOutput a1) }) ∧
    (s.cfg.outDepth = some s.inst.outQ.length →
      exec (.out m1) s = .next { s with reply := .stepResult .outputBlocked })

/-- R170, R171, R172: JT and JF load the target as it is, checked by nothing, or go on to `IP + 3`. -/
def Obligations.ConditionalJumps : Prop :=
  ∀ (m1 m2 : Mode) (s : State) (a1 a2 : Int),
    inputValue s.cfg s.inst 1 m1 a1 → inputValue s.cfg s.inst 2 m2 a2 →
    exec (.jt m1 m2) s = .next (s.movedTo (if a1 ≠ 0 then a2 else s.inst.ip + 3)) ∧
    exec (.jf m1 m2) s = .next (s.movedTo (if a1 = 0 then a2 else s.inst.ip + 3))

/-- R190: ARB adds its operand, resolved with the old base, to `RB`, or raises `ArithmeticOverflow`. -/
def Obligations.ArbAddsToTheBase : Prop :=
  ∀ (m1 : Mode) (s : State) (a1 : Int), legalAddr s.cfg s.inst.ip → inputValue s.cfg s.inst 1 m1 a1 →
    (s.cfg.fits (s.inst.rb + a1) = true →
      exec (.arb m1) s = .next { s with
        inst := { s.inst with rb := s.inst.rb + a1, ip := s.inst.ip + 2, runState := .running }
        reply := .stepResult (.continued (s.inst.ip + 2)) }) ∧
    (s.cfg.fits (s.inst.rb + a1) = false → exec (.arb m1) s = .next (s.faultedWith .arithmeticOverflow none))

/-- R191: HALT sets `HALTED` and `RUN_STATE`, and leaves `IP` at the HALT. -/
def Obligations.HaltStopsAtItsAddress : Prop :=
  ∀ s : State, exec .halt s = .next { s with
    inst := { s.inst with halted := true, runState := .haltedNormally }, reply := .stepResult .halted }

/-- Frame of ADD, MUL, LT and EQ (R62, R127): of the instance, only the word at the destination, its footprint entry, `IP`,
`RUN_STATE` and the fault record can change, and of the system only what is handed to the host. The destination is what the meaning
itself resolves. -/
def Obligations.StoringInstructionsFrame : Prop :=
  ∀ (m1 m2 m3 : Mode) (i : Instr) (s t : State),
    i ∈ [Instr.add m1 m2 m3, Instr.mul m1 m2 m3, Instr.lt m1 m2 m3, Instr.eq m1 m2 m3] → exec i s = .next t →
    (t.inst.rb = s.inst.rb ∧ t.inst.halted = s.inst.halted ∧ t.inst.inputPolicy = s.inst.inputPolicy ∧
      t.inst.inQ = s.inst.inQ ∧ t.inst.outQ = s.inst.outQ) ∧
    (t.inst.runState ≠ .faulted → t.inst.fault = s.inst.fault) ∧
    (t.lower = s.lower ∧ t.upper = s.upper ∧ t.mux = s.mux ∧ t.cfg = s.cfg ∧ t.runs = s.runs ∧
      t.pending = s.pending) ∧
    (∀ d, resolveOut s.cfg s.inst 3 m3 = .ok d → ∀ a : Nat, a ≠ d.toNat →
      t.inst.mem.read a = s.inst.mem.read a ∧ (a ∈ t.inst.fp ↔ a ∈ s.inst.fp)) ∧
    ((¬ ∃ d, resolveOut s.cfg s.inst 3 m3 = .ok d) → t.inst.mem = s.inst.mem ∧ t.inst.fp = s.inst.fp)

/-- Frame of IN (R160): as for ADD, with `InQ` written, and nothing stored where nothing is consumed. -/
def Obligations.InputFrame : Prop :=
  ∀ (m1 : Mode) (s t : State), exec (.inp m1) s = .next t →
    (t.inst.rb = s.inst.rb ∧ t.inst.halted = s.inst.halted ∧ t.inst.inputPolicy = s.inst.inputPolicy ∧
      t.inst.outQ = s.inst.outQ) ∧
    (t.inst.runState ≠ .faulted → t.inst.fault = s.inst.fault) ∧
    (t.lower = s.lower ∧ t.upper = s.upper ∧ t.mux = s.mux ∧ t.cfg = s.cfg ∧ t.runs = s.runs ∧
      t.pending = s.pending) ∧
    (∀ d, resolveOut s.cfg s.inst 1 m1 = .ok d → ∀ a : Nat, a ≠ d.toNat →
      t.inst.mem.read a = s.inst.mem.read a ∧ (a ∈ t.inst.fp ↔ a ∈ s.inst.fp)) ∧
    (t.inst.inQ = s.inst.inQ → t.inst.mem = s.inst.mem ∧ t.inst.fp = s.inst.fp ∧ t.inst.ip = s.inst.ip)

/-- Frame of OUT, JT, JF, ARB and HALT (R62): they store nothing, so every address reads as before and the footprint is the
same; `InQ` and `INPUT_POLICY` are the same; `OutQ` only by OUT, `RB` only by ARB, `HALTED` only by HALT. -/
def Obligations.NonStoringInstructionsFrame : Prop :=
  ∀ (m1 m2 : Mode) (i : Instr) (s t : State),
    i ∈ [Instr.out m1, Instr.jt m1 m2, Instr.jf m1 m2, Instr.arb m1, Instr.halt] → exec i s = .next t →
    (t.inst.mem = s.inst.mem ∧ t.inst.fp = s.inst.fp ∧ t.inst.inQ = s.inst.inQ ∧
      t.inst.inputPolicy = s.inst.inputPolicy) ∧
    (i ≠ .out m1 → t.inst.outQ = s.inst.outQ) ∧ (i ≠ .arb m1 → t.inst.rb = s.inst.rb) ∧
    (i ≠ .halt → t.inst.halted = s.inst.halted) ∧
    (t.inst.runState ≠ .faulted → t.inst.fault = s.inst.fault) ∧
    (t.lower = s.lower ∧ t.upper = s.upper ∧ t.mux = s.mux ∧ t.cfg = s.cfg ∧ t.runs = s.runs ∧
      t.pending = s.pending)

/-! ## Memory -/

/-- R53, R54, R67: after a write that succeeds, reading its address gives the word written, every other legal address reads as
before, and the footprint has that address and those it had. -/
def Obligations.ReadsSeeTheLastWrite : Prop :=
  ∀ (c : Config) (x y : Vm) (a v : Int), x.mem.wf → memWrite c x a v = .ok y →
    memRead c y a = .ok v ∧ (∀ b, b ≠ a → memRead c y b = memRead c x b) ∧
      (∀ b : Nat, b ∈ y.fp ↔ b = a.toNat ∨ b ∈ x.fp)

/-- The canonical form of the memory (log 1; the model's choice): a write keeps it, and two memories in it that read
alike everywhere are the same data. -/
def Obligations.MemoryFormIsCanonical : Prop :=
  (∀ (m : Memory) (a : Nat) (v : Int), m.wf → (m.write a v).wf) ∧
  ∀ m n : Memory, m.wf → n.wf → (∀ a, m.read a = n.read a) → m = n

/-! ## The whole machine -/

/-- R34, R311: power-on meets the invariant, for every parameter value R6 admits and any number of instances. -/
def Obligations.PowerOnMeetsTheInvariant : Prop :=
  ∀ (c : Config) (m : MuxConfig) (n : Nat), c.wf = true → m.wf c = true → (State.powerOn c m n).Inv

/-- The machine after reset meets the invariant. -/
def Obligations.ResetMeetsTheInvariant : Prop := State.reset.Inv

/-- R35: a step of the instance at the focus keeps the invariant of every instance. -/
def Obligations.InstanceStepKeepsTheInvariant : Prop :=
  ∀ s t : State, s.pending = [] → s.cfg.wf = true → s.inst.Inv s.cfg → step s = .next t → t.inst.Inv t.cfg

/-- R35: every step of the whole system, whatever the event, keeps the invariant of the system. -/
def Obligations.EveryEventKeepsTheInvariant : Prop :=
  ∀ s t : State, s.Inv → step s = .next t → t.Inv

/-- R36, R249: a step of the instance at the focus, a fault of it included, touches no other instance and not the mux. -/
def Obligations.StepTouchesNoOtherInstance : Prop :=
  ∀ s t : State, s.pending = [] → step s = .next t →
    t.lower = s.lower ∧ t.upper = s.upper ∧ t.mux = s.mux ∧ t.cfg = s.cfg ∧ t.pending = []

/-- R230: ROUTE, SUPPLY, the idle action and completion touch nothing of an instance but its FIFOs. -/
def Obligations.MuxTouchesOnlyTheQueues : Prop :=
  ∀ (s t : State) (e : Event) (rest : List Event) (j : Nat) (x : Vm), s.pending = e :: rest →
    ((∃ i, e = .route i ∨ e = .supply i) ∨ e = .idleAction ∨ e = .complete) →
    step s = .next t → s.vm? j = some x → ∃ y, t.vm? j = some y ∧ sameButQueues x y

/-- R26, R279: nothing but LOAD leaves a terminal run state. -/
def Obligations.OnlyLoadLeavesATerminalState : Prop :=
  ∀ (s t : State) (j : Nat) (x : Vm), s.vm? j = some x → x.runState.terminal → step s = .next t →
    (∀ program rest, s.pending ≠ .load j program :: rest) →
    ∃ y, t.vm? j = some y ∧ y.runState = x.runState

/-- R29, R52, R282: only SET_INPUT_POLICY and LOAD write `INPUT_POLICY`, and between LOADs the footprint only grows. -/
def Obligations.PolicyIsTheHostsAndFootprintGrows : Prop :=
  ∀ (s t : State) (j : Nat) (x : Vm), s.vm? j = some x → step s = .next t →
    (∀ program rest, s.pending ≠ .load j program :: rest) →
    ∃ y, t.vm? j = some y ∧ (∀ a, a ∈ x.fp → a ∈ y.fp) ∧
      ((∀ p rest, s.pending ≠ .setInputPolicy j p :: rest) → y.inputPolicy = x.inputPolicy)

/-- R131: what an instruction does depends on the instance alone, and on `OutQ` only through its fill level. -/
def Obligations.ResultDependsOnTheInstanceAlone : Prop :=
  ∀ (i : Instr) (s u : State) (q : List Int), u.cfg = s.cfg → q.length = s.inst.outQ.length →
    u.inst = { s.inst with outQ := q } →
    ∃ (t v : State) (more : List Int), exec i s = .next t ∧ exec i u = .next v ∧ v.reply = t.reply ∧
      t.inst.outQ = s.inst.outQ ++ more ∧ v.inst = { t.inst with outQ := q ++ more }

/-- R7: with every parameter unbounded, `ArithmeticOverflow`, `AddressOutOfRange` and `CapacityExceeded` are never raised and
OUT never holds. -/
def Obligations.UnboundedMachineNeverRunsOutOfRoom : Prop :=
  ∀ s t : State, s.cfg = Config.unbounded → s.pending = [] → s.inst.isLive → step s = .next t →
    t.reply ≠ .stepResult (.faulted (some .arithmeticOverflow)) ∧
    t.reply ≠ .stepResult (.faulted (some .addressOutOfRange)) ∧
    t.reply ≠ .stepResult (.faulted (some .capacityExceeded)) ∧
    t.reply ≠ .stepResult .outputBlocked

/-- R7: a machine with finite parameters does what the unbounded one does, but where it raises one of the three faults of
finite hardware or holds an OUT. -/
def Obligations.FiniteMachineAgreesWithUnbounded : Prop :=
  ∀ s t : State, s.pending = [] → step s = .next t →
    t.reply ≠ .stepResult (.faulted (some .arithmeticOverflow)) →
    t.reply ≠ .stepResult (.faulted (some .addressOutOfRange)) →
    t.reply ≠ .stepResult (.faulted (some .capacityExceeded)) →
    t.reply ≠ .stepResult .outputBlocked →
    step { s with cfg := Config.unbounded } = .next { t with cfg := Config.unbounded }

/-- R134, R135: an IN that suspends, is given its word and is stepped again leaves the machine as if the word had been
there before it. -/
def Obligations.SuspendAndResumeIsInvisible : Prop :=
  ∀ (s : State) (m1 : Mode) (v d : Int), s.inst.isLive → legalAddr s.cfg s.inst.ip →
    decode (s.inst.wordAt s.inst.ip) = .ok (.inp m1) → destAddr s.cfg s.inst 1 m1 d → writeRoom s.cfg s.inst d →
    s.inst.inQ = [] → s.inst.inputPolicy = .suspend → s.cfg.fits v = true → inputRoom s.cfg s.inst 1 → s.runs = [] →
    ∃ t, Host.Core.run Sys2Proof.core 3 { s with
          pending := [.hostStep s.current, .provideInput s.current v, .hostStep s.current] } = .next t ∧
      Host.Core.run Sys2Proof.core 2 { s with
          pending := [.provideInput s.current v, .hostStep s.current] } = .next t ∧
      t.inst.mem = s.inst.mem.write d.toNat v ∧ t.inst.ip = s.inst.ip + 2 ∧ t.inst.inQ = [] ∧
      t.reply = .stepResult (.continued (s.inst.ip + 2))

/-! ## The host's commands -/

/-- R26, R29, R30, R231, R270: the codes of the run states, the faults, the input policies and the mux states, and the places of
the fields of `STATUS`. -/
def Obligations.StatusCodesAndPlaces : Prop :=
  [RunState.running, .awaitingInput, .haltedNormally, .faulted, .killed].map RunState.code = [0, 1, 2, 3, 4] ∧
  [Fault.invalidOpcode, .invalidAddress, .invalidAddressingMode, .inputExhausted, .arithmeticOverflow,
    .addressOutOfRange, .capacityExceeded].map Fault.code = [1, 2, 3, 4, 5, 6, 7] ∧
  [InputPolicy.suspend, .fault].map InputPolicy.code = [0, 1] ∧
  [MuxStatus.active, .finished, .deadlocked, .routingFault].map MuxStatus.code = [0, 1, 2, 3] ∧
  ∀ x : Vm,
    x.status.toNat % 8 = x.runState.code ∧ x.status.toNat / 8 % 2 = x.halted.toNat ∧
    x.status.toNat / 16 % 16 = x.fault.reasonCode ∧ x.status.toNat / 256 % 2 = x.fault.wordValid.toNat ∧
    x.status.toNat / 512 % 2 = x.fault.addrValid.toNat ∧ x.status.toNat / 1024 % 2 = x.inputPolicy.code ∧
    x.status.toNat / 2048 = 0

/-- R34, R201, R202: LOAD(P), in every state of the instance, gives the reset values with the image in memory; it is refused, with
no change, if some `P[a]` is not a word, or P is longer than `ADDR_LIMIT` or `CAPACITY`. -/
def Obligations.LoadResetsOrRefuses : Prop :=
  ∀ (s : State) (j : Nat) (x : Vm) (program : List Int) (rest : List Event),
    s.pending = .load j program :: rest → s.vm? j = some x →
    ((∀ v ∈ program, s.cfg.fits v = true) → (∀ l, s.cfg.addrLimit = some l → program.length ≤ l) →
      (∀ k, s.cfg.capacity = some k → program.length ≤ k) →
      ∃ y, commandGives s j .ok y ∧ (∀ a : Nat, y.mem.read a = program.getD a 0) ∧
        y.fp = List.range program.length ∧ y.ip = 0 ∧ y.rb = 0 ∧ y.runState = .running ∧ y.halted = false ∧
        y.fault = FaultRecord.clear ∧ y.inputPolicy = .suspend ∧ y.inQ = [] ∧ y.outQ = []) ∧
    (((∃ v ∈ program, s.cfg.fits v = false) ∨ (∃ l, s.cfg.addrLimit = some l ∧ l < program.length) ∨
        (∃ k, s.cfg.capacity = some k ∧ k < program.length)) →
      ∃ why, commandGives s j (.refused why) x)

/-- R203, R204, R205: PROVIDE_INPUT_SEQUENCE pushes all its words or none; PROVIDE_INPUT is the case of one word. The model's
choice (log 16): a value that is no word is refused first, in Killed and with `InQ` full too, and in Killed a sequence longer than
the room is discarded with `Ok` like any other. -/
def Obligations.InputsAreQueuedOrRefused : Prop :=
  ∀ (s : State) (j : Nat) (x : Vm) (vs : List Int) (rest : List Event), s.vm? j = some x →
    (s.pending = .provideInputSequence j vs :: rest ∨ ∃ v, vs = [v] ∧ s.pending = .provideInput j v :: rest) →
    ((∃ v ∈ vs, s.cfg.fits v = false) → commandGives s j (.refused .notAWord) x) ∧
    ((∀ v ∈ vs, s.cfg.fits v = true) → x.runState = .killed → commandGives s j .ok x) ∧
    ((∀ v ∈ vs, s.cfg.fits v = true) → x.runState ≠ .killed → inputRoom s.cfg x vs.length →
      commandGives s j .ok { x with inQ := x.inQ ++ vs }) ∧
    ((∀ v ∈ vs, s.cfg.fits v = true) → x.runState ≠ .killed → ¬ inputRoom s.cfg x vs.length →
      commandGives s j (.refused .inputFull) x)

/-- R208, R164: READ_OUTPUT pops and returns the front word of `OutQ`, 0 like any other, or returns `None`. -/
def Obligations.ReadOutputPopsTheFront : Prop :=
  ∀ (s : State) (j : Nat) (x : Vm) (rest : List Event), s.pending = .readOutput j :: rest → s.vm? j = some x →
    (x.outQ = [] → commandGives s j (.output none) x) ∧
    (∀ v more, x.outQ = v :: more → commandGives s j (.output (some v)) { x with outQ := more })

/-- R209, R210, R211, R212: IS_HALTED, READ_STATUS and PEEK return what they name and change nothing, PEEK being refused at an
address that is not legal; SET_INPUT_POLICY writes the policy alone, and its `Ok` is the model's choice (log 20). -/
def Obligations.ReadingCommandsAndPolicy : Prop :=
  ∀ (s : State) (j : Nat) (x : Vm) (rest : List Event), s.vm? j = some x →
    (s.pending = .isHalted j :: rest →
      (x.runState = .haltedNormally → commandGives s j (.isHalted true) x) ∧
      (x.runState ≠ .haltedNormally → commandGives s j (.isHalted false) x)) ∧
    (s.pending = .readStatus j :: rest → commandGives s j (.status {
      status := x.status, ip := x.ip, rb := x.rb, faultIp := x.fault.ip, faultOpcode := x.fault.opcode,
      faultWord := x.fault.word, faultAddr := x.fault.addr, inLen := x.inQ.length, outLen := x.outQ.length }) x) ∧
    (∀ a, s.pending = .peek j a :: rest →
      (legalAddr s.cfg a → commandGives s j (.word (x.wordAt a)) x) ∧
      (¬ legalAddr s.cfg a → commandGives s j (.refused .badAddress) x)) ∧
    (∀ p, s.pending = .setInputPolicy j p :: rest → commandGives s j .ok { x with inputPolicy := p })

/-- R213: KILL makes a live instance `Killed` and leaves any other run state; it empties both FIFOs and nothing else. Its `Ok`
is the model's choice (log 20). -/
def Obligations.KillEndsALiveInstance : Prop :=
  ∀ (s : State) (j : Nat) (x : Vm) (rest : List Event), s.pending = .kill j :: rest → s.vm? j = some x →
    (x.isLive → commandGives s j .ok { x with runState := .killed, inQ := [], outQ := [] }) ∧
    (¬ x.isLive → commandGives s j .ok { x with inQ := [], outQ := [] })

/-- R206: STEP of instance `j` is what a step of it at the focus is, with the focus moved there. The focus is the model's choice
(log 5), and so is that the STEP counts as the next step of a RUN in progress on `j` (log 13). -/
def Obligations.HostStepStepsTheNamedInstance : Prop :=
  ∀ (s : State) (j : Nat) (x : Vm) (rest : List Event), s.pending = .hostStep j :: rest → s.vm? j = some x →
    ∃ u, step { s with lower := s.insts.take j, inst := x, upper := s.insts.drop (j + 1), pending := [] } = .next u ∧
      step s = .next { u with pending := rest }

/-- R132, R207: the first step of RUN is a step of its instance, and the command is in progress after it unless the result is one
that ends the loop. The focus and the list of RUN commands in progress are the model's choice (log 5), and so is that this RUN takes
the place of an earlier one of `j` (log 13). -/
def Obligations.RunStopsWhereTheLoopStops : Prop :=
  ∀ (s : State) (j : Nat) (x : Vm) (stop : Bool) (rest : List Event), s.pending = .run j stop :: rest →
    s.vm? j = some x →
    ∃ u r, step { s with
          lower := s.insts.take j, inst := x, upper := s.insts.drop (j + 1), pending := []
          runs := (j, stop) :: s.runs.filter (fun p => p.1 != j) } = .next u ∧
      step s = .next { u with pending := rest } ∧ u.reply = .stepResult r ∧
      ((r = .needsInput ∨ r = .outputBlocked ∨ r = .halted ∨ r = .killed ∨ (∃ f, r = .faulted f) ∨
          (stop = true ∧ ∃ v, r = .producedOutput v)) → u.runs.lookup j = none) ∧
      (((∃ ip, r = .continued ip) ∨ (stop = false ∧ ∃ v, r = .producedOutput v)) → u.runs.lookup j = some stop)

/-! ## The FIFO mux -/

/-- R236, R243, R244: ROUTE(i) in Chain mode. That `HostOut` always has room, so that the ROUTE to it has no condition on room, is
the model's inference (log 11). -/
def Obligations.ChainRouting : Prop :=
  ∀ (s : State) (i : Nat) (x : Vm) (v : Int) (more : List Int) (rest : List Event),
    s.pending = .route i :: rest → s.mux.status = .active → s.mux.cfg.mode = .chain →
    s.vm? i = some x → x.outQ = v :: more →
    (chainDest s i = none →
      muxGives s (s.insts.set i { x with outQ := more })
        { chainMux s i v with hostOut := s.mux.hostOut ++ [v] }) ∧
    (∀ j y, chainDest s i = some j → s.vm? j = some y →
      (y.runState = .killed → muxGives s (s.insts.set i { x with outQ := more }) (chainMux s i v)) ∧
      (y.runState ≠ .killed → inputRoom s.cfg y 1 →
        muxGives s ((s.insts.set i { x with outQ := more }).modify j (fun z => { z with inQ := z.inQ ++ [v] }))
          (chainMux s i v)) ∧
      (y.runState ≠ .killed → ¬ inputRoom s.cfg y 1 → onlyAnswers s .notEnabled))

/-- R239, R244: ROUTE(i) in Packet mode with fewer than two words in `ASM[i]` adds the front output word to them. -/
def Obligations.PacketAssembly : Prop :=
  ∀ (s : State) (i : Nat) (x : Vm) (v : Int) (more ws : List Int) (rest : List Event),
    s.pending = .route i :: rest → s.mux.status = .active → s.mux.cfg.mode = .packet →
    s.vm? i = some x → x.outQ = v :: more → s.mux.asm[i]? = some ws → ws.length < 2 →
    muxGives s (s.insts.set i { x with outQ := more }) (packetMux s.mux i (ws ++ [v]))

/-- R240, R241, R243, R244: the third word dispatches the message: to the broadcast buffer and `MON`, to an instance's `InQ`,
or into `RoutingFault`. -/
def Obligations.PacketDispatch : Prop :=
  ∀ (s : State) (i : Nat) (x : Vm) (dest a v : Int) (more : List Int) (rest : List Event),
    s.pending = .route i :: rest → s.mux.status = .active → s.mux.cfg.mode = .packet →
    s.vm? i = some x → x.outQ = v :: more → s.mux.asm[i]? = some [dest, a] →
    (dest = s.mux.cfg.bcastAddr →
      muxGives s (s.insts.set i { x with outQ := more })
        { packetMux s.mux i [] with
          lastBcast := (a, v), lastBcastValid := true, mon := s.mux.mon ++ [⟨.broadcast, a, v⟩] }) ∧
    (∀ (j : Nat) (y : Vm), dest ≠ s.mux.cfg.bcastAddr → dest = (j : Int) → s.vm? j = some y →
      (y.runState = .killed → muxGives s (s.insts.set i { x with outQ := more }) (packetMux s.mux i [])) ∧
      (y.runState ≠ .killed → inputRoom s.cfg y 2 →
        muxGives s ((s.insts.set i { x with outQ := more }).modify j (fun z => { z with inQ := z.inQ ++ [a, v] }))
          (packetMux s.mux i [])) ∧
      (y.runState ≠ .killed → ¬ inputRoom s.cfg y 2 → onlyAnswers s .notEnabled)) ∧
    (dest ≠ s.mux.cfg.bcastAddr → (dest < 0 ∨ (s.count : Int) ≤ dest) →
      muxGives s (s.insts.set i { x with outQ := more })
        { packetMux s.mux i [] with status := .routingFault, routeFaultSrc := i, routeFaultDest := dest })

/-- R234, R241, R248: while `MUX_STATUS` is not `Active` the mux takes no step. -/
def Obligations.InactiveMuxTakesNoStep : Prop :=
  ∀ (s : State) (e : Event) (rest : List Event), s.pending = e :: rest → s.mux.status ≠ .active →
    ((∃ i, e = .route i ∨ e = .supply i ∨ e = .muxStep i) ∨ e = .idleAction ∨ e = .complete ∨ e = .roundRobin) →
    onlyAnswers s .notEnabled

/-- R242, R244: SUPPLY(i) is not enabled under `Suspend`, and in Packet mode under `Supply(v)` it gives a waiting instance `v` and
counts it; that a finite `InQ` must have room is the model's choice (log 10). -/
def Obligations.SupplyFeedsAWaitingInstance : Prop :=
  ∀ (s : State) (i : Nat) (rest : List Event), s.pending = .supply i :: rest →
    (s.mux.cfg.emptyInput = .suspend → onlyAnswers s .notEnabled) ∧
    ∀ (x : Vm) (v : Int), s.mux.status = .active → s.mux.cfg.mode = .packet → s.mux.cfg.emptyInput = .supply v →
      s.vm? i = some x →
      (x.runState = .awaitingInput → x.inQ = [] → inputRoom s.cfg x 1 →
        muxGives s (s.insts.set i { x with inQ := [v] })
          { s.mux with emptyCount := s.mux.emptyCount.modify i (fun n => n + 1) }) ∧
      (x.runState ≠ .awaitingInput ∨ x.inQ ≠ [] ∨ ¬ inputRoom s.cfg x 1 → onlyAnswers s .notEnabled)

/-- R238, R245, R247, R248: the idle action is enabled exactly when the system is idle; it re-injects the last broadcast packet in
Packet mode where there is one and its target is live, and else ends in `Deadlocked`. The model's choice: a finite `InQ` must have
room for the packet (log 10), Chain mode is tested as under `Suspend` whatever `EMPTY_INPUT_POLICY` is (log 12), and a `NAT_TARGET`
that names no instance is not live (log 19). -/
def Obligations.IdleAction : Prop :=
  ∀ (s : State) (rest : List Event), s.pending = .idleAction :: rest → s.mux.status = .active →
    s.mux.emptyCount.length = s.count →
    (¬ systemIdle s → onlyAnswers s .notEnabled) ∧
    (systemIdle s → s.mux.cfg.mode = .chain → muxGives s s.insts { s.mux with status := .deadlocked }) ∧
    (systemIdle s → s.mux.cfg.mode = .packet →
      (s.mux.lastBcastValid = false ∨ ¬ ∃ x, s.vm? s.mux.cfg.natTarget = some x ∧ x.isLive) →
      muxGives s s.insts { s.mux with status := .deadlocked }) ∧
    (∀ x, systemIdle s → s.mux.cfg.mode = .packet → s.mux.lastBcastValid = true →
      s.vm? s.mux.cfg.natTarget = some x → x.isLive →
      (inputRoom s.cfg x 2 → muxGives s
        (s.insts.set s.mux.cfg.natTarget { x with inQ := [s.mux.lastBcast.1, s.mux.lastBcast.2] })
        { s.mux with
          mon := s.mux.mon ++ [⟨.reinject, s.mux.lastBcast.1, s.mux.lastBcast.2⟩]
          emptyCount := s.mux.emptyCount.map (fun _ => 0) }) ∧
      (¬ inputRoom s.cfg x 2 → onlyAnswers s .notEnabled))

/-- R238, R246: with no instance live and nothing left to route, the mux is `Finished`; with one live it is not. -/
def Obligations.FinishedWhenNoInstanceIsLive : Prop :=
  ∀ (s : State) (rest : List Event), s.pending = .complete :: rest → s.mux.status = .active →
    ((∀ x ∈ s.insts, ¬ x.isLive ∧ x.outQ = []) → muxGives s s.insts { s.mux with status := .finished }) ∧
    ((∃ x ∈ s.insts, x.isLive) → onlyAnswers s .notEnabled)

/-- R233, R234: the mux steps a ready instance as the host would, and no other. -/
def Obligations.MuxStepsReadyInstances : Prop :=
  ∀ (s : State) (j : Nat) (x : Vm) (rest : List Event), s.pending = .muxStep j :: rest → s.mux.status = .active →
    s.vm? j = some x →
    (x.isReady → step s = step { s with pending := .hostStep j :: rest }) ∧
    (¬ x.isReady → onlyAnswers s .notEnabled)

/-- R234, R235: each action of the round-robin schedule is a ROUTE or a step of the mux. One action per event, and the turn that the
instance at the focus keeps while it is ready with no output waiting, are the model's choice (log 14). -/
def Obligations.RoundRobinIsAnAdmittedSchedule : Prop :=
  ∀ (s : State) (rest : List Event), s.pending = .roundRobin :: rest →
    (onlyAnswers s .notEnabled ∨ ∃ j, j < s.count ∧
      (step s = step { s with pending := .muxStep j :: rest } ∨
        step s = step { s with pending := .route j :: rest })) ∧
    (s.mux.status = .active → s.inst.isReady → s.inst.outQ = [] →
      step s = step { s with pending := .muxStep s.current :: rest })

/-- R232, R243: MUX_RESET clears the mux's registers, buffers and FIFOs, and leaves its configuration and the instances; KILL through
the mux is the instance's KILL, and empties its assembly buffer. Their `Ok` is the model's choice (log 20). -/
def Obligations.MuxResetAndKill : Prop :=
  ∀ (s : State) (rest : List Event),
    (s.pending = .muxReset :: rest →
      step s = .next { s with
        pending := rest, reply := .ok
        mux := { s.mux with
          status := .active, routeFaultSrc := 0, routeFaultDest := 0, hostOut := [], lastSignal := 0
          lastSignalValid := false, asm := s.mux.asm.map (fun _ => []), emptyCount := s.mux.emptyCount.map (fun _ => 0)
          lastBcast := (0, 0), lastBcastValid := false, mon := [] } }) ∧
    ∀ (j : Nat) (x : Vm), s.pending = .muxKill j :: rest → s.vm? j = some x →
      ∃ t y, step s = .next t ∧ t.reply = .ok ∧ t.insts = s.insts.set j y ∧
        t.mux = { s.mux with asm := s.mux.asm.set j [] } ∧
        y = { x with runState := y.runState, inQ := [], outQ := [] } ∧
        (x.isLive → y.runState = .killed) ∧ (¬ x.isLive → y.runState = x.runState)

/-- R250: the host pops the front of `HostOut` and of `MON`, and reads the mux's registers. That popping an empty one returns none and
changes nothing is the model's choice (log 21). -/
def Obligations.HostReadsTheMux : Prop :=
  ∀ (s : State) (rest : List Event),
    (s.pending = .popHostOut :: rest →
      (s.mux.hostOut = [] → onlyAnswers s (.output none)) ∧
      (∀ v more, s.mux.hostOut = v :: more →
        step s = .next { s with
          pending := rest, reply := .output (some v), mux := { s.mux with hostOut := more } })) ∧
    (s.pending = .popMon :: rest →
      (s.mux.mon = [] → onlyAnswers s (.monRecord none)) ∧
      (∀ r more, s.mux.mon = r :: more →
        step s = .next { s with pending := rest, reply := .monRecord (some r), mux := { s.mux with mon := more } })) ∧
    (s.pending = .readMux :: rest →
      onlyAnswers s (.muxStatus {
        status := s.mux.status, routeFaultSrc := s.mux.routeFaultSrc, routeFaultDest := s.mux.routeFaultDest
        lastSignal := s.mux.lastSignal, lastSignalValid := s.mux.lastSignalValid
        lastBcast := s.mux.lastBcast, lastBcastValid := s.mux.lastBcastValid }))
end

