-- ==== Sys2Proof/Laws/Decode.lean ====
section
/-! SUPPORT. The decoder by parts: the supported opcodes, one mode digit, and the one-, two- and three-parameter words. -/

namespace Sys2Proof

theorem length_eq_modes (i : Instr) : i.length = i.modes.length + 1 := by cases i <;> rfl

/-- The ten supported opcodes and their parameter kinds (R82). -/
theorem paramKinds_cases {op : Nat} {kinds : List ParamKind} (h : paramKinds op = some kinds) :
    (op = 1 ∧ kinds = [.input, .input, .output]) ∨ (op = 2 ∧ kinds = [.input, .input, .output]) ∨
      (op = 3 ∧ kinds = [.output]) ∨ (op = 4 ∧ kinds = [.input]) ∨ (op = 5 ∧ kinds = [.input, .input]) ∨
      (op = 6 ∧ kinds = [.input, .input]) ∨ (op = 7 ∧ kinds = [.input, .input, .output]) ∨
      (op = 8 ∧ kinds = [.input, .input, .output]) ∨ (op = 9 ∧ kinds = [.input]) ∨ (op = 99 ∧ kinds = []) := by
  unfold paramKinds at h
  split at h <;> simp_all

/-- A mode that decodes is the one of the digit, and names an address where an address is needed. -/
theorem decodeMode_eq_ok {kind : ParamKind} {w k : Nat} {m : Mode} (h : decodeMode kind w k = .ok m) :
    dig w (k + 1) = m.digit ∧ (kind = .output → m.namesAddress = true) := by
  unfold decodeMode at h
  split at h <;> first | (cases h; simp_all [Mode.digit, Mode.namesAddress]) | cases h

theorem decodeMode_bad {kind : ParamKind} {w k : Nat} (h : Machine.badDigit kind (dig w (k + 1))) :
    decodeMode kind w k = .error (.invalidAddressingMode (dig w (k + 1))) := by
  unfold decodeMode
  rcases h with h | ⟨rfl, h⟩
  · split <;> simp_all
  · simp [h]

theorem decodeMode_good {kind : ParamKind} {w k : Nat} (h : ¬ Machine.badDigit kind (dig w (k + 1))) :
    ∃ m : Mode, decodeMode kind w k = .ok m ∧ m.digit = dig w (k + 1) := by
  simp only [Machine.badDigit, not_or, not_and] at h
  obtain ⟨h1, h2⟩ := h
  have : dig w (k + 1) = 0 ∨ dig w (k + 1) = 1 ∨ dig w (k + 1) = 2 := by omega
  rcases this with h | h | h
  · exact ⟨.position, by simp [decodeMode, h], h.symm⟩
  · cases kind with
    | input => exact ⟨.immediate, by simp [decodeMode, h], h.symm⟩
    | output => exact absurd h (h2 rfl)
  · exact ⟨.relative, by simp [decodeMode, h], h.symm⟩

/-- Digits alone decide: two words with one opcode and the same consumed digits decode alike. -/
theorem decode_congr {w w' : Nat} {kinds : List ParamKind} (hk : paramKinds (w % 100) = some kinds)
    (hop : w' % 100 = w % 100) (hd : ∀ k, k < kinds.length → dig w' (k + 2) = dig w (k + 2)) :
    decode (w' : Int) = decode (w : Int) := by
  have hm : ∀ kind k, k < kinds.length → decodeMode kind w' (k + 1) = decodeMode kind w (k + 1) := by
    intro kind k h
    simp only [decodeMode, hd k h]
  have n1 : ¬ ((w : Int) < 0) := by omega
  have n2 : ¬ ((w' : Int) < 0) := by omega
  simp only [decode, if_neg n1, if_neg n2, Int.toNat_natCast, hop]
  rcases paramKinds_cases hk with ⟨h, rfl⟩ | ⟨h, rfl⟩ | ⟨h, rfl⟩ | ⟨h, rfl⟩ | ⟨h, rfl⟩ | ⟨h, rfl⟩ | ⟨h, rfl⟩ |
    ⟨h, rfl⟩ | ⟨h, rfl⟩ | ⟨h, rfl⟩ <;> simp only [h, decode3, decode2, decode1]
  all_goals (try rw [hm _ 0 (by decide)])
  all_goals (try rw [hm _ 1 (by decide)])
  all_goals (try rw [hm _ 2 (by decide)])

theorem decode_bind_eq_ok {α β : Type} {x : Except DecodeError α} {f : α → Except DecodeError β} {b : β}
    (h : (x >>= f) = .ok b) : ∃ a, x = .ok a ∧ f a = .ok b := by
  cases x with
  | ok a => exact ⟨a, rfl, h⟩
  | error e => cases h

theorem decode1_eq_ok {mk : Mode → Instr} {kind : ParamKind} {w : Nat} {i : Instr} (h : decode1 mk kind w = .ok i) :
    ∃ m1, i = mk m1 ∧ dig w 2 = m1.digit ∧ (kind = .output → m1.namesAddress = true) := by
  obtain ⟨m1, h1, h⟩ := decode_bind_eq_ok h
  cases h
  exact ⟨m1, rfl, decodeMode_eq_ok h1⟩

theorem decode2_eq_ok {mk : Mode → Mode → Instr} {w : Nat} {i : Instr} (h : decode2 mk w = .ok i) :
    ∃ m1 m2, i = mk m1 m2 ∧ dig w 2 = m1.digit ∧ dig w 3 = m2.digit := by
  obtain ⟨m1, h1, h⟩ := decode_bind_eq_ok h
  obtain ⟨m2, h2, h⟩ := decode_bind_eq_ok h
  cases h
  exact ⟨m1, m2, rfl, (decodeMode_eq_ok h1).1, (decodeMode_eq_ok h2).1⟩

theorem decode3_eq_ok {mk : Mode → Mode → Mode → Instr} {w : Nat} {i : Instr} (h : decode3 mk w = .ok i) :
    ∃ m1 m2 m3, i = mk m1 m2 m3 ∧ dig w 2 = m1.digit ∧ dig w 3 = m2.digit ∧ dig w 4 = m3.digit ∧
      m3.namesAddress = true := by
  obtain ⟨m1, h1, h⟩ := decode_bind_eq_ok h
  obtain ⟨m2, h2, h⟩ := decode_bind_eq_ok h
  obtain ⟨m3, h3, h⟩ := decode_bind_eq_ok h
  cases h
  exact ⟨m1, m2, m3, rfl, (decodeMode_eq_ok h1).1, (decodeMode_eq_ok h2).1, (decodeMode_eq_ok h3).1,
    (decodeMode_eq_ok h3).2 rfl⟩

end Sys2Proof
end

