-- ==== Sys2Proof/Laws/State.lean ====
section
/-! SUPPORT. One lemma per field and update, true by definition, so that no proof unfolds a record update. -/

namespace Sys2Proof.Machine

/-! ## `Vm.store` -/

@[simp] theorem store_mem (x : Vm) (a : Nat) (v : Int) : (x.store a v).mem = x.mem.write a v := rfl
@[simp] theorem store_fp (x : Vm) (a : Nat) (v : Int) : (x.store a v).fp = footprintAdd x.fp a := rfl
@[simp] theorem store_ip (x : Vm) (a : Nat) (v : Int) : (x.store a v).ip = x.ip := rfl
@[simp] theorem store_rb (x : Vm) (a : Nat) (v : Int) : (x.store a v).rb = x.rb := rfl
@[simp] theorem store_runState (x : Vm) (a : Nat) (v : Int) : (x.store a v).runState = x.runState := rfl
@[simp] theorem store_halted (x : Vm) (a : Nat) (v : Int) : (x.store a v).halted = x.halted := rfl
@[simp] theorem store_fault (x : Vm) (a : Nat) (v : Int) : (x.store a v).fault = x.fault := rfl
@[simp] theorem store_inputPolicy (x : Vm) (a : Nat) (v : Int) : (x.store a v).inputPolicy = x.inputPolicy := rfl
@[simp] theorem store_inQ (x : Vm) (a : Nat) (v : Int) : (x.store a v).inQ = x.inQ := rfl
@[simp] theorem store_outQ (x : Vm) (a : Nat) (v : Int) : (x.store a v).outQ = x.outQ := rfl

/-! ## `Vm.advance` -/

@[simp] theorem advance_mem (x : Vm) (n : Int) : (x.advance n).mem = x.mem := rfl
@[simp] theorem advance_fp (x : Vm) (n : Int) : (x.advance n).fp = x.fp := rfl
@[simp] theorem advance_ip (x : Vm) (n : Int) : (x.advance n).ip = n := rfl
@[simp] theorem advance_rb (x : Vm) (n : Int) : (x.advance n).rb = x.rb := rfl
@[simp] theorem advance_runState (x : Vm) (n : Int) : (x.advance n).runState = .running := rfl
@[simp] theorem advance_halted (x : Vm) (n : Int) : (x.advance n).halted = x.halted := rfl
@[simp] theorem advance_fault (x : Vm) (n : Int) : (x.advance n).fault = x.fault := rfl
@[simp] theorem advance_inputPolicy (x : Vm) (n : Int) : (x.advance n).inputPolicy = x.inputPolicy := rfl
@[simp] theorem advance_inQ (x : Vm) (n : Int) : (x.advance n).inQ = x.inQ := rfl
@[simp] theorem advance_outQ (x : Vm) (n : Int) : (x.advance n).outQ = x.outQ := rfl

/-! ## `faultEntry` -/

@[simp] theorem faultEntry_mem (c : Config) (x : Vm) (e : Raise) : (faultEntry c x e).mem = x.mem := rfl
@[simp] theorem faultEntry_fp (c : Config) (x : Vm) (e : Raise) : (faultEntry c x e).fp = x.fp := rfl
@[simp] theorem faultEntry_ip (c : Config) (x : Vm) (e : Raise) : (faultEntry c x e).ip = x.ip := rfl
@[simp] theorem faultEntry_rb (c : Config) (x : Vm) (e : Raise) : (faultEntry c x e).rb = x.rb := rfl
@[simp] theorem faultEntry_runState (c : Config) (x : Vm) (e : Raise) : (faultEntry c x e).runState = .faulted := rfl
@[simp] theorem faultEntry_halted (c : Config) (x : Vm) (e : Raise) : (faultEntry c x e).halted = x.halted := rfl
@[simp] theorem faultEntry_fault (c : Config) (x : Vm) (e : Raise) : (faultEntry c x e).fault = faultRecord c x e := rfl
@[simp] theorem faultEntry_inputPolicy (c : Config) (x : Vm) (e : Raise) : (faultEntry c x e).inputPolicy = x.inputPolicy := rfl
@[simp] theorem faultEntry_inQ (c : Config) (x : Vm) (e : Raise) : (faultEntry c x e).inQ = x.inQ := rfl
@[simp] theorem faultEntry_outQ (c : Config) (x : Vm) (e : Raise) : (faultEntry c x e).outQ = x.outQ := rfl

/-! ## `Vm.setHalted` -/

@[simp] theorem setHalted_mem (x : Vm) : (x.setHalted).mem = x.mem := rfl
@[simp] theorem setHalted_fp (x : Vm) : (x.setHalted).fp = x.fp := rfl
@[simp] theorem setHalted_ip (x : Vm) : (x.setHalted).ip = x.ip := rfl
@[simp] theorem setHalted_rb (x : Vm) : (x.setHalted).rb = x.rb := rfl
@[simp] theorem setHalted_runState (x : Vm) : (x.setHalted).runState = .haltedNormally := rfl
@[simp] theorem setHalted_halted (x : Vm) : (x.setHalted).halted = true := rfl
@[simp] theorem setHalted_fault (x : Vm) : (x.setHalted).fault = x.fault := rfl
@[simp] theorem setHalted_inputPolicy (x : Vm) : (x.setHalted).inputPolicy = x.inputPolicy := rfl
@[simp] theorem setHalted_inQ (x : Vm) : (x.setHalted).inQ = x.inQ := rfl
@[simp] theorem setHalted_outQ (x : Vm) : (x.setHalted).outQ = x.outQ := rfl

/-! ## `Vm.pushOut` -/

@[simp] theorem pushOut_mem (x : Vm) (v : Int) : (x.pushOut v).mem = x.mem := rfl
@[simp] theorem pushOut_fp (x : Vm) (v : Int) : (x.pushOut v).fp = x.fp := rfl
@[simp] theorem pushOut_ip (x : Vm) (v : Int) : (x.pushOut v).ip = x.ip := rfl
@[simp] theorem pushOut_rb (x : Vm) (v : Int) : (x.pushOut v).rb = x.rb := rfl
@[simp] theorem pushOut_runState (x : Vm) (v : Int) : (x.pushOut v).runState = x.runState := rfl
@[simp] theorem pushOut_halted (x : Vm) (v : Int) : (x.pushOut v).halted = x.halted := rfl
@[simp] theorem pushOut_fault (x : Vm) (v : Int) : (x.pushOut v).fault = x.fault := rfl
@[simp] theorem pushOut_inputPolicy (x : Vm) (v : Int) : (x.pushOut v).inputPolicy = x.inputPolicy := rfl
@[simp] theorem pushOut_inQ (x : Vm) (v : Int) : (x.pushOut v).inQ = x.inQ := rfl
@[simp] theorem pushOut_outQ (x : Vm) (v : Int) : (x.pushOut v).outQ = x.outQ ++ [v] := rfl

/-! ## `Vm.pushIn` -/

@[simp] theorem pushIn_mem (vs : List Int) (x : Vm) : (Vm.pushIn vs x).mem = x.mem := rfl
@[simp] theorem pushIn_fp (vs : List Int) (x : Vm) : (Vm.pushIn vs x).fp = x.fp := rfl
@[simp] theorem pushIn_ip (vs : List Int) (x : Vm) : (Vm.pushIn vs x).ip = x.ip := rfl
@[simp] theorem pushIn_rb (vs : List Int) (x : Vm) : (Vm.pushIn vs x).rb = x.rb := rfl
@[simp] theorem pushIn_runState (vs : List Int) (x : Vm) : (Vm.pushIn vs x).runState = x.runState := rfl
@[simp] theorem pushIn_halted (vs : List Int) (x : Vm) : (Vm.pushIn vs x).halted = x.halted := rfl
@[simp] theorem pushIn_fault (vs : List Int) (x : Vm) : (Vm.pushIn vs x).fault = x.fault := rfl
@[simp] theorem pushIn_inputPolicy (vs : List Int) (x : Vm) : (Vm.pushIn vs x).inputPolicy = x.inputPolicy := rfl
@[simp] theorem pushIn_inQ (vs : List Int) (x : Vm) : (Vm.pushIn vs x).inQ = x.inQ ++ vs := rfl
@[simp] theorem pushIn_outQ (vs : List Int) (x : Vm) : (Vm.pushIn vs x).outQ = x.outQ := rfl

/-! ## `Vm.popOut` -/

@[simp] theorem popOut_mem (x : Vm) : (x.popOut).mem = x.mem := rfl
@[simp] theorem popOut_fp (x : Vm) : (x.popOut).fp = x.fp := rfl
@[simp] theorem popOut_ip (x : Vm) : (x.popOut).ip = x.ip := rfl
@[simp] theorem popOut_rb (x : Vm) : (x.popOut).rb = x.rb := rfl
@[simp] theorem popOut_runState (x : Vm) : (x.popOut).runState = x.runState := rfl
@[simp] theorem popOut_halted (x : Vm) : (x.popOut).halted = x.halted := rfl
@[simp] theorem popOut_fault (x : Vm) : (x.popOut).fault = x.fault := rfl
@[simp] theorem popOut_inputPolicy (x : Vm) : (x.popOut).inputPolicy = x.inputPolicy := rfl
@[simp] theorem popOut_inQ (x : Vm) : (x.popOut).inQ = x.inQ := rfl
@[simp] theorem popOut_outQ (x : Vm) : (x.popOut).outQ = x.outQ.tail := rfl

/-! ## `Vm.kill` -/

@[simp] theorem kill_mem (x : Vm) : (x.kill).mem = x.mem := rfl
@[simp] theorem kill_fp (x : Vm) : (x.kill).fp = x.fp := rfl
@[simp] theorem kill_ip (x : Vm) : (x.kill).ip = x.ip := rfl
@[simp] theorem kill_rb (x : Vm) : (x.kill).rb = x.rb := rfl
@[simp] theorem kill_runState (x : Vm) : (x.kill).runState = if x.live then .killed else x.runState := rfl
@[simp] theorem kill_halted (x : Vm) : (x.kill).halted = x.halted := rfl
@[simp] theorem kill_fault (x : Vm) : (x.kill).fault = x.fault := rfl
@[simp] theorem kill_inputPolicy (x : Vm) : (x.kill).inputPolicy = x.inputPolicy := rfl
@[simp] theorem kill_inQ (x : Vm) : (x.kill).inQ = [] := rfl
@[simp] theorem kill_outQ (x : Vm) : (x.kill).outQ = [] := rfl

/-! ## `State.answer` -/

@[simp] theorem answer_cfg (s : State) (r : Reply) : (s.answer r).cfg = s.cfg := rfl
@[simp] theorem answer_lower (s : State) (r : Reply) : (s.answer r).lower = s.lower := rfl
@[simp] theorem answer_inst (s : State) (r : Reply) : (s.answer r).inst = s.inst := rfl
@[simp] theorem answer_upper (s : State) (r : Reply) : (s.answer r).upper = s.upper := rfl
@[simp] theorem answer_mux (s : State) (r : Reply) : (s.answer r).mux = s.mux := rfl
@[simp] theorem answer_runs (s : State) (r : Reply) : (s.answer r).runs = s.runs := rfl
@[simp] theorem answer_pending (s : State) (r : Reply) : (s.answer r).pending = s.pending := rfl
@[simp] theorem answer_reply (s : State) (r : Reply) : (s.answer r).reply = r := rfl

/-! ## `State.modifyMux` -/

@[simp] theorem modifyMux_cfg (s : State) (f : Mux → Mux) : (s.modifyMux f).cfg = s.cfg := rfl
@[simp] theorem modifyMux_lower (s : State) (f : Mux → Mux) : (s.modifyMux f).lower = s.lower := rfl
@[simp] theorem modifyMux_inst (s : State) (f : Mux → Mux) : (s.modifyMux f).inst = s.inst := rfl
@[simp] theorem modifyMux_upper (s : State) (f : Mux → Mux) : (s.modifyMux f).upper = s.upper := rfl
@[simp] theorem modifyMux_mux (s : State) (f : Mux → Mux) : (s.modifyMux f).mux = f s.mux := rfl
@[simp] theorem modifyMux_runs (s : State) (f : Mux → Mux) : (s.modifyMux f).runs = s.runs := rfl
@[simp] theorem modifyMux_pending (s : State) (f : Mux → Mux) : (s.modifyMux f).pending = s.pending := rfl
@[simp] theorem modifyMux_reply (s : State) (f : Mux → Mux) : (s.modifyMux f).reply = s.reply := rfl

/-! ## `State.setMuxStatus` -/

@[simp] theorem setMuxStatus_cfg (s : State) (v : MuxStatus) : (s.setMuxStatus v).cfg = s.cfg := rfl
@[simp] theorem setMuxStatus_lower (s : State) (v : MuxStatus) : (s.setMuxStatus v).lower = s.lower := rfl
@[simp] theorem setMuxStatus_inst (s : State) (v : MuxStatus) : (s.setMuxStatus v).inst = s.inst := rfl
@[simp] theorem setMuxStatus_upper (s : State) (v : MuxStatus) : (s.setMuxStatus v).upper = s.upper := rfl
@[simp] theorem setMuxStatus_mux (s : State) (v : MuxStatus) : (s.setMuxStatus v).mux = { s.mux with status := v } := rfl
@[simp] theorem setMuxStatus_runs (s : State) (v : MuxStatus) : (s.setMuxStatus v).runs = s.runs := rfl
@[simp] theorem setMuxStatus_pending (s : State) (v : MuxStatus) : (s.setMuxStatus v).pending = s.pending := rfl
@[simp] theorem setMuxStatus_reply (s : State) (v : MuxStatus) : (s.setMuxStatus v).reply = s.reply := rfl

/-! ## `State.finish`, of a result -/

@[simp] theorem finish_ok_cfg (s : State) (r : StepResult) (x : Vm) : (s.finish (.ok (r, x))).cfg = s.cfg := rfl
@[simp] theorem finish_ok_lower (s : State) (r : StepResult) (x : Vm) : (s.finish (.ok (r, x))).lower = s.lower := rfl
@[simp] theorem finish_ok_inst (s : State) (r : StepResult) (x : Vm) : (s.finish (.ok (r, x))).inst = x := rfl
@[simp] theorem finish_ok_upper (s : State) (r : StepResult) (x : Vm) : (s.finish (.ok (r, x))).upper = s.upper := rfl
@[simp] theorem finish_ok_mux (s : State) (r : StepResult) (x : Vm) : (s.finish (.ok (r, x))).mux = s.mux := rfl
@[simp] theorem finish_ok_runs (s : State) (r : StepResult) (x : Vm) : (s.finish (.ok (r, x))).runs = s.runs := rfl
@[simp] theorem finish_ok_pending (s : State) (r : StepResult) (x : Vm) : (s.finish (.ok (r, x))).pending = s.pending := rfl
@[simp] theorem finish_ok_reply (s : State) (r : StepResult) (x : Vm) : (s.finish (.ok (r, x))).reply = .stepResult r := rfl

/-! ## `State.finish`, of a fault -/

@[simp] theorem finish_error_cfg (s : State) (e : Raise) : (s.finish (.error e)).cfg = s.cfg := rfl
@[simp] theorem finish_error_lower (s : State) (e : Raise) : (s.finish (.error e)).lower = s.lower := rfl
@[simp] theorem finish_error_inst (s : State) (e : Raise) : (s.finish (.error e)).inst = faultEntry s.cfg s.inst e := rfl
@[simp] theorem finish_error_upper (s : State) (e : Raise) : (s.finish (.error e)).upper = s.upper := rfl
@[simp] theorem finish_error_mux (s : State) (e : Raise) : (s.finish (.error e)).mux = s.mux := rfl
@[simp] theorem finish_error_runs (s : State) (e : Raise) : (s.finish (.error e)).runs = s.runs := rfl
@[simp] theorem finish_error_pending (s : State) (e : Raise) : (s.finish (.error e)).pending = s.pending := rfl
@[simp] theorem finish_error_reply (s : State) (e : Raise) : (s.finish (.error e)).reply = .stepResult (.faulted (some e.cause)) := rfl

/-! ## `State.stored` -/

@[simp] theorem stored_cfg (s : State) (n : Nat) (d : Int) (v : Int) : (s.stored n d v).cfg = s.cfg := rfl
@[simp] theorem stored_lower (s : State) (n : Nat) (d : Int) (v : Int) : (s.stored n d v).lower = s.lower := rfl
@[simp] theorem stored_upper (s : State) (n : Nat) (d : Int) (v : Int) : (s.stored n d v).upper = s.upper := rfl
@[simp] theorem stored_mux (s : State) (n : Nat) (d : Int) (v : Int) : (s.stored n d v).mux = s.mux := rfl
@[simp] theorem stored_runs (s : State) (n : Nat) (d : Int) (v : Int) : (s.stored n d v).runs = s.runs := rfl
@[simp] theorem stored_pending (s : State) (n : Nat) (d : Int) (v : Int) : (s.stored n d v).pending = s.pending := rfl
@[simp] theorem stored_reply (s : State) (n : Nat) (d : Int) (v : Int) : (s.stored n d v).reply = .stepResult (.continued (s.inst.ip + n)) := rfl

/-! ## `State.faultedWith` -/

@[simp] theorem faultedWith_cfg (s : State) (f : Fault) (info : Option Int) : (s.faultedWith f info).cfg = s.cfg := rfl
@[simp] theorem faultedWith_lower (s : State) (f : Fault) (info : Option Int) : (s.faultedWith f info).lower = s.lower := rfl
@[simp] theorem faultedWith_upper (s : State) (f : Fault) (info : Option Int) : (s.faultedWith f info).upper = s.upper := rfl
@[simp] theorem faultedWith_mux (s : State) (f : Fault) (info : Option Int) : (s.faultedWith f info).mux = s.mux := rfl
@[simp] theorem faultedWith_runs (s : State) (f : Fault) (info : Option Int) : (s.faultedWith f info).runs = s.runs := rfl
@[simp] theorem faultedWith_pending (s : State) (f : Fault) (info : Option Int) : (s.faultedWith f info).pending = s.pending := rfl
@[simp] theorem faultedWith_reply (s : State) (f : Fault) (info : Option Int) : (s.faultedWith f info).reply = .stepResult (.faulted (some f)) := rfl

/-! ## `Mux.clearCounts` -/

@[simp] theorem clearCounts_cfg (m : Mux) : (m.clearCounts).cfg = m.cfg := rfl
@[simp] theorem clearCounts_status (m : Mux) : (m.clearCounts).status = m.status := rfl
@[simp] theorem clearCounts_routeFaultSrc (m : Mux) : (m.clearCounts).routeFaultSrc = m.routeFaultSrc := rfl
@[simp] theorem clearCounts_routeFaultDest (m : Mux) : (m.clearCounts).routeFaultDest = m.routeFaultDest := rfl
@[simp] theorem clearCounts_hostOut (m : Mux) : (m.clearCounts).hostOut = m.hostOut := rfl
@[simp] theorem clearCounts_lastSignal (m : Mux) : (m.clearCounts).lastSignal = m.lastSignal := rfl
@[simp] theorem clearCounts_lastSignalValid (m : Mux) : (m.clearCounts).lastSignalValid = m.lastSignalValid := rfl
@[simp] theorem clearCounts_asm (m : Mux) : (m.clearCounts).asm = m.asm := rfl
@[simp] theorem clearCounts_emptyCount (m : Mux) : (m.clearCounts).emptyCount = m.emptyCount.map (fun _ => 0) := rfl
@[simp] theorem clearCounts_lastBcast (m : Mux) : (m.clearCounts).lastBcast = m.lastBcast := rfl
@[simp] theorem clearCounts_lastBcastValid (m : Mux) : (m.clearCounts).lastBcastValid = m.lastBcastValid := rfl
@[simp] theorem clearCounts_mon (m : Mux) : (m.clearCounts).mon = m.mon := rfl

/-! ## `Mux.setAsm` -/

@[simp] theorem setAsm_cfg (m : Mux) (i : Nat) (ws : List Int) : (m.setAsm i ws).cfg = m.cfg := rfl
@[simp] theorem setAsm_status (m : Mux) (i : Nat) (ws : List Int) : (m.setAsm i ws).status = m.status := rfl
@[simp] theorem setAsm_routeFaultSrc (m : Mux) (i : Nat) (ws : List Int) : (m.setAsm i ws).routeFaultSrc = m.routeFaultSrc := rfl
@[simp] theorem setAsm_routeFaultDest (m : Mux) (i : Nat) (ws : List Int) : (m.setAsm i ws).routeFaultDest = m.routeFaultDest := rfl
@[simp] theorem setAsm_hostOut (m : Mux) (i : Nat) (ws : List Int) : (m.setAsm i ws).hostOut = m.hostOut := rfl
@[simp] theorem setAsm_lastSignal (m : Mux) (i : Nat) (ws : List Int) : (m.setAsm i ws).lastSignal = m.lastSignal := rfl
@[simp] theorem setAsm_lastSignalValid (m : Mux) (i : Nat) (ws : List Int) : (m.setAsm i ws).lastSignalValid = m.lastSignalValid := rfl
@[simp] theorem setAsm_asm (m : Mux) (i : Nat) (ws : List Int) : (m.setAsm i ws).asm = m.asm.set i ws := rfl
@[simp] theorem setAsm_emptyCount (m : Mux) (i : Nat) (ws : List Int) : (m.setAsm i ws).emptyCount = m.emptyCount := rfl
@[simp] theorem setAsm_lastBcast (m : Mux) (i : Nat) (ws : List Int) : (m.setAsm i ws).lastBcast = m.lastBcast := rfl
@[simp] theorem setAsm_lastBcastValid (m : Mux) (i : Nat) (ws : List Int) : (m.setAsm i ws).lastBcastValid = m.lastBcastValid := rfl
@[simp] theorem setAsm_mon (m : Mux) (i : Nat) (ws : List Int) : (m.setAsm i ws).mon = m.mon := rfl

/-! ## `Mux.signal` -/

@[simp] theorem signal_cfg (m : Mux) (v : Int) : (m.signal v).cfg = m.cfg := rfl
@[simp] theorem signal_status (m : Mux) (v : Int) : (m.signal v).status = m.status := rfl
@[simp] theorem signal_routeFaultSrc (m : Mux) (v : Int) : (m.signal v).routeFaultSrc = m.routeFaultSrc := rfl
@[simp] theorem signal_routeFaultDest (m : Mux) (v : Int) : (m.signal v).routeFaultDest = m.routeFaultDest := rfl
@[simp] theorem signal_hostOut (m : Mux) (v : Int) : (m.signal v).hostOut = m.hostOut := rfl
@[simp] theorem signal_lastSignal (m : Mux) (v : Int) : (m.signal v).lastSignal = v := rfl
@[simp] theorem signal_lastSignalValid (m : Mux) (v : Int) : (m.signal v).lastSignalValid = true := rfl
@[simp] theorem signal_asm (m : Mux) (v : Int) : (m.signal v).asm = m.asm := rfl
@[simp] theorem signal_emptyCount (m : Mux) (v : Int) : (m.signal v).emptyCount = m.emptyCount := rfl
@[simp] theorem signal_lastBcast (m : Mux) (v : Int) : (m.signal v).lastBcast = m.lastBcast := rfl
@[simp] theorem signal_lastBcastValid (m : Mux) (v : Int) : (m.signal v).lastBcastValid = m.lastBcastValid := rfl
@[simp] theorem signal_mon (m : Mux) (v : Int) : (m.signal v).mon = m.mon := rfl

/-! ## `Mux.pushHostOut` -/

@[simp] theorem pushHostOut_cfg (m : Mux) (v : Int) : (m.pushHostOut v).cfg = m.cfg := rfl
@[simp] theorem pushHostOut_status (m : Mux) (v : Int) : (m.pushHostOut v).status = m.status := rfl
@[simp] theorem pushHostOut_routeFaultSrc (m : Mux) (v : Int) : (m.pushHostOut v).routeFaultSrc = m.routeFaultSrc := rfl
@[simp] theorem pushHostOut_routeFaultDest (m : Mux) (v : Int) : (m.pushHostOut v).routeFaultDest = m.routeFaultDest := rfl
@[simp] theorem pushHostOut_hostOut (m : Mux) (v : Int) : (m.pushHostOut v).hostOut = m.hostOut ++ [v] := rfl
@[simp] theorem pushHostOut_lastSignal (m : Mux) (v : Int) : (m.pushHostOut v).lastSignal = m.lastSignal := rfl
@[simp] theorem pushHostOut_lastSignalValid (m : Mux) (v : Int) : (m.pushHostOut v).lastSignalValid = m.lastSignalValid := rfl
@[simp] theorem pushHostOut_asm (m : Mux) (v : Int) : (m.pushHostOut v).asm = m.asm := rfl
@[simp] theorem pushHostOut_emptyCount (m : Mux) (v : Int) : (m.pushHostOut v).emptyCount = m.emptyCount := rfl
@[simp] theorem pushHostOut_lastBcast (m : Mux) (v : Int) : (m.pushHostOut v).lastBcast = m.lastBcast := rfl
@[simp] theorem pushHostOut_lastBcastValid (m : Mux) (v : Int) : (m.pushHostOut v).lastBcastValid = m.lastBcastValid := rfl
@[simp] theorem pushHostOut_mon (m : Mux) (v : Int) : (m.pushHostOut v).mon = m.mon := rfl

/-! ## `Mux.noteReinject` -/

@[simp] theorem noteReinject_cfg (m : Mux) : (m.noteReinject).cfg = m.cfg := rfl
@[simp] theorem noteReinject_status (m : Mux) : (m.noteReinject).status = m.status := rfl
@[simp] theorem noteReinject_routeFaultSrc (m : Mux) : (m.noteReinject).routeFaultSrc = m.routeFaultSrc := rfl
@[simp] theorem noteReinject_routeFaultDest (m : Mux) : (m.noteReinject).routeFaultDest = m.routeFaultDest := rfl
@[simp] theorem noteReinject_hostOut (m : Mux) : (m.noteReinject).hostOut = m.hostOut := rfl
@[simp] theorem noteReinject_lastSignal (m : Mux) : (m.noteReinject).lastSignal = m.lastSignal := rfl
@[simp] theorem noteReinject_lastSignalValid (m : Mux) : (m.noteReinject).lastSignalValid = m.lastSignalValid := rfl
@[simp] theorem noteReinject_asm (m : Mux) : (m.noteReinject).asm = m.asm := rfl
@[simp] theorem noteReinject_emptyCount (m : Mux) : (m.noteReinject).emptyCount = m.emptyCount := rfl
@[simp] theorem noteReinject_lastBcast (m : Mux) : (m.noteReinject).lastBcast = m.lastBcast := rfl
@[simp] theorem noteReinject_lastBcastValid (m : Mux) : (m.noteReinject).lastBcastValid = m.lastBcastValid := rfl
@[simp] theorem noteReinject_mon (m : Mux) : (m.noteReinject).mon = m.mon ++ [⟨.reinject, m.lastBcast.1, m.lastBcast.2⟩] := rfl

/-! ## The number of instances and the focus -/

@[simp] theorem answer_insts (s : State) (r : Reply) : (s.answer r).insts = s.insts := rfl
@[simp] theorem answer_count (s : State) (r : Reply) : (s.answer r).count = s.count := rfl
@[simp] theorem answer_current (s : State) (r : Reply) : (s.answer r).current = s.current := rfl
@[simp] theorem answer_vm (s : State) (r : Reply) (j : Nat) : (s.answer r).vm? j = s.vm? j := rfl
@[simp] theorem modifyMux_insts (s : State) (f : Mux → Mux) : (s.modifyMux f).insts = s.insts := rfl
@[simp] theorem modifyMux_count (s : State) (f : Mux → Mux) : (s.modifyMux f).count = s.count := rfl
@[simp] theorem modifyMux_current (s : State) (f : Mux → Mux) : (s.modifyMux f).current = s.current := rfl
@[simp] theorem modifyMux_vm (s : State) (f : Mux → Mux) (j : Nat) : (s.modifyMux f).vm? j = s.vm? j := rfl

end Sys2Proof.Machine
end

