-- ==== Sys2Proof/Laws/Memory.lean ====
section
/-! SUPPORT. The memory as data: read after write, and that a write keeps the canonical form and the footprint rising. -/

namespace Sys2Proof.Machine

theorem read_write_same (m : Memory) (a : Nat) (v : Int) (h : m.wf) : (m.write a v).read a = v := by
  induction m with
  | nil => by_cases hv : v = 0 <;> simp [Memory.write, Memory.read, hv]
  | cons p rest ih =>
    obtain ⟨b, w⟩ := p
    have hrest : Memory.wf rest := ⟨(List.pairwise_cons.1 h.1).2, fun q hq => h.2 q (List.mem_cons_of_mem _ hq)⟩
    have unlisted : ∀ (l : Memory), (∀ q ∈ l, a < q.1) → Memory.read l a = 0 := by
      intro l
      induction l with
      | nil => intro _; rfl
      | cons q l ihl =>
        intro hq
        have h1 : a ≠ q.1 := Nat.ne_of_lt (hq q (by simp))
        simp [Memory.read, h1, ihl (fun r hr => hq r (by simp [hr]))]
    have later : ∀ q ∈ rest, b < q.1 := (List.pairwise_cons.1 h.1).1
    simp only [Memory.write]
    by_cases h1 : a < b
    · by_cases hv : v = 0
      · have : a ≠ b := by omega
        simp [h1, hv, Memory.read, this, unlisted rest (fun q hq => by have := later q hq; omega)]
      · simp [h1, hv, Memory.read]
    · by_cases h2 : a = b
      · by_cases hv : v = 0
        · simp [h2, hv]
          subst h2
          exact unlisted rest later
        · simp [h2, hv, Memory.read]
      · simp [h1, h2, Memory.read, ih hrest]

theorem read_write_other (m : Memory) (a b : Nat) (v : Int) (h : b ≠ a) : (m.write a v).read b = m.read b := by
  induction m with
  | nil => by_cases hv : v = 0 <;> simp [Memory.write, Memory.read, hv, h]
  | cons p rest ih =>
    obtain ⟨k, w⟩ := p
    simp only [Memory.write]
    by_cases h1 : a < k
    · by_cases hv : v = 0 <;> simp [h1, hv, Memory.read, h]
    · by_cases h2 : a = k
      · subst h2
        by_cases hv : v = 0 <;> simp [hv, Memory.read, h]
      · by_cases h3 : b = k <;> simp [h1, h2, Memory.read, h3, ih]

theorem mem_write (m : Memory) (a : Nat) (v : Int) (p : Nat × Int) (h : p ∈ m.write a v) :
    p ∈ m ∨ (p = (a, v) ∧ v ≠ 0) := by
  induction m with
  | nil =>
    by_cases hv : v = 0
    · simp [Memory.write, hv] at h
    · simp [Memory.write, hv] at h; exact .inr ⟨h, hv⟩
  | cons q rest ih =>
    obtain ⟨k, w⟩ := q
    simp only [Memory.write] at h
    by_cases h1 : a < k
    · by_cases hv : v = 0
      · simp [h1, hv] at h; simp; tauto
      · simp [h1, hv] at h; simp; tauto
    · by_cases h2 : a = k
      · by_cases hv : v = 0
        · simp [h2, hv] at h; simp; tauto
        · simp [h2, hv] at h; simp [h2]; tauto
      · simp [h1, h2] at h
        rcases h with h | h
        · simp [h]
        · rcases ih h with h | h
          · simp [h]
          · exact .inr h

theorem write_canonical (m : Memory) (a : Nat) (v : Int) (h : m.wf) : (m.write a v).wf := by
  refine ⟨?_, fun p hp => ?_⟩
  · induction m with
    | nil => by_cases hv : v = 0 <;> simp [Memory.write, hv]
    | cons q rest ih =>
      obtain ⟨k, w⟩ := q
      have hp := List.pairwise_cons.1 h.1
      have hrest : Memory.wf rest := ⟨hp.2, fun q hq => h.2 q (List.mem_cons_of_mem _ hq)⟩
      simp only [Memory.write]
      by_cases h1 : a < k
      · by_cases hv : v = 0
        · simpa [h1, hv] using h.1
        · simp only [h1, hv, if_true, if_false]
          refine List.pairwise_cons.2 ⟨fun q hq => ?_, h.1⟩
          rcases List.mem_cons.1 hq with rfl | hq
          · exact h1
          · exact Nat.lt_trans h1 (hp.1 q hq)
      · by_cases h2 : a = k
        · by_cases hv : v = 0
          · simpa [h1, h2, hv] using hp.2
          · subst h2
            simpa [hv] using List.pairwise_cons.2 ⟨hp.1, hp.2⟩
        · simp only [h1, h2, if_false]
          refine List.pairwise_cons.2 ⟨fun q hq => ?_, ih hrest⟩
          rcases mem_write rest a v q hq with hq | ⟨rfl, _⟩
          · exact hp.1 q hq
          · simp only; omega
  · rcases mem_write m a v p hp with hp | ⟨rfl, hv⟩
    · exact h.2 p hp
    · exact hv

theorem mem_footprintAdd (f : List Nat) (a b : Nat) : b ∈ footprintAdd f a ↔ b = a ∨ b ∈ f := by
  induction f with
  | nil => simp [footprintAdd]
  | cons k rest ih =>
    simp only [footprintAdd]
    by_cases h1 : a < k
    · simp [h1]
    · by_cases h2 : a = k
      · simp [h2]
      · simp [h1, h2, ih]; tauto

theorem footprintAdd_rising (f : List Nat) (a : Nat) (h : f.Pairwise (fun x y => x < y)) :
    (footprintAdd f a).Pairwise (fun x y => x < y) := by
  induction f with
  | nil => simp [footprintAdd]
  | cons k rest ih =>
    have hp := List.pairwise_cons.1 h
    simp only [footprintAdd]
    by_cases h1 : a < k
    · simp only [h1, if_true]
      refine List.pairwise_cons.2 ⟨fun q hq => ?_, h⟩
      rcases List.mem_cons.1 hq with rfl | hq
      · exact h1
      · exact Nat.lt_trans h1 (hp.1 q hq)
    · by_cases h2 : a = k
      · simpa [h1, h2] using h
      · simp only [h1, h2, if_false]
        refine List.pairwise_cons.2 ⟨fun q hq => ?_, ih hp.2⟩
        rcases (mem_footprintAdd rest a q).1 hq with rfl | hq
        · omega
        · exact hp.1 q hq

theorem footprintAdd_length (f : List Nat) (a : Nat) (h : f.Pairwise (fun x y => x < y)) :
    (footprintAdd f a).length = if a ∈ f then f.length else f.length + 1 := by
  induction f with
  | nil => simp [footprintAdd]
  | cons k rest ih =>
    have hp := List.pairwise_cons.1 h
    simp only [footprintAdd]
    by_cases h1 : a < k
    · have : a ∉ k :: rest := by
        intro hm
        rcases List.mem_cons.1 hm with rfl | hm
        · omega
        · have := hp.1 a hm; omega
      rw [if_neg this]; simp [h1]
    · by_cases h2 : a = k
      · simp [h2]
      · simp only [h1, h2, if_false, List.length_cons, ih hp.2, List.mem_cons, false_or]
        split <;> rfl

/-- The words of a list stored from `a` on (the image of LOAD). -/
theorem writeList_canonical (m : Memory) (a : Nat) (ws : List Int) (h : m.wf) : (m.writeList a ws).wf := by
  induction ws generalizing m a with
  | nil => exact h
  | cons v ws ih => exact ih _ _ (write_canonical m a v h)

theorem read_writeList (m : Memory) (a b : Nat) (ws : List Int) (h : m.wf) :
    (m.writeList a ws).read b =
      if a ≤ b ∧ b < a + ws.length then ws.getD (b - a) 0 else m.read b := by
  induction ws generalizing m a with
  | nil =>
    have : ¬ (a ≤ b ∧ b < a + ([] : List Int).length) := by simp only [List.length_nil]; omega
    rw [if_neg this]; rfl
  | cons v ws ih =>
    simp only [Memory.writeList]
    rw [ih _ _ (write_canonical m a v h)]
    by_cases hb : b = a
    · subst hb
      have h1 : ¬ (b + 1 ≤ b ∧ b < b + 1 + ws.length) := by omega
      have h2 : b ≤ b ∧ b < b + (v :: ws).length := by simp only [List.length_cons]; omega
      rw [if_neg h1, if_pos h2, read_write_same m b v h, Nat.sub_self]; rfl
    · rw [read_write_other m a b v hb]
      by_cases h1 : a + 1 ≤ b ∧ b < a + 1 + ws.length
      · have h2 : a ≤ b ∧ b < a + (v :: ws).length := by simp; omega
        rw [if_pos h1, if_pos h2]
        have : b - a = (b - (a + 1)) + 1 := by omega
        rw [this]; simp
      · have h2 : ¬ (a ≤ b ∧ b < a + (v :: ws).length) := by simp; omega
        rw [if_neg h1, if_neg h2]

theorem mem_writeList (m : Memory) (a : Nat) (ws : List Int) (p : Nat × Int) (h : p ∈ m.writeList a ws) :
    p ∈ m ∨ (p.2 ∈ ws ∧ a ≤ p.1 ∧ p.1 < a + ws.length) := by
  induction ws generalizing m a with
  | nil => exact .inl h
  | cons v ws ih =>
    rcases ih _ _ h with h | ⟨h1, h2, h3⟩
    · rcases mem_write m a v p h with h | ⟨rfl, _⟩
      · exact .inl h
      · right; simp
    · right; refine ⟨by simp [h1], by omega, by simp; omega⟩

/-- An address below every listed one reads as 0 (R51). -/
theorem read_unlisted (m : Memory) (a : Nat) (h : ∀ p ∈ m, a < p.1) : m.read a = 0 := by
  induction m with
  | nil => rfl
  | cons p rest ih =>
    obtain ⟨b, w⟩ := p
    have hb : a ≠ b := Nat.ne_of_lt (h (b, w) (by simp))
    simp only [Memory.read, hb, if_false]
    exact ih (fun q hq => h q (by simp [hq]))

/-- The memory of the machine after reset is canonical. -/
theorem reset_canonical : ∀ x ∈ State.reset.insts, x.mem.wf := by decide

end Sys2Proof.Machine
end

