-- ==== Sys2Proof/Laws/Operations.lean ====
section
/-! SUPPORT. What each shared operation comes to, in the terms of Safety.lean: one lemma a case, so that no proof
unfolds the operation. -/

namespace Sys2Proof.Machine

/-! ## Sequencing -/

@[simp] theorem bind_ok {α β : Type} (a : α) (f : α → Except Raise β) :
    ((Except.ok a : Except Raise α) >>= f) = f a := rfl

@[simp] theorem bind_error {α β : Type} (e : Raise) (f : α → Except Raise β) :
    ((Except.error e : Except Raise α) >>= f) = .error e := rfl

@[simp] theorem pure_ok {α : Type} (a : α) : (pure a : Except Raise α) = .ok a := rfl

theorem bind_eq_ok {α β : Type} {x : Except Raise α} {f : α → Except Raise β} {b : β}
    (h : (x >>= f) = .ok b) : ∃ a, x = .ok a ∧ f a = .ok b := by
  cases x with
  | ok a => exact ⟨a, rfl, h⟩
  | error e => simp at h

/-! ## The address check -/

theorem checkAddr_legal {c : Config} {a : Int} (h : legalAddr c a) : checkAddr c a = .ok a.toNat := by
  obtain ⟨h0, hl⟩ := h
  unfold checkAddr
  rw [if_neg (by omega)]
  split
  · rename_i l hc
    rw [if_neg (by have := hl l hc; omega)]
  · rfl

theorem checkAddr_fault {c : Config} {a : Int} {f : Fault} (h : addressFault c a f) :
    checkAddr c a = .error ⟨f, a⟩ := by
  rcases h with ⟨h, rfl⟩ | ⟨h0, rfl, l, hc, hl⟩
  · simp [checkAddr, h]
  · unfold checkAddr
    rw [if_neg (by omega)]
    simp [hc, hl]

theorem legal_or_fault (c : Config) (a : Int) : legalAddr c a ∨ ∃ f, addressFault c a f := by
  by_cases h0 : a < 0
  · exact .inr ⟨_, .inl ⟨h0, rfl⟩⟩
  · cases hc : c.addrLimit with
    | none => exact .inl ⟨by omega, by simp [hc]⟩
    | some l =>
      by_cases hl : (l : Int) ≤ a
      · exact .inr ⟨_, .inr ⟨by omega, rfl, l, hc, hl⟩⟩
      · exact .inl ⟨by omega, by intro k hk; rw [hc] at hk; cases hk; omega⟩

theorem checkAddr_eq_ok {c : Config} {a : Int} {n : Nat} (h : checkAddr c a = .ok n) :
    legalAddr c a ∧ n = a.toNat := by
  rcases legal_or_fault c a with hl | ⟨f, hf⟩
  · rw [checkAddr_legal hl] at h; exact ⟨hl, by cases h; rfl⟩
  · rw [checkAddr_fault hf] at h; cases h

/-! ## Reads and writes -/

theorem memRead_legal {c : Config} {x : Vm} {a : Int} (h : legalAddr c a) :
    memRead c x a = .ok (x.wordAt a) := by
  simp [memRead, checkAddr_legal h, Vm.wordAt]

theorem memRead_fault {c : Config} {x : Vm} {a : Int} {f : Fault} (h : addressFault c a f) :
    memRead c x a = .error ⟨f, a⟩ := by
  simp [memRead, checkAddr_fault h]

theorem memRead_eq_ok {c : Config} {x : Vm} {a : Int} {v : Int} (h : memRead c x a = .ok v) :
    legalAddr c a ∧ v = x.wordAt a := by
  rcases legal_or_fault c a with hl | ⟨f, hf⟩
  · rw [memRead_legal hl] at h; exact ⟨hl, by cases h; rfl⟩
  · rw [memRead_fault hf] at h; cases h

theorem footprintFull_iff (c : Config) (x : Vm) (d : Int) :
    footprintFull c x d.toNat = true ↔ ¬ writeRoom c x d := by
  unfold footprintFull writeRoom
  cases hc : c.capacity with
  | none => simp
  | some k => simp

theorem memWrite_room {c : Config} {x : Vm} {d : Int} {v : Int} (h : legalAddr c d) (hr : writeRoom c x d) :
    memWrite c x d v = .ok (x.store d.toNat v) := by
  have hf : footprintFull c x d.toNat = false := by
    cases hb : footprintFull c x d.toNat with
    | false => rfl
    | true => exact absurd hr ((footprintFull_iff c x d).1 hb)
  simp [memWrite, checkAddr_legal h, hf]

theorem memWrite_full {c : Config} {x : Vm} {d : Int} {v : Int} (h : legalAddr c d) (hr : ¬ writeRoom c x d) :
    memWrite c x d v = .error ⟨.capacityExceeded, d⟩ := by
  simp [memWrite, checkAddr_legal h, (footprintFull_iff c x d).2 hr]

theorem memWrite_eq_ok {c : Config} {x y : Vm} {d : Int} {v : Int} (h : memWrite c x d v = .ok y) :
    legalAddr c d ∧ writeRoom c x d ∧ y = x.store d.toNat v := by
  rcases legal_or_fault c d with hl | ⟨f, hf⟩
  · by_cases hr : writeRoom c x d
    · rw [memWrite_room hl hr] at h; exact ⟨hl, hr, by cases h; rfl⟩
    · rw [memWrite_full hl hr] at h; cases h
  · simp [memWrite, checkAddr_fault hf] at h

/-! ## Operands -/

theorem literal_legal {c : Config} {x : Vm} {k : Nat} (h : legalAddr c (x.ip + k)) :
    literal c x k = .ok (x.lit k) := memRead_legal h

theorem resolveIn_value {c : Config} {x : Vm} {k : Nat} {m : Mode} {v : Int} (h : inputValue c x k m v) :
    resolveIn c x k m = .ok v := by
  obtain ⟨hl, hm⟩ := h
  cases m <;> simp only at hm
  · simp [resolveIn, literal_legal hl, memRead_legal hm.1, hm.2]
  · simp [resolveIn, literal_legal hl, hm]
  · simp [resolveIn, literal_legal hl, memRead_legal hm.1, hm.2]

theorem resolveIn_fault {c : Config} {x : Vm} {k : Nat} {m : Mode} {f : Fault} {a : Int}
    (h : inputFault c x k m f a) : resolveIn c x k m = .error ⟨f, a⟩ := by
  rcases h with ⟨h, rfl⟩ | ⟨hl, hf, hm⟩
  · simp [resolveIn, literal, memRead_fault h]
  · cases m <;> simp only at hm
    · subst hm; simp [resolveIn, literal_legal hl, memRead_fault hf]
    · subst hm; simp [resolveIn, literal_legal hl, memRead_fault hf]

theorem resolveIn_cases (c : Config) (x : Vm) (k : Nat) (m : Mode) :
    (∃ v, inputValue c x k m v) ∨ ∃ f a, inputFault c x k m f a := by
  rcases legal_or_fault c (x.ip + k) with hl | ⟨f, hf⟩
  · cases m with
    | immediate => exact .inl ⟨_, hl, rfl⟩
    | position =>
      rcases legal_or_fault c (x.lit k) with h | ⟨f, hf⟩
      · exact .inl ⟨_, hl, h, rfl⟩
      · exact .inr ⟨f, _, .inr ⟨hl, hf, rfl⟩⟩
    | relative =>
      rcases legal_or_fault c (x.rb + x.lit k) with h | ⟨f, hf⟩
      · exact .inl ⟨_, hl, h, rfl⟩
      · exact .inr ⟨f, _, .inr ⟨hl, hf, rfl⟩⟩
  · exact .inr ⟨f, _, .inl ⟨hf, rfl⟩⟩

theorem resolveIn_eq_ok {c : Config} {x : Vm} {k : Nat} {m : Mode} {v : Int} (h : resolveIn c x k m = .ok v) :
    inputValue c x k m v := by
  rcases resolveIn_cases c x k m with ⟨w, hw⟩ | ⟨f, a, hf⟩
  · rw [resolveIn_value hw] at h; cases h; exact hw
  · rw [resolveIn_fault hf] at h; cases h

theorem resolveOut_addr {c : Config} {x : Vm} {k : Nat} {m : Mode} {d : Int} (h : destAddr c x k m d) :
    resolveOut c x k m = .ok d := by
  obtain ⟨hl, hd, hm⟩ := h
  cases m <;> simp only at hm
  · subst hm; simp [resolveOut, literal_legal hl, checkAddr_legal hd]
  · subst hm; simp [resolveOut, literal_legal hl, checkAddr_legal hd]

theorem resolveOut_fault {c : Config} {x : Vm} {k : Nat} {m : Mode} {f : Fault} {a : Int}
    (h : destFault c x k m f a) : resolveOut c x k m = .error ⟨f, a⟩ := by
  obtain ⟨hi, h⟩ := h
  rcases h with ⟨h, rfl⟩ | ⟨hl, hf, hm⟩
  · simp [resolveOut, literal, memRead_fault h]
  · cases m <;> simp only at hm
    · subst hm; simp [resolveOut, literal_legal hl, checkAddr_fault hf]
    · subst hm; simp [resolveOut, literal_legal hl, checkAddr_fault hf]

theorem resolveOut_eq_ok {c : Config} {x : Vm} {k : Nat} {m : Mode} {d : Int} (h : resolveOut c x k m = .ok d) :
    destAddr c x k m d := by
  unfold resolveOut at h
  obtain ⟨lit, h1, h⟩ := bind_eq_ok h
  obtain ⟨hl, rfl⟩ := memRead_eq_ok h1
  cases m with
  | immediate => simp at h
  | position =>
    simp only [bind_ok] at h
    obtain ⟨n, h2, h⟩ := bind_eq_ok h
    simp at h
    exact ⟨hl, h ▸ (checkAddr_eq_ok h2).1, h.symm⟩
  | relative =>
    simp only [bind_ok] at h
    obtain ⟨n, h2, h⟩ := bind_eq_ok h
    simp at h
    exact ⟨hl, h ▸ (checkAddr_eq_ok h2).1, h.symm⟩

/-! ## The arithmetic/logical unit -/

theorem exactWord_fits {c : Config} {v : Int} (h : c.fits v = true) : exactWord c v = .ok v := by
  simp [exactWord, h]

theorem exactWord_not {c : Config} {v : Int} (h : c.fits v = false) :
    exactWord c v = .error ⟨.arithmeticOverflow, 0⟩ := by
  simp [exactWord, h]

/-! ## The fault entry -/

theorem fetch_legal {c : Config} {x : Vm} (h : legalAddr c x.ip) : fetch c x = .ok (x.wordAt x.ip) :=
  memRead_legal h

theorem faultRecord_legal {c : Config} {x : Vm} (e : Raise) (h : legalAddr c x.ip) :
    faultRecord c x e =
      instrFaultRecord x e.cause (if e.cause.hasAddr then some e.info else none) := by
  simp only [faultRecord, fetch_legal h, instrFaultRecord]
  cases e.cause.hasAddr <;> rfl

/-- A fault of an instruction whose opcode word was fetched. -/
theorem finish_error_eq {s : State} (e : Raise) (h : legalAddr s.cfg s.inst.ip) :
    s.finish (.error e) = s.faultedWith e.cause (if e.cause.hasAddr then some e.info else none) := by
  simp only [State.finish, faultEntry, faultRecord_legal e h, State.faultedWith]

end Sys2Proof.Machine
end

