-- ==== Sys2Proof/Laws/Execute.lean ====
section
/-! SUPPORT. Everything an instruction can do, said once: `Effect` lists the ways an instruction ends without a fault, and
`exec_cases` says there is no other. Statements about `exec` are drawn from it, not from the meanings unfolded again. -/

namespace Sys2Proof.Machine

/-! ## The shared shapes -/

theorem storeAndContinue_room {c : Config} {x : Vm} {n : Nat} {d v : Int} (h : legalAddr c d)
    (hr : writeRoom c x d) :
    storeAndContinue c x n d v = .ok (.continued (x.ip + n), (x.store d.toNat v).advance (x.ip + n)) := by
  simp [storeAndContinue, memWrite_room h hr, continueAt]

theorem storeAndContinue_full {c : Config} {x : Vm} {n : Nat} {d v : Int} (h : legalAddr c d)
    (hr : ¬ writeRoom c x d) : storeAndContinue c x n d v = .error ⟨.capacityExceeded, d⟩ := by
  simp [storeAndContinue, memWrite_full h hr]

theorem storeAndContinue_eq_ok {c : Config} {x y : Vm} {n : Nat} {d v : Int} {r : StepResult}
    (h : storeAndContinue c x n d v = .ok (r, y)) :
    writeRoom c x d ∧ r = .continued (x.ip + n) ∧ y = (x.store d.toNat v).advance (x.ip + n) := by
  obtain ⟨z, h1, h2⟩ := bind_eq_ok h
  obtain ⟨_, hr, rfl⟩ := memWrite_eq_ok h1
  simp [continueAt] at h2
  exact ⟨hr, h2.1.symm, h2.2.symm⟩

theorem threeOperand_resolved {op : Int → Int → Except Raise Int} {m1 m2 m3 : Mode} {c : Config} {x : Vm}
    {a1 a2 d : Int} (h1 : inputValue c x 1 m1 a1) (h2 : inputValue c x 2 m2 a2) (h3 : destAddr c x 3 m3 d) :
    threeOperand op m1 m2 m3 c x = (do
      let v ← op a1 a2
      storeAndContinue c x 4 d v) := by
  simp [threeOperand, resolveIn_value h1, resolveIn_value h2, resolveOut_addr h3]

theorem threeOperand_eq_ok {op : Int → Int → Except Raise Int} {m1 m2 m3 : Mode} {c : Config} {x y : Vm}
    {r : StepResult} (h : threeOperand op m1 m2 m3 c x = .ok (r, y)) :
    ∃ a1 a2 d v, inputValue c x 1 m1 a1 ∧ inputValue c x 2 m2 a2 ∧ destAddr c x 3 m3 d ∧ op a1 a2 = .ok v ∧
      writeRoom c x d ∧ r = .continued (x.ip + 4) ∧ y = (x.store d.toNat v).advance (x.ip + 4) := by
  obtain ⟨a1, h1, h⟩ := bind_eq_ok h
  obtain ⟨a2, h2, h⟩ := bind_eq_ok h
  obtain ⟨d, h3, h⟩ := bind_eq_ok h
  obtain ⟨v, h4, h⟩ := bind_eq_ok h
  obtain ⟨hr, h5, h6⟩ := storeAndContinue_eq_ok h
  exact ⟨a1, a2, d, v, resolveIn_eq_ok h1, resolveIn_eq_ok h2, resolveOut_eq_ok h3, h4, hr, h5, h6⟩

theorem jumpIf_resolved {taken : Int → Bool} {m1 m2 : Mode} {c : Config} {x : Vm} {a1 a2 : Int}
    (h1 : inputValue c x 1 m1 a1) (h2 : inputValue c x 2 m2 a2) :
    jumpIf taken m1 m2 c x = continueAt x (if taken a1 then a2 else x.ip + 3) := by
  simp [jumpIf, resolveIn_value h1, resolveIn_value h2]

theorem jumpIf_eq_ok {taken : Int → Bool} {m1 m2 : Mode} {c : Config} {x y : Vm} {r : StepResult}
    (h : jumpIf taken m1 m2 c x = .ok (r, y)) :
    ∃ a1 a2, inputValue c x 1 m1 a1 ∧ inputValue c x 2 m2 a2 ∧
      r = .continued (if taken a1 then a2 else x.ip + 3) ∧ y = x.advance (if taken a1 then a2 else x.ip + 3) := by
  obtain ⟨a1, h1, h⟩ := bind_eq_ok h
  obtain ⟨a2, h2, h⟩ := bind_eq_ok h
  refine ⟨a1, a2, resolveIn_eq_ok h1, resolveIn_eq_ok h2, ?_⟩
  simp only [continueAt, Except.ok.injEq, Prod.mk.injEq] at h
  exact ⟨h.1.symm, h.2.symm⟩

theorem exactWord_eq_ok {c : Config} {v w : Int} (h : exactWord c v = .ok w) : c.fits v = true ∧ w = v := by
  cases hf : c.fits v with
  | true => rw [exactWord_fits hf] at h; cases h; exact ⟨rfl, rfl⟩
  | false => rw [exactWord_not hf] at h; cases h

/-! ## What an instruction can do -/

/-- An instruction as what it comes to; `exec_eq` ties it to `exec`. -/
def executed (i : Instr) (c : Config) (x : Vm) : Executed :=
  match i with
  | .add m1 m2 m3 => threeOperand (aluAdd c) m1 m2 m3 c x
  | .mul m1 m2 m3 => threeOperand (aluMul c) m1 m2 m3 c x
  | .inp m1 => do
    let d ← resolveOut c x 1 m1
    inputTo c x d
  | .out m1 => do
    let a1 ← resolveIn c x 1 m1
    outputFrom c x a1
  | .jt m1 m2 => jumpIf (fun a => a != 0) m1 m2 c x
  | .jf m1 m2 => jumpIf (fun a => a == 0) m1 m2 c x
  | .lt m1 m2 m3 => threeOperand (fun a b => .ok (aluLt a b)) m1 m2 m3 c x
  | .eq m1 m2 m3 => threeOperand (fun a b => .ok (aluEq a b)) m1 m2 m3 c x
  | .arb m1 => do
    let a1 ← resolveIn c x 1 m1
    adjustBase c x a1
  | .halt => .ok (.halted, x.setHalted)

theorem exec_eq (i : Instr) (s : State) : exec i s = .next (s.finish (executed i s.cfg s.inst)) := by
  cases i <;> rfl

/-- The ways an instruction ends without a fault: what it returns and the instance after it. -/
inductive Effect (c : Config) (x : Vm) : Instr → StepResult → Vm → Prop
  | add {m1 m2 m3 : Mode} {a1 a2 d : Int} : inputValue c x 1 m1 a1 → inputValue c x 2 m2 a2 → destAddr c x 3 m3 d →
      c.fits (a1 + a2) = true → writeRoom c x d →
      Effect c x (.add m1 m2 m3) (.continued (x.ip + 4)) ((x.store d.toNat (a1 + a2)).advance (x.ip + 4))
  | mul {m1 m2 m3 : Mode} {a1 a2 d : Int} : inputValue c x 1 m1 a1 → inputValue c x 2 m2 a2 → destAddr c x 3 m3 d →
      c.fits (a1 * a2) = true → writeRoom c x d →
      Effect c x (.mul m1 m2 m3) (.continued (x.ip + 4)) ((x.store d.toNat (a1 * a2)).advance (x.ip + 4))
  | lt {m1 m2 m3 : Mode} {a1 a2 d : Int} : inputValue c x 1 m1 a1 → inputValue c x 2 m2 a2 → destAddr c x 3 m3 d →
      writeRoom c x d →
      Effect c x (.lt m1 m2 m3) (.continued (x.ip + 4)) ((x.store d.toNat (aluLt a1 a2)).advance (x.ip + 4))
  | eq {m1 m2 m3 : Mode} {a1 a2 d : Int} : inputValue c x 1 m1 a1 → inputValue c x 2 m2 a2 → destAddr c x 3 m3 d →
      writeRoom c x d →
      Effect c x (.eq m1 m2 m3) (.continued (x.ip + 4)) ((x.store d.toNat (aluEq a1 a2)).advance (x.ip + 4))
  | inp {m1 : Mode} {d v : Int} {rest : List Int} : destAddr c x 1 m1 d → x.inQ = v :: rest → writeRoom c x d →
      Effect c x (.inp m1) (.continued (x.ip + 2))
        ((Vm.store { x with inQ := rest } d.toNat v).advance (x.ip + 2))
  | inpWaits {m1 : Mode} {d : Int} : destAddr c x 1 m1 d → x.inQ = [] → x.inputPolicy = .suspend →
      Effect c x (.inp m1) .needsInput { x with runState := .awaitingInput }
  | out {m1 : Mode} {a1 : Int} : inputValue c x 1 m1 a1 → outputFull c x = false →
      Effect c x (.out m1) (.producedOutput a1) ((x.pushOut a1).advance (x.ip + 2))
  | outHolds {m1 : Mode} {a1 : Int} : inputValue c x 1 m1 a1 → outputFull c x = true →
      Effect c x (.out m1) .outputBlocked x
  | jt {m1 m2 : Mode} {a1 a2 : Int} : inputValue c x 1 m1 a1 → inputValue c x 2 m2 a2 →
      Effect c x (.jt m1 m2) (.continued (if a1 ≠ 0 then a2 else x.ip + 3))
        (x.advance (if a1 ≠ 0 then a2 else x.ip + 3))
  | jf {m1 m2 : Mode} {a1 a2 : Int} : inputValue c x 1 m1 a1 → inputValue c x 2 m2 a2 →
      Effect c x (.jf m1 m2) (.continued (if a1 = 0 then a2 else x.ip + 3))
        (x.advance (if a1 = 0 then a2 else x.ip + 3))
  | arb {m1 : Mode} {a1 : Int} : inputValue c x 1 m1 a1 → c.fits (x.rb + a1) = true →
      Effect c x (.arb m1) (.continued (x.ip + 2)) (Vm.advance { x with rb := x.rb + a1 } (x.ip + 2))
  | halt : Effect c x .halt .halted x.setHalted

theorem executed_eq_ok {i : Instr} {c : Config} {x y : Vm} {r : StepResult}
    (h : executed i c x = .ok (r, y)) : Effect c x i r y := by
  cases i with
  | add m1 m2 m3 =>
    obtain ⟨a1, a2, d, v, h1, h2, h3, hv, hr, rfl, rfl⟩ := threeOperand_eq_ok h
    obtain ⟨hf, rfl⟩ := exactWord_eq_ok hv
    exact .add h1 h2 h3 hf hr
  | mul m1 m2 m3 =>
    obtain ⟨a1, a2, d, v, h1, h2, h3, hv, hr, rfl, rfl⟩ := threeOperand_eq_ok h
    obtain ⟨hf, rfl⟩ := exactWord_eq_ok hv
    exact .mul h1 h2 h3 hf hr
  | lt m1 m2 m3 =>
    obtain ⟨a1, a2, d, v, h1, h2, h3, hv, hr, rfl, rfl⟩ := threeOperand_eq_ok h
    cases hv
    exact .lt h1 h2 h3 hr
  | eq m1 m2 m3 =>
    obtain ⟨a1, a2, d, v, h1, h2, h3, hv, hr, rfl, rfl⟩ := threeOperand_eq_ok h
    cases hv
    exact .eq h1 h2 h3 hr
  | inp m1 =>
    obtain ⟨d, h1, h⟩ := bind_eq_ok h
    have hd := resolveOut_eq_ok h1
    unfold inputTo at h
    split at h
    · rename_i hq
      split at h
      · rename_i hp
        cases h
        exact .inpWaits hd hq hp
      · cases h
    · rename_i v rest hq
      obtain ⟨hr, rfl, rfl⟩ := storeAndContinue_eq_ok h
      exact .inp hd hq hr
  | out m1 =>
    obtain ⟨a1, h1, h⟩ := bind_eq_ok h
    have ha := resolveIn_eq_ok h1
    unfold outputFrom at h
    split at h
    · rename_i hf
      cases h
      exact .outHolds ha hf
    · rename_i hf
      cases h
      exact .out ha (by simpa using hf)
  | jt m1 m2 =>
    obtain ⟨a1, a2, h1, h2, rfl, rfl⟩ := jumpIf_eq_ok h
    simpa using Effect.jt h1 h2
  | jf m1 m2 =>
    obtain ⟨a1, a2, h1, h2, rfl, rfl⟩ := jumpIf_eq_ok h
    simpa using Effect.jf h1 h2
  | arb m1 =>
    obtain ⟨a1, h1, h⟩ := bind_eq_ok h
    obtain ⟨r', hr, h⟩ := bind_eq_ok h
    obtain ⟨hf, rfl⟩ := exactWord_eq_ok hr
    cases h
    exact .arb (resolveIn_eq_ok h1) hf
  | halt => cases h; exact .halt

/-- Everything `exec` can do: one of the effects, or a fault taken. -/
theorem exec_cases {i : Instr} {s t : State} (h : exec i s = .next t) :
    (∃ r y, Effect s.cfg s.inst i r y ∧ t = { s with inst := y, reply := .stepResult r }) ∨
      ∃ e, t = s.finish (.error e) := by
  rw [exec_eq] at h
  cases he : executed i s.cfg s.inst with
  | ok p =>
    obtain ⟨r, y⟩ := p
    rw [he] at h
    cases h
    exact .inl ⟨r, y, executed_eq_ok he, rfl⟩
  | error e =>
    rw [he] at h
    cases h
    exact .inr ⟨e, rfl⟩

/-- Everything a step of the instance at the focus can do (R121, R122). -/
theorem engineStep_cases {s t : State} (h : engineStep s = .next t) :
    (∃ r, t = s.answer (.stepResult r) ∧
        ((s.inst.runState = .haltedNormally ∧ r = .halted) ∨
          (s.inst.runState = .faulted ∧ r = .faulted s.inst.fault.reason) ∨
          (s.inst.runState = .killed ∧ r = .killed))) ∨
      (s.inst.live = true ∧
        ((∃ e, t = s.finish (.error e)) ∨
          ∃ i r y, legalAddr s.cfg s.inst.ip ∧ decode (s.inst.wordAt s.inst.ip) = .ok i ∧
            Effect s.cfg s.inst i r y ∧ t = { s with inst := y, reply := .stepResult r })) := by
  have live : liveStep s = .next t →
      ((∃ e, t = s.finish (.error e)) ∨
        ∃ i r y, legalAddr s.cfg s.inst.ip ∧ decode (s.inst.wordAt s.inst.ip) = .ok i ∧
          Effect s.cfg s.inst i r y ∧ t = { s with inst := y, reply := .stepResult r }) := by
    intro h
    unfold liveStep at h
    split at h
    · rename_i e _
      cases h
      exact .inl ⟨e, rfl⟩
    · rename_i w hw
      obtain ⟨hl, rfl⟩ := memRead_eq_ok hw
      split at h
      · rename_i e _
        cases h
        exact .inl ⟨_, rfl⟩
      · rename_i i hi
        rcases exec_cases h with ⟨r, y, he, rfl⟩ | ⟨e, rfl⟩
        · exact .inr ⟨i, r, y, hl, hi, he, rfl⟩
        · exact .inl ⟨e, rfl⟩
  unfold engineStep at h
  cases hr : s.inst.runState <;> simp only [hr] at h
  · exact .inr ⟨by simp [Vm.live, hr], live h⟩
  · exact .inr ⟨by simp [Vm.live, hr], live h⟩
  · cases h; exact .inl ⟨_, rfl, .inl ⟨rfl, rfl⟩⟩
  · cases h; exact .inl ⟨_, rfl, .inr (.inl ⟨rfl, rfl⟩)⟩
  · cases h; exact .inl ⟨_, rfl, .inr (.inr ⟨rfl, rfl⟩)⟩

/-- A step of an instance always answers a next state. -/
theorem engineStep_next (s : State) : ∃ t, engineStep s = .next t := by
  have live : ∃ t, liveStep s = .next t := by
    unfold liveStep
    split
    · exact ⟨_, rfl⟩
    · split
      · exact ⟨_, rfl⟩
      · exact ⟨_, exec_eq _ s⟩
  unfold engineStep
  split
  · exact ⟨_, rfl⟩
  · exact ⟨_, rfl⟩
  · exact ⟨_, rfl⟩
  · exact live
  · exact live

/-- A step of an instance leaves the rest of the system. -/
theorem engineStep_rest {s t : State} (h : engineStep s = .next t) :
    t.cfg = s.cfg ∧ t.lower = s.lower ∧ t.upper = s.upper ∧ t.mux = s.mux ∧ t.runs = s.runs ∧ t.pending = s.pending := by
  rcases engineStep_cases h with ⟨r, rfl, _⟩ | ⟨_, ⟨e, rfl⟩ | ⟨i, r, y, _, _, _, rfl⟩⟩ <;> simp

/-- The bookkeeping of RUN touches the list of RUN commands alone. -/
theorem noteRun_rest (s : State) :
    s.noteRun.cfg = s.cfg ∧ s.noteRun.lower = s.lower ∧ s.noteRun.inst = s.inst ∧ s.noteRun.upper = s.upper ∧
      s.noteRun.mux = s.mux ∧ s.noteRun.pending = s.pending ∧ s.noteRun.reply = s.reply := by
  unfold State.noteRun
  split
  · split <;> simp
  · simp

theorem stepCurrent_eq {s t : State} (h : stepCurrent s = .next t) :
    ∃ u, engineStep s = .next u ∧ t = u.noteRun := by
  obtain ⟨u, hu⟩ := engineStep_next s
  rw [stepCurrent, hu] at h
  cases h
  exact ⟨u, hu, rfl⟩

theorem stepCurrent_next {s u : State} (h : engineStep s = .next u) : stepCurrent s = .next u.noteRun := by
  rw [stepCurrent, h]; rfl

end Sys2Proof.Machine
end

