-- ==== Sys2Proof/Laws/Instances.lean ====
section
/-! SUPPORT. The instances by number: changing one, and moving the focus. -/

namespace Sys2Proof.Machine

theorem length_insts (s : State) : s.insts.length = s.count := by
  simp [State.insts, State.count]; omega

theorem insts_modifyVm (s : State) (j : Nat) (f : Vm → Vm) : (s.modifyVm j f).insts = s.insts.modify j f := by
  unfold State.modifyVm State.insts
  by_cases h1 : j < s.lower.length
  · rw [if_pos h1]
    apply List.ext_getElem?
    intro k
    simp only [List.getElem?_modify, List.getElem?_append, List.length_modify]
    split
    · rfl
    · have : j ≠ k := by omega
      simp [this]
  · rw [if_neg h1]
    by_cases h2 : j = s.lower.length
    · rw [if_pos h2]
      apply List.ext_getElem?
      intro k
      simp only [List.getElem?_modify, List.getElem?_append]
      split
      · have : j ≠ k := by omega
        simp [this]
      · by_cases h3 : k = j
        · subst h3; simp [h2]
        · have : k - s.lower.length ≠ 0 := by omega
          obtain ⟨n, hn⟩ := Nat.exists_eq_succ_of_ne_zero this
          have : j ≠ k := by omega
          simp [hn, this]
    · rw [if_neg h2]
      apply List.ext_getElem?
      intro k
      simp only [List.getElem?_modify, List.getElem?_append]
      split
      · have : j ≠ k := by omega
        simp [this]
      · by_cases h3 : k = s.lower.length
        · subst h3
          have : j ≠ s.lower.length := h2
          simp [this]
        · obtain ⟨n, hn⟩ := Nat.exists_eq_succ_of_ne_zero (show k - s.lower.length ≠ 0 by omega)
          by_cases h4 : j = k
          · subst h4
            simp [hn]
          · have h5 : j - s.lower.length - 1 ≠ n := by omega
            simp [hn, h4, h5]

theorem modifyVm_rest (s : State) (j : Nat) (f : Vm → Vm) :
    (s.modifyVm j f).cfg = s.cfg ∧ (s.modifyVm j f).mux = s.mux ∧ (s.modifyVm j f).runs = s.runs ∧
      (s.modifyVm j f).pending = s.pending ∧ (s.modifyVm j f).reply = s.reply := by
  unfold State.modifyVm
  split
  · simp
  · split <;> simp

theorem count_modifyVm (s : State) (j : Nat) (f : Vm → Vm) : (s.modifyVm j f).count = s.count := by
  rw [← length_insts, ← length_insts, insts_modifyVm, List.length_modify]

theorem current_modifyVm (s : State) (j : Nat) (f : Vm → Vm) : (s.modifyVm j f).current = s.current := by
  unfold State.modifyVm State.current
  split
  · simp
  · split <;> simp

/-- Where there is an instance `j`, changing it to `y` sets it in the list. -/
theorem insts_modifyVm_const (s : State) (j : Nat) (y : Vm) :
    (s.modifyVm j (fun _ => y)).insts = s.insts.set j y := by
  rw [insts_modifyVm]
  apply List.ext_getElem?
  intro k
  by_cases h : j = k
  · subst h
    simp only [List.getElem?_modify_eq, List.getElem?_set_self']
    cases s.insts[j]? <;> rfl
  · simp [h]

theorem vm_lt {s : State} {j : Nat} {x : Vm} (h : s.vm? j = some x) : j < s.count := by
  rw [← length_insts]
  exact (List.getElem?_eq_some_iff.1 h).1

theorem vm_current (s : State) : s.vm? s.current = some s.inst := by
  simp [State.vm?, State.insts, State.current]

theorem focus_eq {s : State} {j : Nat} {x : Vm} (h : s.vm? j = some x) :
    s.focus j = { s with lower := s.insts.take j, inst := x, upper := s.insts.drop (j + 1) } := by
  have hj : j < s.insts.length := (List.getElem?_eq_some_iff.1 h).1
  have hx : s.insts[j] = x := (List.getElem?_eq_some_iff.1 h).2
  unfold State.focus
  rw [List.drop_eq_getElem_cons hj, hx]

theorem insts_focus (s : State) (j : Nat) : (s.focus j).insts = s.insts := by
  by_cases hj : j < s.insts.length
  · have h : s.vm? j = some s.insts[j] := List.getElem?_eq_getElem hj
    rw [focus_eq h]
    show s.insts.take j ++ s.insts[j] :: s.insts.drop (j + 1) = s.insts
    rw [← List.drop_eq_getElem_cons hj, List.take_append_drop]
  · unfold State.focus
    rw [List.drop_eq_nil_of_le (by omega)]

theorem focus_rest (s : State) (j : Nat) :
    (s.focus j).cfg = s.cfg ∧ (s.focus j).mux = s.mux ∧ (s.focus j).runs = s.runs ∧
      (s.focus j).pending = s.pending ∧ (s.focus j).reply = s.reply := by
  unfold State.focus
  split <;> simp

theorem current_focus {s : State} {j : Nat} {x : Vm} (h : s.vm? j = some x) : (s.focus j).current = j := by
  have hj : j < s.insts.length := (List.getElem?_eq_some_iff.1 h).1
  rw [focus_eq h]
  simp [State.current]; omega

theorem inst_focus {s : State} {j : Nat} {x : Vm} (h : s.vm? j = some x) : (s.focus j).inst = x := by
  rw [focus_eq h]

end Sys2Proof.Machine
end

