-- ==== Sys2Proof/Laws/System.lean ====
section
/-! SUPPORT. What a step of the whole machine comes to, event by event, and what it keeps. -/

namespace Sys2Proof.Machine

theorem live_iff (x : Vm) : x.live = true ↔ x.isLive := by
  unfold Vm.live Vm.isLive
  cases x.runState <;> simp

theorem ready_iff (x : Vm) : x.ready = true ↔ x.isReady := by
  unfold Vm.ready Vm.isReady
  cases x.runState <;> simp

theorem terminal_iff (x : Vm) : x.runState.terminal ↔ x.live = false := by
  unfold Vm.live RunState.terminal
  cases x.runState <;> simp

theorem hasRoom_iff {c : Config} {x : Vm} {k : Nat} : hasRoom c.inDepth x.inQ k = true ↔ inputRoom c x k := by
  unfold hasRoom inputRoom
  cases c.inDepth <;> simp

theorem mem_insts {s : State} {j : Nat} {x : Vm} (h : s.vm? j = some x) : x ∈ s.insts := List.mem_of_getElem? h

/-! ## A step by its event -/

theorem step_nil {s : State} (h : s.pending = []) : step s = stepCurrent s := by
  simp [step, systemStep, h]

theorem step_cons {s : State} {e : Event} {rest : List Event} (h : s.pending = e :: rest) :
    step s = perform e { s with pending := rest } := by
  simp [step, systemStep, h]

theorem engineStep_live {s : State} (h : s.inst.isLive) : engineStep s = liveStep s := by
  unfold engineStep
  rcases h with h | h <;> rw [h]

theorem liveStep_exec {s : State} {i : Instr} (hl : legalAddr s.cfg s.inst.ip)
    (hd : decode (s.inst.wordAt s.inst.ip) = .ok i) : liveStep s = exec i s := by
  simp [liveStep, fetch_legal hl, hd]

theorem noteRun_nil {s : State} (h : s.runs = []) : s.noteRun = s := by
  unfold State.noteRun
  simp [h]

/-- A step with no event waiting is a step of the engine, with RUN's bookkeeping after it. -/
theorem step_engine {s t : State} (hp : s.pending = []) (h : step s = .next t) :
    ∃ u, engineStep s = .next u ∧ t = u.noteRun := by
  rw [step_nil hp] at h
  exact stepCurrent_eq h

theorem engineStep_reply {s t : State} (h : engineStep s = .next t) : ∃ r, t.reply = .stepResult r := by
  rcases engineStep_cases h with ⟨r, rfl, _⟩ | ⟨_, ⟨e, rfl⟩ | ⟨i, r, y, _, _, _, rfl⟩⟩ <;> exact ⟨_, rfl⟩

/-! ## What an event keeps -/

/-- The part of the system that no command and no step of the mux changes. -/
def Kept (s t : State) : Prop :=
  t.current = s.current ∧ t.cfg = s.cfg ∧ t.runs = s.runs ∧ t.pending = s.pending

theorem Kept.same (s : State) : Kept s s := ⟨rfl, rfl, rfl, rfl⟩

theorem Kept.trans {s t u : State} (h : Kept s t) (g : Kept t u) : Kept s u :=
  ⟨g.1.trans h.1, g.2.1.trans h.2.1, g.2.2.1.trans h.2.2.1, g.2.2.2.trans h.2.2.2⟩

theorem kept_modifyVm (s : State) (j : Nat) (f : Vm → Vm) : Kept s (s.modifyVm j f) :=
  ⟨current_modifyVm .., (modifyVm_rest s j f).1, (modifyVm_rest s j f).2.2.1, (modifyVm_rest s j f).2.2.2.1⟩

theorem vm_modifyVm (s : State) (i j : Nat) (f : Vm → Vm) :
    (s.modifyVm i f).vm? j = if i = j then (s.vm? j).map f else s.vm? j := by
  unfold State.vm?
  rw [insts_modifyVm, List.getElem?_modify]
  split <;> simp

/-- Everything a command does (R200): its reply, and its change of the one instance. -/
theorem command_gives {s : State} {j : Nat} {x : Vm} {f : Vm → Reply × Vm} {e : Event} {rest : List Event}
    (hp : s.pending = e :: rest) (hx : s.vm? j = some x)
    (he : perform e { s with pending := rest } = .next (State.command { s with pending := rest } j f)) :
    commandGives s j (f x).1 (f x).2 := by
  have hx' : State.vm? { s with pending := rest } j = some x := hx
  refine ⟨_, (step_cons hp).trans he, ?_⟩
  unfold State.command
  rw [hx']
  have hr := modifyVm_rest { s with pending := rest } j (fun _ => (f x).2)
  refine ⟨rfl, insts_modifyVm_const { s with pending := rest } j _, current_modifyVm { s with pending := rest } j _,
    hr.1, hr.2.1, hr.2.2.1, ?_⟩
  rw [hp]
  exact hr.2.2.2.1

end Sys2Proof.Machine
end

