-- ==== Sys2Proof/Laws/Mux.lean ====
section
/-! SUPPORT. What the steps of the mux come to. `Leaves s r xs m` says once that a step `r` taken in `s` is enabled and leaves
the instances `xs` and the mux `m`, the rest being kept. -/

namespace Sys2Proof.Machine

/-- The step `r` of the mux is enabled, and leaves the instances `xs` and the mux `m`. -/
def Leaves (s : State) (r : Option State) (xs : List Vm) (m : Mux) : Prop :=
  ∃ t, r = some t ∧ Kept s t ∧ t.insts = xs ∧ t.mux = m

theorem leaves_some (s : State) : Leaves s (some s) s.insts s.mux := ⟨s, rfl, Kept.same s, rfl, rfl⟩

theorem Leaves.thenMux {s : State} {r : Option State} {xs : List Vm} {m : Mux} (h : Leaves s r xs m) (f : Mux → Mux) :
    Leaves s (r.map (fun t => t.modifyMux f)) xs (f m) := by
  obtain ⟨t, rfl, hk, rfl, rfl⟩ := h
  exact ⟨t.modifyMux f, rfl, hk, rfl, rfl⟩

theorem Leaves.before {s t : State} {r : Option State} {xs : List Vm} {m : Mux} (hk : Kept s t) (h : Leaves t r xs m) :
    Leaves s r xs m := by
  obtain ⟨u, rfl, hk', rfl, rfl⟩ := h
  exact ⟨u, rfl, hk.trans hk', rfl, rfl⟩

/-- A step of the machine whose event is the mux step `r`. -/
theorem Leaves.gives {s : State} {e : Event} {rest : List Event} {r : Option State} {xs : List Vm} {m : Mux}
    (hp : s.pending = e :: rest)
    (he : perform e { s with pending := rest } = State.takeMux { s with pending := rest } r)
    (h : Leaves { s with pending := rest } r xs m) : muxGives s xs m := by
  obtain ⟨t, rfl, hk, rfl, rfl⟩ := h
  refine ⟨t.answer .muxStep, by rw [step_cons hp, he]; rfl, rfl, rfl, rfl, hk.1, hk.2.1, hk.2.2.1, ?_⟩
  rw [hp]
  exact hk.2.2.2

/-- A step of the machine whose event is a mux step that is not enabled. -/
theorem answers_notEnabled {s : State} {e : Event} {rest : List Event} {r : Option State} (hp : s.pending = e :: rest)
    (he : perform e { s with pending := rest } = State.takeMux { s with pending := rest } r) (hr : r = none) :
    onlyAnswers s .notEnabled := by
  unfold onlyAnswers
  rw [step_cons hp, he, hr, hp]
  rfl

/-- Everything a delivery does (R236, R240, R243). -/
theorem deliver_cases {s : State} {d : Nat} {y : Vm} {vs : List Int} (hy : s.vm? d = some y) :
    (y.runState = .killed → s.deliver d vs = some s) ∧
    (y.runState ≠ .killed → inputRoom s.cfg y vs.length → s.deliver d vs = some (s.modifyVm d (Vm.pushIn vs))) ∧
    (y.runState ≠ .killed → ¬ inputRoom s.cfg y vs.length → s.deliver d vs = none) := by
  unfold State.deliver
  simp only [hy]
  refine ⟨fun h => by simp [h], fun h hr => by simp [h, hasRoom_iff.2 hr], fun h hr => ?_⟩
  rw [← hasRoom_iff] at hr
  simp [h, hr]

theorem deliver_leaves {s : State} {d : Nat} {y : Vm} {vs : List Int} (hy : s.vm? d = some y) :
    (y.runState = .killed → Leaves s (s.deliver d vs) s.insts s.mux) ∧
    (y.runState ≠ .killed → inputRoom s.cfg y vs.length →
      Leaves s (s.deliver d vs) (s.insts.modify d (fun z => { z with inQ := z.inQ ++ vs })) s.mux) ∧
    (y.runState ≠ .killed → ¬ inputRoom s.cfg y vs.length → s.deliver d vs = none) := by
  obtain ⟨h1, h2, h3⟩ := deliver_cases (vs := vs) hy
  refine ⟨fun h => ?_, fun h h' => ?_, h3⟩
  · rw [h1 h]; exact leaves_some s
  · rw [h2 h h']; exact ⟨_, rfl, kept_modifyVm .., insts_modifyVm .., (modifyVm_rest ..).2.1⟩

/-- A ROUTE pops the front word and routes it (R236, R239). -/
theorem route_eq {s : State} {i : Nat} {x : Vm} {v : Int} {more : List Int} (ha : s.mux.status = .active)
    (hx : s.vm? i = some x) (hq : x.outQ = v :: more) :
    route i s = (routeWord i v (s.modifyVm i Vm.popOut)).map (fun t => t.modifyMux Mux.clearCounts) := by
  unfold route
  simp [ha, hx, hq]

theorem route_inactive {s : State} {i : Nat} (h : s.mux.status ≠ .active) : route i s = none := by
  unfold route
  split
  · exact absurd ‹_› h
  · rfl

theorem mayStep_iff {s : State} {j : Nat} {x : Vm} (ha : s.mux.status = .active) (hx : s.vm? j = some x) :
    s.mayStep j = true ↔ x.isReady := by
  unfold State.mayStep
  simp [ha, hx, ready_iff]

/-- What the pop of the front output word leaves for the rest of a ROUTE. -/
structure Popped (s t : State) (i : Nat) (x : Vm) (more : List Int) : Prop where
  kept : Kept s t
  insts : t.insts = s.insts.set i { x with outQ := more }
  mux : t.mux = s.mux
  count : t.count = s.count
  vm : ∀ j y, s.vm? j = some y →
    ∃ z, t.vm? j = some z ∧ z.runState = y.runState ∧ ∀ c k, inputRoom c z k ↔ inputRoom c y k

theorem popped {s : State} {i : Nat} {x : Vm} {v : Int} {more : List Int} (hx : s.vm? i = some x)
    (hq : x.outQ = v :: more) : Popped s (s.modifyVm i Vm.popOut) i x more := by
  refine ⟨kept_modifyVm .., ?_, (modifyVm_rest ..).2.1, count_modifyVm .., fun j y hy => ?_⟩
  · rw [insts_modifyVm]
    apply List.ext_getElem?
    intro k
    by_cases h : i = k
    · subst h
      have : s.insts[i]? = some x := hx
      simp only [List.getElem?_modify_eq, List.getElem?_set_self', this]
      simp [Vm.popOut, hq]
    · simp [h]
  · rw [vm_modifyVm]
    by_cases h : i = j
    · subst h
      rw [hx] at hy
      cases hy
      exact ⟨x.popOut, by simp [hx], rfl, fun _ _ => Iff.rfl⟩
    · exact ⟨y, by simp [h, hy], rfl, fun _ _ => Iff.rfl⟩

end Sys2Proof.Machine
end

