-- ==== Sys2Proof/Laws/PerInstr.lean ====
section
/-! SUPPORT. One family of facts about an instruction as syntax, a lemma for each constructor: its length, its modes and its
parameter kinds agree, as R82 lays them out. -/

namespace Sys2Proof.Laws.Shape

/-- The decoder's outputs for an instruction agree with R82: the opcode is supported, the length is one more than the number
of parameters, and there is a mode for each parameter. -/
def Statement (i : Instr) : Prop :=
  ∃ kinds, paramKinds i.opcode = some kinds ∧ i.modes.length = kinds.length ∧ i.length = kinds.length + 1 ∧ i.length ≤ 4

theorem add (m1 m2 m3 : Mode) : Statement (.add m1 m2 m3) := ⟨_, rfl, rfl, rfl, le_refl 4⟩
theorem mul (m1 m2 m3 : Mode) : Statement (.mul m1 m2 m3) := ⟨_, rfl, rfl, rfl, le_refl 4⟩
theorem inp (m1 : Mode) : Statement (.inp m1) := ⟨_, rfl, rfl, rfl, (by decide : (2 : Nat) ≤ 4)⟩
theorem out (m1 : Mode) : Statement (.out m1) := ⟨_, rfl, rfl, rfl, (by decide : (2 : Nat) ≤ 4)⟩
theorem jt (m1 m2 : Mode) : Statement (.jt m1 m2) := ⟨_, rfl, rfl, rfl, (by decide : (3 : Nat) ≤ 4)⟩
theorem jf (m1 m2 : Mode) : Statement (.jf m1 m2) := ⟨_, rfl, rfl, rfl, (by decide : (3 : Nat) ≤ 4)⟩
theorem lt (m1 m2 m3 : Mode) : Statement (.lt m1 m2 m3) := ⟨_, rfl, rfl, rfl, le_refl 4⟩
theorem eq (m1 m2 m3 : Mode) : Statement (.eq m1 m2 m3) := ⟨_, rfl, rfl, rfl, le_refl 4⟩
theorem arb (m1 : Mode) : Statement (.arb m1) := ⟨_, rfl, rfl, rfl, (by decide : (2 : Nat) ≤ 4)⟩
theorem halt : Statement .halt := ⟨_, rfl, rfl, rfl, (by decide : (1 : Nat) ≤ 4)⟩

end Sys2Proof.Laws.Shape
end

