-- ==== Sys2Proof/Laws/Words.lean ====
section
/-! SUPPORT. Which values are words: a legal address, 0 and 1, what memory holds, what an operand resolves to. -/

namespace Sys2Proof.Machine

theorem fits_iff (c : Config) (v : Int) :
    c.fits v = true ↔ ∀ w, c.wordBits = some w → wordMin w ≤ v ∧ v ≤ wordMax w := by
  unfold Config.fits
  cases c.wordBits <;> simp

theorem fits_address {c : Config} (hc : c.wf = true) {a : Int} (h : legalAddr c a) : c.fits a = true := by
  rw [fits_iff]
  intro w hw
  unfold Config.wf at hc
  rw [hw] at hc
  cases hl : c.addrLimit with
  | none => simp [hl] at hc
  | some l =>
    have h2 := h.2 l hl
    have h1 := h.1
    simp only [hl, Bool.and_eq_true, decide_eq_true_eq] at hc
    have h3 : (l : Int) ≤ (2 : Int) ^ (w - 1) := by exact_mod_cast hc.2
    have h0 : (0 : Int) ≤ (2 : Int) ^ (w - 1) := by positivity
    unfold wordMin wordMax
    constructor <;> linarith

theorem fits_small {c : Config} (hc : c.wf = true) {a : Int} (h0 : -1 ≤ a) (h1 : a ≤ 1) : c.fits a = true := by
  rw [fits_iff]
  intro w hw
  unfold Config.wf at hc
  rw [hw, Bool.and_eq_true, decide_eq_true_eq] at hc
  have h2 : (2 : Int) ^ 1 ≤ (2 : Int) ^ (w - 1) := pow_le_pow_right₀ (by norm_num) (by omega)
  unfold wordMin wordMax
  constructor <;> linarith

theorem fits_read {c : Config} (hc : c.wf = true) {m : Memory} (h : ∀ p ∈ m, c.fits p.2 = true) (a : Nat) :
    c.fits (m.read a) = true := by
  induction m with
  | nil => exact fits_small hc (by simp [Memory.read]) (by simp [Memory.read])
  | cons p rest ih =>
    obtain ⟨b, w⟩ := p
    simp only [Memory.read]
    split
    · exact h (b, w) (by simp)
    · exact ih (fun q hq => h q (by simp [hq]))

theorem fits_inputValue {c : Config} (hc : c.wf = true) {x : Vm} (h : ∀ p ∈ x.mem, c.fits p.2 = true) {k : Nat}
    {m : Mode} {v : Int} (hv : inputValue c x k m v) : c.fits v = true := by
  obtain ⟨_, hm⟩ := hv
  cases m <;> simp only at hm
  · rw [hm.2]; exact fits_read hc h _
  · rw [hm]; exact fits_read hc h _
  · rw [hm.2]; exact fits_read hc h _

/-- The destination address is determined. -/
theorem destAddr_unique {c : Config} {x : Vm} {k : Nat} {m : Mode} {d e : Int} (h : destAddr c x k m d)
    (g : destAddr c x k m e) : d = e := by
  cases m <;> simp [destAddr] at h g <;> omega

end Sys2Proof.Machine
end

