-- ==== Sys2Proof/Tests/Slice0.lean ====
section
/-! SUPPORT. The model's own tests: ill-formed terms, words written out digit by digit from R82 and R86, single steps whose
expected values are the vectors of 95_test_vectors.md (named `V-…` there), and a witness for the hypotheses of every statement. -/

namespace Sys2Proof.Tests

open Sys2Proof.Machine

/-! ## Well-formedness -/

theorem test_wf_add_immediate_destination : (Instr.add .position .position .immediate).wf = false := by decide
theorem test_wf_mul_immediate_destination : (Instr.mul .immediate .relative .immediate).wf = false := by decide
theorem test_wf_inp_immediate_destination : (Instr.inp .immediate).wf = false := by decide
theorem test_wf_lt_immediate_destination : (Instr.lt .position .immediate .immediate).wf = false := by decide
theorem test_wf_eq_immediate_destination : (Instr.eq .relative .position .immediate).wf = false := by decide
theorem test_wf_immediate_inputs_are_legal :
    (Instr.add .immediate .immediate .relative).wf = true ∧ (Instr.out .immediate).wf = true ∧
      (Instr.jt .immediate .immediate).wf = true := by decide
theorem test_literals_one_for_each_parameter :
    (Instr.add .position .position .position).literalsOk [1, 2] = false ∧ Instr.halt.literalsOk [0] = false ∧
      (Instr.inp .position).literalsOk [-1] = true := by decide

/-! ## Words -/

/-- V-E-13's `1104`: opcode digits 04, `m1 = 1`, the digit 1 at position 3 not consumed. Every other word here is `op + 100*m1 +
1000*m2 + 10000*m3` written out from R82 and R86. -/
theorem test_decode_add : decode 21001 = .ok (.add .position .immediate .relative) := by decide
theorem test_decode_mul : decode 1202 = .ok (.mul .relative .immediate .position) := by decide
theorem test_decode_in : decode 203 = .ok (.inp .relative) := by decide
theorem test_decode_out : decode 1104 = .ok (.out .immediate) := by decide
theorem test_decode_jt : decode 2105 = .ok (.jt .immediate .relative) := by decide
theorem test_decode_jf : decode 1006 = .ok (.jf .position .immediate) := by decide
theorem test_decode_lt : decode 21107 = .ok (.lt .immediate .immediate .relative) := by decide
theorem test_decode_eq : decode 1008 = .ok (.eq .position .immediate .position) := by decide
theorem test_decode_arb : decode 109 = .ok (.arb .immediate) := by decide
theorem test_decode_halt : decode 30099 = .ok .halt := by decide
/-- V-E-15 and V-E-4, V-E-6: a bad digit, an unsupported opcode, a negative word. -/
theorem test_decode_rejects :
    decode 301 = .error (.invalidAddressingMode 3) ∧ decode 98 = .error (.invalidOpcode 98) ∧
      decode (-99) = .error (.invalidOpcode (-99)) := by decide
/-- R103's examples: `ADD 100, #1, 100` and `OUT rb-1`. -/
theorem test_encode :
    encode (.add .position .immediate .position) [100, 1, 100] = [1001, 100, 1, 100] ∧
      encode (.out .relative) [-1] = [204, -1] := by decide
/-- A row's word with every operand word 0, as the host lays it. -/
theorem test_decodeTableWord : decodeTableWord 8 99 = some .halt ∧ decodeTableWord 16 1104 = some (.out .immediate) := by decide

/-! ## Single steps -/

/-- A machine whose instance has just loaded a program (R201). -/
def loaded (program : List Int) : State := { State.reset with inst := Vm.loaded program }

/-- The next state of an outcome, if it is one. -/
def after (o : Host.Outcome State Fault Refusal) : Option State :=
  match o with
  | .next t => some t
  | .fault _ => none
  | .refused _ => none

/-- What one step leaves of the instance, as far as `f` looks at it. -/
def stepped {α : Type} (s : State) (f : Vm → α) : Option α := (after (step s)).map (fun t => f t.inst)

/-- What one step hands to the host. -/
def answered (s : State) : Option Reply := (after (step s)).map State.reply

/-- V-A-6: the destination is an input. -/
theorem test_add_reads_before_it_writes :
    stepped (loaded [1, 5, 5, 5, 99, 7]) (fun x => (x.mem.read 5, x.ip)) = some (14, 4) := by decide
/-- V-A-3: `WMAX + 1`. -/
theorem test_add_overflows :
    answered (loaded [1101, 9223372036854775807, 1, 5, 99, 0]) =
      some (.stepResult (.faulted (some .arithmeticOverflow))) := by decide
/-- V-A-10: the largest square that is a word. -/
theorem test_mul_is_exact :
    stepped (loaded [1102, 3037000499, 3037000499, 5, 99, 0]) (fun x => x.mem.read 5) = some 9223372030926249001 := by decide
/-- V-A-12: `WMIN * (-1)`. -/
theorem test_mul_overflows :
    answered (loaded [1102, -9223372036854775808, -1, 5, 99, 0]) =
      some (.stepResult (.faulted (some .arithmeticOverflow))) := by decide
/-- V-I-1. -/
theorem test_in_pops_the_front :
    stepped { loaded [3, 5, 99, 0, 0, 0] with inst := { Vm.loaded [3, 5, 99, 0, 0, 0] with inQ := [42] } }
      (fun x => (x.mem.read 5, x.inQ, x.ip)) = some (42, [], 2) := by decide
/-- V-I-4: the address comes before the queue. -/
theorem test_in_checks_its_destination_first :
    answered (loaded [203, -1, 99]) = some (.stepResult (.faulted (some .invalidAddress))) := by decide
/-- V-L1-3. -/
theorem test_out_takes_a_whole_literal :
    stepped (loaded [104, 1125899906842624, 99]) (fun x => (x.outQ, x.ip)) = some ([1125899906842624], 2) := by decide
/-- V-J-6: a negative target is loaded as it is. -/
theorem test_jt_loads_any_target : stepped (loaded [1105, 1, -3, 99]) Vm.ip = some (-3) := by decide
/-- V-J-3: a negative value is true. -/
theorem test_jt_negative_is_true : stepped (loaded [1105, -1, 4, 99, 104, 7, 99]) Vm.ip = some 4 := by decide
/-- V-J-5: not taken. -/
theorem test_jf_falls_through : stepped (loaded [1106, 5, 4, 99]) Vm.ip = some 3 := by decide
/-- V-J-4: taken. -/
theorem test_jf_jumps_on_zero : stepped (loaded [1106, 0, 4, 99, 104, 8, 99]) Vm.ip = some 4 := by decide
/-- V-C-4: the comparison is signed. -/
theorem test_lt_is_signed :
    stepped (loaded [1107, -9223372036854775808, 9223372036854775807, 5, 99, 0]) (fun x => x.mem.read 5) = some 1 := by decide
/-- V-C-3. -/
theorem test_lt_greater_gives_zero :
    stepped (loaded [1107, 3, -5, 5, 99, 0]) (fun x => x.mem.read 5) = some 0 := by decide
/-- V-C-8: the output overwrites an operand. -/
theorem test_eq_overwrites_an_operand :
    stepped (loaded [8, 5, 6, 5, 99, 3, 3]) (fun x => x.mem.read 5) = some 1 := by decide
/-- V-R-8: ARB resolves its own operand with the base before it. -/
theorem test_arb_uses_the_old_base : stepped (loaded [209, 3, 99, -7]) (fun x => (x.rb, x.ip)) = some (-7, 2) := by decide
/-- V-R-4, its second step. -/
theorem test_arb_overflows :
    answered { loaded [109, 1] with inst := { Vm.loaded [109, 1] with rb := 9223372036854775807 } } =
      some (.stepResult (.faulted (some .arithmeticOverflow))) := by decide
/-- V-E-1, and its `STATUS`. -/
theorem test_halt_keeps_its_address :
    stepped (loaded [99]) (fun x => (x.ip, x.halted, x.status)) = some (0, true, 10) := by decide
/-- V-H-8: a step of a machine with nothing loaded, and V-E-3's `STATUS`. -/
theorem test_power_on_step_faults : stepped State.reset (fun x => (x.fault.ip, x.status)) = some (0, 275) := by decide
/-- V-E-8's `STATUS`: both validity bits. -/
theorem test_bad_mode_status : stepped (loaded [301, 0, 0, 0, 99]) Vm.status = some 819 := by decide
/-- V-M-9: a write of 0 allocates too. -/
theorem test_capacity_counts_a_zero :
    answered { loaded [1101, 0, 0, 10, 99] with cfg := { Config.hardware with capacity := some 5 } } =
      some (.stepResult (.faulted (some .capacityExceeded))) := by decide
/-- The host's word is the next instruction that runs: `104` with a literal 0 outputs 0, and so runs as the first after reset. -/
theorem test_withFetchWord : answered (State.reset.withFetchWord 8 104) = some (.stepResult (.producedOutput 0)) := by decide
/-- V-X-1's first ROUTE, from instance 0 to instance 1. -/
theorem test_route_to_the_next_instance :
    (after (step { State.powerOn Config.hardware MuxConfig.hardware 1 with
      inst := { Vm.powerOn with outQ := [6] }, pending := [.route 0] })).map (fun t => t.insts.map (fun x => (x.inQ, x.outQ))) =
      some [([], []), ([6], [])] := by decide

/-! ## Witnesses: concrete states and operands that meet the hypotheses of each statement, one for each clause

A machine with small finite parameters reaches the clauses that the hardware's own parameters do not. -/

/-- Sixteen addresses, a footprint of five, FIFOs of two and one. -/
def small : Config where
  wordBits := some 64
  addrLimit := some 16
  capacity := some 5
  inDepth := some 2
  outDepth := some 1

/-- A machine with small parameters whose instance has just loaded a program. -/
def smallLoaded (program : List Int) : State := { loaded program with cfg := small }

/-- The instance of `s` changed. -/
def withInst (s : State) (f : Vm → Vm) : State := { s with inst := f s.inst }

theorem legal_hardware {a : Int} (h0 : 0 ≤ a) (h1 : a < 9223372036854775808) : legalAddr Config.hardware a :=
  ⟨h0, fun l hl => by cases hl; exact h1⟩

theorem legal_small {a : Int} (h0 : 0 ≤ a) (h1 : a < 16) : legalAddr small a :=
  ⟨h0, fun l hl => by cases hl; exact h1⟩

theorem witness_DecodeInvertsEncode :
    (Instr.add .relative .immediate .relative).wf = true ∧
      (Instr.add .relative .immediate .relative).literalsOk [5, -1, 7] = true := by decide

theorem witness_DecodedWordIsItsEncoding : decode 30099 = .ok .halt := by decide

theorem witness_UnconsumedDigitsAreIgnored : paramKinds (30099 % 100) = some [] := by decide

theorem witness_DecodeRejectsByRule_negative : (-1 : Int) < 0 := by decide
theorem witness_DecodeRejectsByRule_opcode :
    0 % 100 ∉ [1, 2, 3, 4, 5, 6, 7, 8, 9, 99] ∧ 10 % 100 ∉ [1, 2, 3, 4, 5, 6, 7, 8, 9, 99] ∧
      98 % 100 ∉ [1, 2, 3, 4, 5, 6, 7, 8, 9, 99] := by decide
theorem witness_DecodeRejectsByRule_digit :
    paramKinds (301 % 100) = some [.input, .input, .output] ∧ badDigit .input (dig 301 2) ∧
      paramKinds (11101 % 100) = some [.input, .input, .output] ∧ badDigit .output (dig 11101 4) ∧
      ∀ (j : Nat) (other : ParamKind), j < 2 → [ParamKind.input, .input, .output][j]? = some other →
        ¬ badDigit other (dig 11101 (j + 2)) := by
  refine ⟨rfl, .inl (by decide), rfl, .inr ⟨rfl, by decide⟩, fun j other hj ho => ?_⟩
  rcases j with _ | _ | j
  · cases ho; exact fun h => h.elim (by decide) (fun h => by cases h.1)
  · cases ho; exact fun h => h.elim (by decide) (fun h => by cases h.1)
  · omega

theorem witness_DecodeAcceptsLegalWords :
    paramKinds (203 % 100) = some [.output] ∧
      ∀ (k : Nat) (kind : ParamKind), [ParamKind.output][k]? = some kind → ¬ badDigit kind (dig 203 (k + 2)) := by
  refine ⟨rfl, fun k kind hk => ?_⟩
  rcases k with _ | k
  · cases hk; exact fun h => h.elim (by decide) (fun h => absurd h.2 (by decide))
  · simp at hk

theorem witness_StepRunsTheDecodedInstruction :
    (loaded [99]).pending = [] ∧ (loaded [99]).inst.isLive ∧ legalAddr (loaded [99]).cfg (loaded [99]).inst.ip ∧
      decode ((loaded [99]).inst.wordAt (loaded [99]).inst.ip) = .ok .halt ∧ (loaded [99]).runs = [] :=
  ⟨rfl, .inl rfl, legal_hardware (by decide) (by decide), by decide, rfl⟩

theorem witness_FetchFaults_negative :
    (withInst (loaded [99]) (fun x => { x with ip := -1 })).inst.isLive ∧
      addressFault (loaded [99]).cfg (withInst (loaded [99]) (fun x => { x with ip := -1 })).inst.ip .invalidAddress :=
  ⟨.inl rfl, .inl ⟨by decide, rfl⟩⟩
theorem witness_FetchFaults_limit :
    (withInst (smallLoaded [99]) (fun x => { x with ip := 16 })).inst.isLive ∧
      addressFault small (withInst (smallLoaded [99]) (fun x => { x with ip := 16 })).inst.ip .addressOutOfRange :=
  ⟨.inl rfl, .inr ⟨by decide, rfl, 16, rfl, by decide⟩⟩
theorem witness_FetchFaults_zero :
    State.reset.pending = [] ∧ State.reset.inst.isLive ∧ legalAddr State.reset.cfg State.reset.inst.ip ∧
      State.reset.inst.wordAt State.reset.inst.ip = 0 ∧ (∀ p ∈ State.reset.inst.mem, p.1 ∈ State.reset.inst.fp) ∧
      State.reset.inst.ip.toNat ∉ State.reset.inst.fp :=
  ⟨rfl, .inl rfl, legal_hardware (by decide) (by decide), by decide, by decide, by decide⟩

theorem witness_DecoderFaults :
    (loaded [-99]).inst.isLive ∧ decode ((loaded [-99]).inst.wordAt (loaded [-99]).inst.ip) = .error (.invalidOpcode (-99)) ∧
      decode ((loaded [301]).inst.wordAt (loaded [301]).inst.ip) = .error (.invalidAddressingMode 3) ∧
      legalAddr Config.hardware (loaded [301]).inst.ip :=
  ⟨.inl rfl, by decide, by decide, legal_hardware (by decide) (by decide)⟩

theorem witness_TerminalStepOnlyAnswers :
    (withInst (loaded [99]) Vm.setHalted).pending = [] ∧ (withInst (loaded [99]) Vm.setHalted).inst.runState = .haltedNormally ∧
      (withInst (loaded [99]) (fun x => faultEntry Config.hardware x ⟨.inputExhausted, 0⟩)).inst.runState = .faulted ∧
      (withInst (loaded [99]) Vm.kill).inst.runState = .killed := by decide

/-- R207: a KILL between two steps of a RUN; the next step returns `Killed` and the RUN is over, another instance's is not. -/
theorem test_killed_run :
    step { withInst (loaded [99]) Vm.kill with runs := [(0, true), (1, false)] } =
      .next { withInst (loaded [99]) Vm.kill with runs := [(1, false)], reply := .stepResult .killed } := rfl

theorem witness_FaultsArePrecise :
    ∃ t, (loaded [1101, 9223372036854775807, 1, 5]).pending = [] ∧ (loaded [1101, 9223372036854775807, 1, 5]).inst.isLive ∧
      step (loaded [1101, 9223372036854775807, 1, 5]) = .next t ∧
      t.reply = .stepResult (.faulted (some .arithmeticOverflow)) :=
  ⟨_, rfl, .inl rfl, rfl, by decide⟩

/-- A jump, an OUT and a HALT: the three ways `IP` is left. -/
theorem witness_IpChangesOnlyOnCompletion :
    (∃ t, step (loaded [1105, 1, -3, 99]) = .next t ∧ t.reply = .stepResult (.continued (-3))) ∧
      (∃ t, step (loaded [104, 7, 99]) = .next t ∧ t.reply = .stepResult (.producedOutput 7)) ∧
      ∃ t, step (loaded [99]) = .next t ∧ t.reply = .stepResult .halted :=
  ⟨⟨_, rfl, by decide⟩, ⟨_, rfl, by decide⟩, ⟨_, rfl, by decide⟩⟩

/-- Every result that a live instance's step can have, but for `continued` and `producedOutput` above. -/
theorem witness_RunStateTransitions :
    (∃ t, step (loaded [3, 0, 99]) = .next t ∧ t.reply = .stepResult .needsInput) ∧
      (∃ t, step (withInst (smallLoaded [104, 2, 99]) (fun x => { x with outQ := [1] })) = .next t ∧
        t.reply = .stepResult .outputBlocked) ∧
      (∃ t, step (loaded [99]) = .next t ∧ t.reply = .stepResult .halted) ∧
      ∃ t, step (loaded [0]) = .next t ∧ t.reply = .stepResult (.faulted (some .invalidOpcode)) :=
  ⟨⟨_, rfl, by decide⟩, ⟨_, rfl, by decide⟩, ⟨_, rfl, by decide⟩, ⟨_, rfl, by decide⟩⟩

/-- The first parameter at fault, then the third with the first two resolved. -/
theorem witness_FirstOperandFaultStops_first :
    operandFault Config.hardware (Vm.loaded [1, -1, 5, 0, 99]) (.add .position .position .position) 1 .invalidAddress (-1) :=
  .inr ⟨legal_hardware (by decide) (by decide), .inl ⟨by decide, rfl⟩, by decide⟩
theorem witness_FirstOperandFaultStops_third :
    (∀ j, 1 ≤ j → j < 3 →
      operandOk Config.hardware (Vm.loaded [21101, 1, 1, -1, 99]) (.add .immediate .immediate .relative) j) ∧
      operandFault Config.hardware (Vm.loaded [21101, 1, 1, -1, 99]) (.add .immediate .immediate .relative) 3
        .invalidAddress (-1) := by
  refine ⟨fun j h1 h3 => ?_, by simp, .inr ⟨legal_hardware (by decide) (by decide), .inl ⟨by decide, rfl⟩, by decide⟩⟩
  obtain rfl | rfl : j = 1 ∨ j = 2 := by omega
  · exact ⟨1, legal_hardware (by decide) (by decide), by decide⟩
  · exact ⟨1, legal_hardware (by decide) (by decide), by decide⟩
/-- The literal fetch at fault: the last legal address holds the opcode word. -/
theorem witness_FirstOperandFaultStops_literal :
    operandFault small { Vm.loaded [] with ip := 15 } (.out .immediate) 1 .addressOutOfRange 16 :=
  .inl ⟨.inr ⟨by decide, rfl, 16, rfl, by decide⟩, by decide⟩

theorem witness_ImmediateAndPositionAgree :
    legalAddr Config.hardware ((Vm.loaded [104, 7]).ip + (1 : Nat)) ∧ (Vm.loaded [104, 7]).lit 1 = 7 ∧
      legalAddr Config.hardware ((Vm.loaded [4, 3, 99, 7]).ip + (1 : Nat)) ∧
      legalAddr Config.hardware ((Vm.loaded [4, 3, 99, 7]).lit 1) ∧
      (Vm.loaded [4, 3, 99, 7]).wordAt ((Vm.loaded [4, 3, 99, 7]).lit 1) = 7 :=
  ⟨legal_hardware (by decide) (by decide), by decide, legal_hardware (by decide) (by decide),
    legal_hardware (by decide) (by decide), by decide⟩

/-- The operands of `ADD #WMAX, #0, 5` and of its overflowing neighbour `ADD #WMAX, #1, 5`. -/
theorem witness_AddAndMul_operands :
    legalAddr Config.hardware (Vm.loaded [1101, 9223372036854775807, 1, 5]).ip ∧
      inputValue Config.hardware (Vm.loaded [1101, 9223372036854775807, 1, 5]) 1 .immediate 9223372036854775807 ∧
      inputValue Config.hardware (Vm.loaded [1101, 9223372036854775807, 1, 5]) 2 .immediate 1 ∧
      destAddr Config.hardware (Vm.loaded [1101, 9223372036854775807, 1, 5]) 3 .position 5 :=
  ⟨legal_hardware (by decide) (by decide), ⟨legal_hardware (by decide) (by decide), by decide⟩,
    ⟨legal_hardware (by decide) (by decide), by decide⟩,
    ⟨legal_hardware (by decide) (by decide), legal_hardware (by decide) (by decide), by decide⟩⟩
theorem witness_AddAndMul_boundaries :
    Config.hardware.fits (9223372036854775807 + 0) = true ∧ Config.hardware.fits (9223372036854775807 + 1) = false ∧
      Config.hardware.fits (-9223372036854775808 * 1) = true ∧ Config.hardware.fits (-9223372036854775808 * -1) = false := by
  decide
/-- `ADD #2, #3, 4` fits a footprint of five, `ADD #2, #3, 7` needs a sixth address. -/
theorem witness_AddAndMul_capacity :
    writeRoom small (Vm.loaded [1101, 2, 3, 4, 99]) 4 ∧ ¬ writeRoom small (Vm.loaded [1101, 2, 3, 7, 99]) 7 ∧
      inputValue small (Vm.loaded [1101, 2, 3, 7, 99]) 1 .immediate 2 ∧
      inputValue small (Vm.loaded [1101, 2, 3, 7, 99]) 2 .immediate 3 ∧
      destAddr small (Vm.loaded [1101, 2, 3, 7, 99]) 3 .position 7 ∧ small.fits (2 + 3) = true :=
  ⟨fun k hk => by cases hk; decide, fun h => absurd (h 5 rfl) (by decide),
    ⟨legal_small (by decide) (by decide), by decide⟩, ⟨legal_small (by decide) (by decide), by decide⟩,
    ⟨legal_small (by decide) (by decide), legal_small (by decide) (by decide), by decide⟩, by decide⟩

/-- The same instance as LT and EQ see it: room for address 4, none for 7. -/
theorem witness_ComparisonsWriteOneOrZero :
    legalAddr small (Vm.loaded [1107, 2, 3, 7, 99]).ip ∧
      inputValue small (Vm.loaded [1107, 2, 3, 7, 99]) 1 .immediate 2 ∧
      inputValue small (Vm.loaded [1107, 2, 3, 7, 99]) 2 .immediate 3 ∧
      destAddr small (Vm.loaded [1107, 2, 3, 7, 99]) 3 .position 7 ∧ ¬ writeRoom small (Vm.loaded [1107, 2, 3, 7, 99]) 7 ∧
      destAddr small (Vm.loaded [1107, 2, 3, 4, 99]) 3 .position 4 ∧ writeRoom small (Vm.loaded [1107, 2, 3, 4, 99]) 4 :=
  ⟨legal_small (by decide) (by decide), ⟨legal_small (by decide) (by decide), by decide⟩,
    ⟨legal_small (by decide) (by decide), by decide⟩,
    ⟨legal_small (by decide) (by decide), legal_small (by decide) (by decide), by decide⟩,
    fun h => absurd (h 5 rfl) (by decide),
    ⟨legal_small (by decide) (by decide), legal_small (by decide) (by decide), by decide⟩,
    fun k hk => by cases hk; decide⟩

theorem witness_InStoresTheFrontWord :
    destAddr small (Vm.loaded [3, 4, 99, 0, 0]) 1 .position 4 ∧ writeRoom small (Vm.loaded [3, 4, 99, 0, 0]) 4 ∧
      destAddr small (Vm.loaded [3, 5, 99, 0, 0]) 1 .position 5 ∧ ¬ writeRoom small (Vm.loaded [3, 5, 99, 0, 0]) 5 ∧
      (withInst (smallLoaded [3, 5, 99, 0, 0]) (Vm.pushIn [1])).inst.inQ = 1 :: [] :=
  ⟨⟨legal_small (by decide) (by decide), legal_small (by decide) (by decide), by decide⟩, fun k hk => by cases hk; decide,
    ⟨legal_small (by decide) (by decide), legal_small (by decide) (by decide), by decide⟩,
    fun h => absurd (h 5 rfl) (by decide), rfl⟩

theorem witness_InWithoutInputWaitsOrFaults :
    destAddr Config.hardware (Vm.loaded [3, 0, 99]) 1 .position 0 ∧ (Vm.loaded [3, 0, 99]).inQ = [] ∧
      (Vm.loaded [3, 0, 99]).inputPolicy = .suspend ∧
      (setInputPolicy .fault (Vm.loaded [3, 0, 99])).2.inputPolicy = .fault ∧
      (setInputPolicy .fault (Vm.loaded [3, 0, 99])).2.inQ = [] :=
  ⟨⟨legal_hardware (by decide) (by decide), legal_hardware (by decide) (by decide), by decide⟩, rfl, rfl, rfl, rfl⟩

theorem witness_OutAppendsOrHolds :
    inputValue small (Vm.loaded [104, 0, 99]) 1 .immediate 0 ∧ small.outDepth ≠ some (Vm.loaded [104, 0, 99]).outQ.length ∧
      inputValue small ((Vm.loaded [104, 0, 99]).pushOut 7) 1 .immediate 0 ∧
      small.outDepth = some ((Vm.loaded [104, 0, 99]).pushOut 7).outQ.length :=
  ⟨⟨legal_small (by decide) (by decide), by decide⟩, by decide, ⟨legal_small (by decide) (by decide), by decide⟩, rfl⟩

/-- JT and JF with a tested value 1 and with a tested value 0. -/
theorem witness_ConditionalJumps :
    inputValue Config.hardware (Vm.loaded [1105, 1, -3, 99]) 1 .immediate 1 ∧
      inputValue Config.hardware (Vm.loaded [1105, 1, -3, 99]) 2 .immediate (-3) ∧
      inputValue Config.hardware (Vm.loaded [1106, 0, 4, 99]) 1 .immediate 0 ∧
      inputValue Config.hardware (Vm.loaded [1106, 0, 4, 99]) 2 .immediate 4 :=
  ⟨⟨legal_hardware (by decide) (by decide), by decide⟩, ⟨legal_hardware (by decide) (by decide), by decide⟩,
    ⟨legal_hardware (by decide) (by decide), by decide⟩, ⟨legal_hardware (by decide) (by decide), by decide⟩⟩

theorem witness_ArbAddsToTheBase :
    inputValue Config.hardware (Vm.loaded [209, 3, 99, -7]) 1 .relative (-7) ∧
      Config.hardware.fits ((Vm.loaded [209, 3, 99, -7]).rb + -7) = true ∧
      inputValue Config.hardware { Vm.loaded [109, 1, 99] with rb := 9223372036854775807 } 1 .immediate 1 ∧
      Config.hardware.fits (9223372036854775807 + 1) = false :=
  ⟨⟨legal_hardware (by decide) (by decide), legal_hardware (by decide) (by decide), by decide⟩, by decide,
    ⟨legal_hardware (by decide) (by decide), by decide⟩, by decide⟩

/-- A store, and the same instruction with a destination that does not resolve. -/
theorem witness_StoringInstructionsFrame :
    (∃ t, exec (.add .immediate .immediate .position) (loaded [1101, 2, 3, 5, 99, 0]) = .next t ∧
      resolveOut Config.hardware (loaded [1101, 2, 3, 5, 99, 0]).inst 3 .position = .ok 5) ∧
    ∃ t, exec (.add .immediate .immediate .position) (loaded [1101, 2, 3, -1, 99, 0]) = .next t ∧
      ¬ ∃ d, resolveOut Config.hardware (loaded [1101, 2, 3, -1, 99, 0]).inst 3 .position = .ok d := by
  refine ⟨⟨_, exec_eq _ _, by decide⟩, ⟨_, exec_eq _ _, ?_⟩⟩
  rintro ⟨d, h⟩
  rw [show resolveOut Config.hardware (loaded [1101, 2, 3, -1, 99, 0]).inst 3 .position = .error ⟨.invalidAddress, -1⟩ by
    decide] at h
  cases h

theorem witness_InputFrame :
    (∃ t, exec (.inp .position) (withInst (loaded [3, 5, 99]) (Vm.pushIn [42])) = .next t ∧
      t.inst.inQ ≠ (withInst (loaded [3, 5, 99]) (Vm.pushIn [42])).inst.inQ) ∧
    (∃ t, exec (.inp .position) (loaded [3, 5, 99]) = .next t ∧ t.inst.inQ = (loaded [3, 5, 99]).inst.inQ) ∧
    resolveOut Config.hardware (withInst (loaded [3, 5, 99]) (Vm.pushIn [42])).inst 1 .position = .ok 5 :=
  ⟨⟨_, rfl, by decide⟩, ⟨_, rfl, by decide⟩, by decide⟩

theorem witness_NonStoringInstructionsFrame :
    Instr.out .immediate ∈ [Instr.out .immediate, .jt .immediate .position, .jf .immediate .position, .arb .immediate, .halt] ∧
      ∃ t, exec (.out .immediate) (loaded [104, 7, 99]) = .next t :=
  ⟨by decide, _, rfl⟩

theorem witness_ReadsSeeTheLastWrite :
    (Vm.loaded [1, 2]).mem.wf ∧ ∃ y, memWrite Config.hardware (Vm.loaded [1, 2]) 1000000 0 = .ok y ∧ y ≠ Vm.loaded [1, 2] :=
  ⟨by decide, _, rfl, by decide⟩

theorem witness_MemoryFormIsCanonical :
    Memory.wf [(3, -1), (7, 5)] ∧ ∀ a, Memory.read [(3, -1), (7, 5)] a = Memory.read (Memory.write [(3, -1)] 7 5) a :=
  ⟨by decide, fun _ => rfl⟩

theorem witness_PowerOnMeetsTheInvariant :
    Config.hardware.wf = true ∧ MuxConfig.hardware.wf Config.hardware = true ∧ small.wf = true ∧ Config.unbounded.wf = true ∧
      MuxConfig.wf small { MuxConfig.hardware with mode := .packet, emptyInput := .supply (-1) } = true := by decide

/-- A loaded instance meets the invariant. -/
theorem loaded_inv : (Vm.loaded [3, 0, 99]).Inv Config.hardware where
  memCanonical := by decide
  memWords := by decide
  memInFootprint := by decide
  footprintRising := by decide
  footprintLegal := fun a ha => legal_hardware (by omega) (by
    have : a ∈ [0, 1, 2] := ha
    simp at this
    omega)
  footprintRoom := fun k hk => by cases hk
  ipRange := .inl (by decide)
  rbWord := by decide
  haltedIff := by decide
  reasonIff := by decide
  recordClear := fun _ => rfl
  inWords := by decide
  outWords := by decide
  inRoom := fun d hd => by cases hd
  outRoom := fun d hd => by cases hd
  awaitingAtIn := fun h => by cases h

theorem witness_InstanceStepKeepsTheInvariant :
    ∃ t, (loaded [3, 0, 99]).pending = [] ∧ (loaded [3, 0, 99]).cfg.wf = true ∧
      (loaded [3, 0, 99]).inst.Inv (loaded [3, 0, 99]).cfg ∧ step (loaded [3, 0, 99]) = .next t :=
  ⟨_, rfl, by decide, loaded_inv, rfl⟩

theorem witness_EveryEventKeepsTheInvariant :
    ∃ t, State.Inv { loaded [3, 0, 99] with pending := [.provideInput 0 7] } ∧
      step { loaded [3, 0, 99] with pending := [.provideInput 0 7] } = .next t := by
  refine ⟨_, ⟨by decide, fun x hx => ?_, ?_, by decide, by decide⟩, rfl⟩
  · have : x = Vm.loaded [3, 0, 99] := by simpa [State.insts, loaded, State.reset, State.powerOn] using hx
    rw [this]
    exact loaded_inv
  · exact {
      cfgOk := by decide, asmCount := by decide, emptyCountCount := by decide, asmPartial := by decide
      asmWords := by decide, hostOutWords := by decide, signalWord := by decide, bcastWords := by decide
      monWords := by decide, faultSource := by decide, faultDest := by decide }

theorem witness_StepTouchesNoOtherInstance :
    ∃ t, (State.powerOn small MuxConfig.hardware 1).pending = [] ∧
      step (State.powerOn small MuxConfig.hardware 1) = .next t := ⟨_, rfl, rfl⟩

/-- Two instances, the first with an output waiting: the events of the mux below start here. -/
def pair (m : MuxConfig) (c : Config) (events : List Event) : State :=
  { State.powerOn c m 1 with inst := { Vm.powerOn with outQ := [6] }, pending := events }

theorem witness_MuxTouchesOnlyTheQueues :
    ∃ t x, step (pair MuxConfig.hardware Config.hardware [.route 0]) = .next t ∧
      (pair MuxConfig.hardware Config.hardware [.route 0]).vm? 1 = some x ∧ t.vm? 1 ≠ some x :=
  ⟨_, _, rfl, rfl, by decide⟩

theorem witness_OnlyLoadLeavesATerminalState :
    ∃ t, (withInst (loaded [99]) Vm.kill).vm? 0 = some (Vm.loaded [99]).kill ∧ (Vm.loaded [99]).kill.runState.terminal ∧
      step (withInst (loaded [99]) Vm.kill) = .next t ∧
      ∀ program rest, (withInst (loaded [99]) Vm.kill).pending ≠ .load 0 program :: rest :=
  ⟨_, rfl, trivial, rfl, fun _ _ h => by cases h⟩

theorem witness_PolicyIsTheHostsAndFootprintGrows :
    ∃ t, (loaded [1101, 2, 3, 9, 99]).vm? 0 = some (Vm.loaded [1101, 2, 3, 9, 99]) ∧
      step (loaded [1101, 2, 3, 9, 99]) = .next t ∧
      (∀ program rest, (loaded [1101, 2, 3, 9, 99]).pending ≠ .load 0 program :: rest) ∧
      ∀ p rest, (loaded [1101, 2, 3, 9, 99]).pending ≠ .setInputPolicy 0 p :: rest :=
  ⟨_, rfl, rfl, fun _ _ h => (by cases h), fun _ _ h => (by cases h)⟩

theorem witness_ResultDependsOnTheInstanceAlone :
    (pair MuxConfig.hardware Config.hardware []).cfg = (withInst (loaded []) (Vm.pushIn [])).cfg ∧
      [5].length = { Vm.powerOn with outQ := [6] }.outQ.length ∧
      { Vm.powerOn with outQ := [5] } = { (pair MuxConfig.hardware Config.hardware []).inst with outQ := [5] } :=
  ⟨rfl, rfl, rfl⟩

theorem witness_UnboundedMachineNeverRunsOutOfRoom :
    ∃ t, { loaded [1101, 9223372036854775807, 1, 5] with cfg := Config.unbounded }.pending = [] ∧
      { loaded [1101, 9223372036854775807, 1, 5] with cfg := Config.unbounded }.inst.isLive ∧
      step { loaded [1101, 9223372036854775807, 1, 5] with cfg := Config.unbounded } = .next t :=
  ⟨_, rfl, .inl rfl, rfl⟩

theorem witness_FiniteMachineAgreesWithUnbounded :
    ∃ t, (loaded [1101, 2, 3, 5, 99, 0]).pending = [] ∧ step (loaded [1101, 2, 3, 5, 99, 0]) = .next t ∧
      t.reply ≠ .stepResult (.faulted (some .arithmeticOverflow)) ∧
      t.reply ≠ .stepResult (.faulted (some .addressOutOfRange)) ∧
      t.reply ≠ .stepResult (.faulted (some .capacityExceeded)) ∧ t.reply ≠ .stepResult .outputBlocked :=
  ⟨_, rfl, rfl, by decide, by decide, by decide, by decide⟩

theorem witness_SuspendAndResumeIsInvisible :
    (loaded [3, 0, 99]).inst.isLive ∧ legalAddr (loaded [3, 0, 99]).cfg (loaded [3, 0, 99]).inst.ip ∧
      decode ((loaded [3, 0, 99]).inst.wordAt (loaded [3, 0, 99]).inst.ip) = .ok (.inp .position) ∧
      destAddr (loaded [3, 0, 99]).cfg (loaded [3, 0, 99]).inst 1 .position 0 ∧
      writeRoom (loaded [3, 0, 99]).cfg (loaded [3, 0, 99]).inst 0 ∧ (loaded [3, 0, 99]).inst.inQ = [] ∧
      (loaded [3, 0, 99]).inst.inputPolicy = .suspend ∧ (loaded [3, 0, 99]).cfg.fits 7 = true ∧
      inputRoom (loaded [3, 0, 99]).cfg (loaded [3, 0, 99]).inst 1 ∧ (loaded [3, 0, 99]).runs = [] :=
  ⟨.inl rfl, legal_hardware (by decide) (by decide), by decide,
    ⟨legal_hardware (by decide) (by decide), legal_hardware (by decide) (by decide), by decide⟩,
    fun k hk => (by cases hk), rfl, rfl, by decide, fun d hd => (by cases hd), rfl⟩

/-- An image of five words just fits a footprint of five; one of six, and one that holds `2^63` (V-H-1), are refused. -/
theorem witness_LoadResetsOrRefuses :
    { smallLoaded [] with pending := [.load 0 [1, 2, 3, 4, 5]] }.vm? 0 = some (Vm.loaded []) ∧
      (∀ v ∈ [(1 : Int), 2, 3, 4, 5], small.fits v = true) ∧
      (∀ l, small.addrLimit = some l → [(1 : Int), 2, 3, 4, 5].length ≤ l) ∧
      (∀ k, small.capacity = some k → [(1 : Int), 2, 3, 4, 5].length ≤ k) ∧
      (∃ k, small.capacity = some k ∧ k < [(1 : Int), 2, 3, 4, 5, 6].length) ∧
      (∃ v ∈ [(9223372036854775808 : Int)], small.fits v = false) ∧
      ∃ l, small.addrLimit = some l ∧ l < (List.replicate 17 (0 : Int)).length :=
  ⟨rfl, by decide, fun l hl => by cases hl; decide, fun k hk => by cases hk; decide, ⟨5, rfl, by decide⟩,
    ⟨_, List.mem_singleton.2 rfl, by decide⟩, ⟨16, rfl, by decide⟩⟩

/-- A FIFO of two takes two words and refuses a third; a killed instance takes any. -/
theorem witness_InputsAreQueuedOrRefused :
    (∃ v ∈ [(9223372036854775808 : Int)], small.fits v = false) ∧ (∀ v ∈ [(1 : Int), 2], small.fits v = true) ∧
      (Vm.loaded []).runState ≠ .killed ∧ inputRoom small (Vm.loaded []) [(1 : Int), 2].length ∧
      ¬ inputRoom small ((Vm.loaded []).pushIn [1]) [(1 : Int), 2].length ∧ (Vm.loaded []).kill.runState = .killed :=
  ⟨⟨_, List.mem_singleton.2 rfl, by decide⟩, by decide, by decide, fun d hd => by cases hd; decide,
    fun h => absurd (h 2 rfl) (by decide), rfl⟩

theorem witness_ReadOutputPopsTheFront :
    (pair MuxConfig.hardware Config.hardware [.readOutput 0]).vm? 0 = some { Vm.powerOn with outQ := [6] } ∧
      (pair MuxConfig.hardware Config.hardware [.readOutput 1]).vm? 1 = some Vm.powerOn ∧ Vm.powerOn.outQ = [] :=
  ⟨rfl, rfl, rfl⟩

theorem witness_ReadingCommandsAndPolicy :
    { loaded [99] with pending := [.peek 0 9223372036854775807] }.vm? 0 = some (Vm.loaded [99]) ∧
      legalAddr Config.hardware 9223372036854775807 ∧ ¬ legalAddr Config.hardware 9223372036854775808 ∧
      ¬ legalAddr Config.hardware (-1) ∧ (Vm.loaded [99]).setHalted.runState = .haltedNormally ∧
      (Vm.loaded [99]).runState ≠ .haltedNormally :=
  ⟨rfl, legal_hardware (by decide) (by decide), fun h => absurd (h.2 _ rfl) (by decide), fun h => absurd h.1 (by decide), rfl,
    by decide⟩

theorem witness_KillEndsALiveInstance :
    { loaded [99] with pending := [.kill 0] }.vm? 0 = some (Vm.loaded [99]) ∧ (Vm.loaded [99]).isLive ∧
      ¬ (Vm.loaded [99]).setHalted.isLive :=
  ⟨rfl, .inl rfl, fun h => by rcases h with h | h <;> cases h⟩

theorem witness_HostStepStepsTheNamedInstance :
    (pair MuxConfig.hardware Config.hardware [.hostStep 1]).pending = .hostStep 1 :: [] ∧
      (pair MuxConfig.hardware Config.hardware [.hostStep 1]).vm? 1 = some Vm.powerOn := ⟨rfl, rfl⟩

/-- A RUN whose first step goes on, one whose first step ends it, and one of an instance that is not at the focus. -/
theorem witness_RunStopsWhereTheLoopStops :
    (∃ t, step { loaded [1101, 2, 3, 5, 99, 0] with pending := [.run 0 true] } = .next t ∧
      t.reply = .stepResult (.continued 4)) ∧
    (∃ t, step { loaded [104, 7, 99] with pending := [.run 0 true] } = .next t ∧ t.reply = .stepResult (.producedOutput 7)) ∧
    (pair MuxConfig.hardware Config.hardware [.run 1 true]).pending = .run 1 true :: [] ∧
      (pair MuxConfig.hardware Config.hardware [.run 1 true]).vm? 1 = some Vm.powerOn :=
  ⟨⟨_, rfl, by decide⟩, ⟨_, rfl, by decide⟩, rfl, rfl⟩

/-- To the next instance, to `HostOut`, and by feedback; to a killed instance and to a full one. -/
theorem witness_ChainRouting :
    (pair MuxConfig.hardware small [.route 0]).vm? 0 = some { Vm.powerOn with outQ := 6 :: [] } ∧
      (pair MuxConfig.hardware small [.route 0]).mux.status = .active ∧
      (pair MuxConfig.hardware small [.route 0]).mux.cfg.mode = .chain ∧
      chainDest (pair MuxConfig.hardware small [.route 0]) 0 = some 1 ∧
      chainDest (pair MuxConfig.hardware small [.route 1]) 1 = none ∧
      chainDest (pair { MuxConfig.hardware with feedback := true } small [.route 1]) 1 = some 0 ∧
      Vm.powerOn.runState ≠ .killed ∧ inputRoom small (Vm.powerOn.pushIn [1]) 1 ∧
      ¬ inputRoom small (Vm.powerOn.pushIn [1, 2]) 1 ∧ Vm.powerOn.kill.runState = .killed :=
  ⟨rfl, rfl, rfl, rfl, rfl, rfl, by decide, fun d hd => by cases hd; decide, fun h => absurd (h 2 rfl) (by decide), rfl⟩

/-- The mux configuration of a packet network. -/
def packet : MuxConfig := { MuxConfig.hardware with mode := .packet }

/-- The pair with `ASM[0]` set. -/
def pairAsm (ws : List Int) : State := (pair packet small [.route 0]).modifyMux (fun m => m.setAsm 0 ws)

theorem witness_PacketAssembly :
    (pairAsm [1]).pending = .route 0 :: [] ∧ (pairAsm [1]).mux.status = .active ∧ (pairAsm [1]).mux.cfg.mode = .packet ∧
      (pairAsm [1]).vm? 0 = some { Vm.powerOn with outQ := 6 :: [] } ∧ (pairAsm [1]).mux.asm[0]? = some [1] ∧
      [(1 : Int)].length < 2 := by decide

/-- Destinations 255, 0, 1 and 2 of a mux of two: broadcast, two instances, and the first that is none; and -1. -/
theorem witness_PacketDispatch :
    (pairAsm [255, 3]).mux.asm[0]? = some [255, 3] ∧ (255 : Int) = (pairAsm [255, 3]).mux.cfg.bcastAddr ∧
      (pairAsm [1, 3]).mux.asm[0]? = some [1, 3] ∧ (1 : Int) ≠ (pairAsm [1, 3]).mux.cfg.bcastAddr ∧
      (pairAsm [1, 3]).vm? 1 = some Vm.powerOn ∧ inputRoom small Vm.powerOn 2 ∧
      ¬ inputRoom small (Vm.powerOn.pushIn [1]) 2 ∧ ((pairAsm [2, 3]).count : Int) ≤ 2 ∧ (-1 : Int) < 0 :=
  ⟨by decide, by decide, by decide, by decide, by decide, fun d hd => by cases hd; decide,
    fun h => absurd (h 2 rfl) (by decide), by decide, by decide⟩

theorem witness_InactiveMuxTakesNoStep :
    ((pair packet small [.idleAction]).setMuxStatus .deadlocked).pending = .idleAction :: [] ∧
      ((pair packet small [.idleAction]).setMuxStatus .deadlocked).mux.status ≠ .active := by decide

/-- The pair under `Supply(-1)`, instance 1 waiting. -/
def supplied (events : List Event) : State :=
  { pair { packet with emptyInput := .supply (-1) } small events with
    upper := [{ Vm.loaded [3, 0, 99] with runState := .awaitingInput }] }

theorem witness_SupplyFeedsAWaitingInstance :
    (supplied [.supply 1]).mux.status = .active ∧ (supplied [.supply 1]).mux.cfg.mode = .packet ∧
      (supplied [.supply 1]).mux.cfg.emptyInput = .supply (-1) ∧
      (supplied [.supply 1]).vm? 1 = some { Vm.loaded [3, 0, 99] with runState := .awaitingInput } ∧
      inputRoom small (Vm.loaded [3, 0, 99]) 1 ∧ (supplied [.supply 0]).vm? 0 = some { Vm.powerOn with outQ := [6] } ∧
      Vm.powerOn.runState ≠ .awaitingInput ∧ ¬ inputRoom { small with inDepth := some 0 } (Vm.loaded [3, 0, 99]) 1 ∧
      (pair packet small [.supply 1]).pending = .supply 1 :: [] ∧ (pair packet small [.supply 1]).mux.cfg.emptyInput = .suspend :=
  ⟨by decide, by decide, by decide, by decide, fun d hd => by cases hd; decide, by decide, by decide,
    fun h => absurd (h 0 rfl) (by decide), by decide, by decide⟩

/-- One instance that waits with nothing to read, in a mux of the given mode with the given last broadcast. -/
def waiting (m : MuxConfig) (valid : Bool) : State :=
  { State.powerOn small m 0 with
    inst := { Vm.loaded [3, 0, 99] with runState := .awaitingInput }
    mux := { Mux.powerOn m 1 with lastBcast := (3, 4), lastBcastValid := valid }
    pending := [.idleAction] }

theorem waiting_idle (m : MuxConfig) (valid : Bool) (h : m.emptyInput = .suspend) : systemIdle (waiting m valid) := by
  refine ⟨⟨_, List.mem_singleton.2 rfl, .inr rfl⟩, fun x hx => ?_, fun x hx _ => ?_, fun _ x hx _ => ?_, fun v hv => ?_⟩
  · rw [List.mem_singleton.1 hx]; rfl
  · rw [List.mem_singleton.1 hx]; rfl
  · rw [List.mem_singleton.1 hx]; rfl
  · exfalso
    have : (waiting m valid).mux.policy = .suspend := by
      show (match m.mode with
        | .chain => EmptyInputPolicy.suspend
        | .packet => m.emptyInput) = .suspend
      cases m.mode
      · rfl
      · exact h
    rw [this] at hv
    cases hv

/-- Idle in Chain mode, in Packet mode with nothing to re-inject, and with a packet and room for it; and a system not idle. -/
theorem witness_IdleAction :
    systemIdle (waiting MuxConfig.hardware false) ∧ systemIdle (waiting packet false) ∧ systemIdle (waiting packet true) ∧
      (waiting packet true).mux.emptyCount.length = (waiting packet true).count ∧
      (waiting packet true).vm? (waiting packet true).mux.cfg.natTarget = some (waiting packet true).inst ∧
      (waiting packet true).inst.isLive ∧ inputRoom small (waiting packet true).inst 2 ∧
      ¬ inputRoom { small with inDepth := some 1 } (waiting packet true).inst 2 ∧
      ¬ systemIdle (pair packet small [.idleAction]) :=
  ⟨waiting_idle _ _ rfl, waiting_idle _ _ rfl, waiting_idle _ _ rfl, rfl, rfl, .inr rfl, fun d hd => by cases hd; decide,
    fun h => absurd (h 1 rfl) (by decide),
    fun h => absurd (h.2.1 { Vm.powerOn with outQ := [6] } (List.mem_cons_self)) (by decide)⟩

theorem witness_FinishedWhenNoInstanceIsLive :
    (∀ x ∈ { withInst (loaded [99]) Vm.setHalted with pending := [.complete] }.insts, ¬ x.isLive ∧ x.outQ = []) ∧
      ∃ x ∈ { loaded [99] with pending := [.complete] }.insts, x.isLive := by
  refine ⟨fun x hx => ?_, _, List.mem_singleton.2 rfl, .inl rfl⟩
  rw [List.mem_singleton.1 hx]
  exact ⟨fun h => (by rcases h with h | h <;> cases h), rfl⟩

theorem witness_MuxStepsReadyInstances :
    (pair packet small [.muxStep 0]).vm? 0 = some { Vm.powerOn with outQ := [6] } ∧
      Vm.isReady { Vm.powerOn with outQ := [6] } ∧ Vm.isReady { Vm.loaded [3, 0] with runState := .awaitingInput, inQ := [0] } ∧
      ¬ Vm.isReady { Vm.loaded [3, 0] with runState := .awaitingInput } :=
  ⟨rfl, .inl rfl, .inr ⟨rfl, by decide⟩, fun h => h.elim (fun h => by cases h) (fun h => h.2 rfl)⟩

theorem witness_RoundRobinIsAnAdmittedSchedule :
    { loaded [99] with pending := [.roundRobin] }.mux.status = .active ∧
      { loaded [99] with pending := [.roundRobin] }.inst.isReady ∧
      { loaded [99] with pending := [.roundRobin] }.inst.outQ = [] := ⟨rfl, .inl rfl, rfl⟩

theorem witness_MuxResetAndKill :
    (pair packet small [.muxReset]).pending = .muxReset :: [] ∧
      (pair packet small [.muxKill 0]).vm? 0 = some { Vm.powerOn with outQ := [6] } ∧
      Vm.isLive { Vm.powerOn with outQ := [6] } ∧ ¬ Vm.powerOn.setHalted.isLive :=
  ⟨rfl, rfl, .inl rfl, fun h => by rcases h with h | h <;> cases h⟩

theorem witness_HostReadsTheMux :
    (pair packet small [.popHostOut]).mux.hostOut = [] ∧ ((pair packet small [.popHostOut]).mux.pushHostOut 7).hostOut = 7 :: [] ∧
      (pair packet small [.popMon]).mux.mon = [] ∧
      (waiting packet true).mux.noteReinject.mon = ⟨.reinject, 3, 4⟩ :: [] ∧
      (pair packet small [.readMux]).pending = .readMux :: [] := by decide

end Sys2Proof.Tests
end

section
/-! PROOFS. Finite hardware against the exact reading (R7). Every shared operation is compared once with the same operation of
the unbounded machine (`Agrees`): the unbounded one never runs out of room, and the finite one comes to the same unless it does. -/

namespace Sys2Proof.Machine

/-! ## Running out of room -/

/-- The three faults of finite hardware (R7, R275). -/
def Fault.ofFiniteHardware : Fault → Prop
  | .invalidOpcode => False
  | .invalidAddress => False
  | .invalidAddressingMode => False
  | .inputExhausted => False
  | .arithmeticOverflow => True
  | .addressOutOfRange => True
  | .capacityExceeded => True

/-- A computation ends for want of room: in a fault of finite hardware, or in a value that `held` names. -/
def LacksRoom {α : Type} (held : α → Prop) : Except Raise α → Prop
  | .ok a => held a
  | .error e => e.cause.ofFiniteHardware

/-- No value of an intermediate computation is a hold. -/
def neverHeld {α : Type} (_ : α) : Prop := False

/-- The results that tell the host of want of room: the three faults, and the hold of OUT (R163). -/
def StepResult.lacksRoom : StepResult → Prop
  | .continued _ => False
  | .producedOutput _ => False
  | .needsInput => False
  | .outputBlocked => True
  | .halted => False
  | .faulted none => False
  | .faulted (some f) => f.ofFiniteHardware
  | .killed => False

/-- An instruction comes to a result that tells of want of room. -/
def outHeld (p : StepResult × Vm) : Prop := p.1.lacksRoom

/-- The unbounded machine, which comes to `u`, has room, and the finite one comes to `r`: the same, or a want of room (R7). -/
structure Agrees {α : Type} (held : α → Prop) (r u : Except Raise α) : Prop where
  roomy : ¬ LacksRoom held u
  same : LacksRoom held r ∨ r = u

theorem Agrees.refl {α : Type} {held : α → Prop} {r : Except Raise α} (h : ¬ LacksRoom held r) : Agrees held r r :=
  ⟨h, .inr rfl⟩

theorem Agrees.ok {α : Type} (a : α) : Agrees neverHeld (.ok a) (.ok a) := .refl id

theorem Agrees.raises {α : Type} (f : Fault) (hf : f.ofFiniteHardware) (info : Int) (a : α) :
    Agrees neverHeld (.error ⟨f, info⟩) (.ok a) := ⟨id, .inl hf⟩

/-- A fault ends a sequence. -/
theorem LacksRoom.bind {α β : Type} {held : β → Prop} {r : Except Raise α} {f : α → Except Raise β}
    (h : LacksRoom neverHeld r) : LacksRoom held (r >>= f) := by
  cases r with
  | ok a => exact h.elim
  | error e => exact h

/-- Sequencing keeps agreement. -/
theorem Agrees.bind {α β : Type} {held : β → Prop} {r u : Except Raise α} {f g : α → Except Raise β}
    (h : Agrees neverHeld r u) (k : ∀ a, Agrees held (f a) (g a)) : Agrees held (r >>= f) (u >>= g) := by
  obtain ⟨hu, hr⟩ := h
  constructor
  · cases u with
    | ok a => exact (k a).roomy
    | error e => exact hu
  · rcases hr with hr | rfl
    · exact .inl hr.bind
    · cases r with
      | ok a => exact (k a).same
      | error e => exact .inr rfl

/-! ## The shared operations -/

theorem legalAddr_unbounded {a : Int} (h : 0 ≤ a) : legalAddr Config.unbounded a := ⟨h, by simp [Config.unbounded]⟩

theorem checkAddr_agrees (c : Config) (a : Int) :
    Agrees neverHeld (checkAddr c a) (checkAddr Config.unbounded a) := by
  rcases legal_or_fault c a with h | ⟨f, ⟨h, rfl⟩ | ⟨h0, rfl, hl⟩⟩
  · rw [checkAddr_legal h, checkAddr_legal (legalAddr_unbounded h.1)]
    exact .ok _
  · have hf (c' : Config) : addressFault c' a .invalidAddress := .inl ⟨h, rfl⟩
    rw [checkAddr_fault (hf c), checkAddr_fault (hf Config.unbounded)]
    exact .refl id
  · rw [checkAddr_fault (.inr ⟨h0, rfl, hl⟩), checkAddr_legal (legalAddr_unbounded h0)]
    exact .raises .addressOutOfRange trivial a _

theorem memRead_agrees (c : Config) (x : Vm) (a : Int) :
    Agrees neverHeld (memRead c x a) (memRead Config.unbounded x a) :=
  (checkAddr_agrees c a).bind fun _ => .ok _

theorem fetch_agrees (c : Config) (x : Vm) : Agrees neverHeld (fetch c x) (fetch Config.unbounded x) :=
  memRead_agrees c x x.ip

theorem memWrite_agrees (c : Config) (x : Vm) (d v : Int) :
    Agrees neverHeld (memWrite c x d v) (memWrite Config.unbounded x d v) := by
  refine (checkAddr_agrees c d).bind fun n => ?_
  have hu : footprintFull Config.unbounded x n = false := rfl
  cases hf : footprintFull c x n with
  | false => simpa [hu] using Agrees.ok (x.store n v)
  | true => simpa [hu] using Agrees.raises .capacityExceeded trivial d (x.store n v)

theorem exactWord_agrees (c : Config) (v : Int) :
    Agrees neverHeld (exactWord c v) (exactWord Config.unbounded v) := by
  rw [exactWord_fits (c := Config.unbounded) rfl]
  cases hf : c.fits v with
  | true => rw [exactWord_fits hf]; exact .ok v
  | false => rw [exactWord_not hf]; exact .raises .arithmeticOverflow trivial 0 v

theorem resolveIn_agrees (c : Config) (x : Vm) (k : Nat) (m : Mode) :
    Agrees neverHeld (resolveIn c x k m) (resolveIn Config.unbounded x k m) := by
  refine (memRead_agrees c x _).bind fun lit => ?_
  cases m with
  | position => exact memRead_agrees c x lit
  | immediate => exact .ok lit
  | relative => exact memRead_agrees c x (x.rb + lit)

theorem resolveOut_agrees (c : Config) (x : Vm) (k : Nat) (m : Mode) :
    Agrees neverHeld (resolveOut c x k m) (resolveOut Config.unbounded x k m) := by
  refine (memRead_agrees c x _).bind fun lit => ?_
  cases m with
  | position => exact (checkAddr_agrees c lit).bind fun _ => .ok lit
  | immediate => exact .refl id
  | relative => exact (checkAddr_agrees c (x.rb + lit)).bind fun _ => .ok (x.rb + lit)

/-! ## The instructions -/

theorem continueAt_agrees (x : Vm) (next : Int) : Agrees outHeld (continueAt x next) (continueAt x next) :=
  .refl (by simp [continueAt, LacksRoom, outHeld, StepResult.lacksRoom])

theorem storeAndContinue_agrees (c : Config) (x : Vm) (n : Nat) (d v : Int) :
    Agrees outHeld (storeAndContinue c x n d v) (storeAndContinue Config.unbounded x n d v) :=
  (memWrite_agrees c x d v).bind fun y => continueAt_agrees y _

theorem threeOperand_agrees {op op' : Int → Int → Except Raise Int} (m1 m2 m3 : Mode) (c : Config) (x : Vm)
    (hop : ∀ a b, Agrees neverHeld (op a b) (op' a b)) :
    Agrees outHeld (threeOperand op m1 m2 m3 c x) (threeOperand op' m1 m2 m3 Config.unbounded x) :=
  (resolveIn_agrees c x 1 m1).bind fun a1 =>
    (resolveIn_agrees c x 2 m2).bind fun a2 =>
      (resolveOut_agrees c x 3 m3).bind fun d =>
        (hop a1 a2).bind fun v => storeAndContinue_agrees c x 4 d v

theorem jumpIf_agrees (taken : Int → Bool) (m1 m2 : Mode) (c : Config) (x : Vm) :
    Agrees outHeld (jumpIf taken m1 m2 c x) (jumpIf taken m1 m2 Config.unbounded x) :=
  (resolveIn_agrees c x 1 m1).bind fun _ => (resolveIn_agrees c x 2 m2).bind fun _ => continueAt_agrees x _

theorem inputTo_agrees (c : Config) (x : Vm) (d : Int) :
    Agrees outHeld (inputTo c x d) (inputTo Config.unbounded x d) := by
  unfold inputTo
  cases x.inQ with
  | nil =>
    cases x.inputPolicy with
    | suspend => exact .refl (by simp [LacksRoom, outHeld, StepResult.lacksRoom])
    | fault => exact .refl id
  | cons v rest => exact storeAndContinue_agrees c _ 2 d v

theorem outputFrom_agrees (c : Config) (x : Vm) (v : Int) :
    Agrees outHeld (outputFrom c x v) (outputFrom Config.unbounded x v) := by
  have hu : outputFull Config.unbounded x = false := rfl
  constructor
  · simp [outputFrom, hu, LacksRoom, outHeld, StepResult.lacksRoom]
  · cases hf : outputFull c x with
    | false => exact .inr (by simp [outputFrom, hf, hu])
    | true => exact .inl (by simp [outputFrom, hf, LacksRoom, outHeld, StepResult.lacksRoom])

theorem adjustBase_agrees (c : Config) (x : Vm) (a : Int) :
    Agrees outHeld (adjustBase c x a) (adjustBase Config.unbounded x a) :=
  (exactWord_agrees c _).bind fun _ => continueAt_agrees _ _

theorem executed_agrees (i : Instr) (c : Config) (x : Vm) :
    Agrees outHeld (executed i c x) (executed i Config.unbounded x) := by
  cases i with
  | add m1 m2 m3 => exact threeOperand_agrees m1 m2 m3 c x fun _ _ => exactWord_agrees c _
  | mul m1 m2 m3 => exact threeOperand_agrees m1 m2 m3 c x fun _ _ => exactWord_agrees c _
  | lt m1 m2 m3 => exact threeOperand_agrees m1 m2 m3 c x fun _ _ => .ok _
  | eq m1 m2 m3 => exact threeOperand_agrees m1 m2 m3 c x fun _ _ => .ok _
  | inp m1 => exact (resolveOut_agrees c x 1 m1).bind fun d => inputTo_agrees c x d
  | out m1 => exact (resolveIn_agrees c x 1 m1).bind fun a => outputFrom_agrees c x a
  | jt m1 m2 => exact jumpIf_agrees _ m1 m2 c x
  | jf m1 m2 => exact jumpIf_agrees _ m1 m2 c x
  | arb m1 => exact (resolveIn_agrees c x 1 m1).bind fun a => adjustBase_agrees c x a
  | halt => exact .refl (by simp [executed, LacksRoom, outHeld, StepResult.lacksRoom])

/-! ## The live step -/

/-- What the decoded word comes to, the decoder's rejection as the fault it raises (R83, R124). -/
def decodedRun (c : Config) (x : Vm) (w : Int) : Executed :=
  match decode w with
  | .error e => .error (decodeRaise e)
  | .ok i => executed i c x

/-- What a live step comes to before its end (R121); `liveStep_eq` ties it to `liveStep`. -/
def liveRun (c : Config) (x : Vm) : Executed := do
  let w ← fetch c x
  decodedRun c x w

theorem liveStep_eq (s : State) : liveStep s = .next (s.finish (liveRun s.cfg s.inst)) := by
  unfold liveStep liveRun
  cases fetch s.cfg s.inst with
  | error e => rfl
  | ok w =>
    simp only [bind_ok, decodedRun]
    cases decode w with
    | error e => rfl
    | ok i => exact exec_eq i s

theorem decodedRun_agrees (c : Config) (x : Vm) (w : Int) :
    Agrees outHeld (decodedRun c x w) (decodedRun Config.unbounded x w) := by
  unfold decodedRun
  cases decode w with
  | error e => cases e <;> exact .refl id
  | ok i => exact executed_agrees i c x

theorem liveRun_agrees (c : Config) (x : Vm) : Agrees outHeld (liveRun c x) (liveRun Config.unbounded x) :=
  (fetch_agrees c x).bind fun w => decodedRun_agrees c x w

theorem StepResult.lacksRoom_iff (r : StepResult) :
    r.lacksRoom ↔ r = .faulted (some .arithmeticOverflow) ∨ r = .faulted (some .addressOutOfRange) ∨
      r = .faulted (some .capacityExceeded) ∨ r = .outputBlocked := by
  rcases r with _ | _ | _ | _ | _ | ⟨_ | f⟩ | _
  case faulted.some => cases f <;> simp [StepResult.lacksRoom, Fault.ofFiniteHardware]
  all_goals simp [StepResult.lacksRoom]

/-- A step ends for want of room exactly where its result tells the host so. -/
theorem lacksRoom_iff_reply (s : State) (r : Executed) :
    LacksRoom outHeld r ↔
      (s.finish r).reply = .stepResult (.faulted (some .arithmeticOverflow)) ∨
      (s.finish r).reply = .stepResult (.faulted (some .addressOutOfRange)) ∨
      (s.finish r).reply = .stepResult (.faulted (some .capacityExceeded)) ∨
      (s.finish r).reply = .stepResult .outputBlocked := by
  cases r with
  | ok p => simpa [State.finish, LacksRoom, outHeld] using p.1.lacksRoom_iff
  | error e => simpa [State.finish, LacksRoom, StepResult.lacksRoom] using (StepResult.faulted (some e.cause)).lacksRoom_iff

/-- Where the step has room, the finite machine has fetched the opcode word that the unbounded one fetches. -/
theorem fetch_unbounded {c : Config} {x : Vm} (h : ¬ LacksRoom outHeld (liveRun c x)) :
    fetch Config.unbounded x = fetch c x :=
  ((fetch_agrees c x).same.resolve_left fun hf => h hf.bind).symm

theorem faultEntry_unbounded {c : Config} {x : Vm} (e : Raise) (h : fetch Config.unbounded x = fetch c x) :
    faultEntry Config.unbounded x e = faultEntry c x e := by
  simp only [faultEntry, faultRecord, h]

/-- The end of a step sees the parameters only in the fault entry, through the fetch. -/
theorem finish_unbounded {s : State} (r : Executed) (h : fetch Config.unbounded s.inst = fetch s.cfg s.inst) :
    State.finish { s with cfg := Config.unbounded } r = { s.finish r with cfg := Config.unbounded } := by
  cases r with
  | ok p => rfl
  | error e => simp only [State.finish, faultEntry_unbounded e h]

theorem liveStep_unbounded {s : State} (h : ¬ LacksRoom outHeld (liveRun s.cfg s.inst)) :
    liveStep { s with cfg := Config.unbounded } =
      .next { s.finish (liveRun s.cfg s.inst) with cfg := Config.unbounded } := by
  have hr : liveRun s.cfg s.inst = liveRun Config.unbounded s.inst :=
    (liveRun_agrees s.cfg s.inst).same.resolve_left h
  rw [liveStep_eq, ← finish_unbounded _ (fetch_unbounded h), hr]

/-! ## The step of the machine -/

/-- The bookkeeping of RUN reads no parameter. -/
theorem noteRun_cfg (s : State) (c : Config) : State.noteRun { s with cfg := c } = { s.noteRun with cfg := c } := by
  cases hr : s.reply with
  | stepResult r =>
    cases hl : s.runs.lookup s.lower.length with
    | none => simp [State.noteRun, State.current, hr, hl]
    | some stop => cases he : endsRun stop r <;> simp [State.noteRun, State.current, hr, hl, he]
  | _ => simp [State.noteRun, hr]

/-- A terminal step reads no parameter (R122). -/
theorem engineStep_terminal_cfg {s : State} (h : ¬ s.inst.isLive) (c : Config) :
    engineStep { s with cfg := c } = mapNext (fun u => { u with cfg := c }) (engineStep s) := by
  unfold engineStep
  cases hr : s.inst.runState with
  | running => exact absurd (.inl hr) h
  | awaitingInput => exact absurd (.inr hr) h
  | haltedNormally => rfl
  | faulted => rfl
  | killed => rfl

/-- Settles O39: no operation of the unbounded machine lacks room, by `Agrees.roomy`. -/
theorem unboundedMachineNeverRunsOutOfRoom : Obligations.UnboundedMachineNeverRunsOutOfRoom := by
  intro s t hcfg hp hlive h
  obtain ⟨u, hu, rfl⟩ := step_engine hp h
  rw [engineStep_live hlive, liveStep_eq, hcfg] at hu
  cases hu
  have hroom : ¬ LacksRoom outHeld (liveRun Config.unbounded s.inst) := (liveRun_agrees s.cfg s.inst).roomy
  obtain ⟨-, -, -, -, -, -, hreply⟩ := noteRun_rest (s.finish (liveRun Config.unbounded s.inst))
  simpa only [hreply, lacksRoom_iff_reply s, not_or] using hroom

/-- Settles O40: a terminal step reads no parameter, and a live step that has room comes to what the unbounded machine comes to,
by `Agrees.same`. -/
theorem finiteMachineAgreesWithUnbounded : Obligations.FiniteMachineAgreesWithUnbounded := by
  intro s t hp h hoverflow hrange hcapacity hblocked
  obtain ⟨u, hu, rfl⟩ := step_engine hp h
  obtain ⟨-, -, -, -, -, -, hreply⟩ := noteRun_rest u
  rw [hreply] at hoverflow hrange hcapacity hblocked
  have hstep : engineStep { s with cfg := Config.unbounded } = .next { u with cfg := Config.unbounded } := by
    by_cases hlive : s.inst.isLive
    · rw [engineStep_live hlive, liveStep_eq] at hu
      cases hu
      have hroom : ¬ LacksRoom outHeld (liveRun s.cfg s.inst) := by
        simp only [lacksRoom_iff_reply s, not_or]
        exact ⟨hoverflow, hrange, hcapacity, hblocked⟩
      rw [engineStep_live (s := { s with cfg := Config.unbounded }) hlive]
      exact liveStep_unbounded hroom
    · rw [engineStep_terminal_cfg hlive, hu]
      rfl
  rw [step_nil (s := { s with cfg := Config.unbounded }) hp, stepCurrent_next hstep, noteRun_cfg]

/-! ## Power-on -/

/-- A VM before its first LOAD meets the invariant (R34, R311). -/
theorem powerOn_vm_inv {c : Config} (hc : c.wf = true) : Vm.powerOn.Inv c where
  memCanonical := by decide
  memWords := by simp [Vm.powerOn]
  memInFootprint := by simp [Vm.powerOn]
  footprintRising := by decide
  footprintLegal := by simp [Vm.powerOn]
  footprintRoom := by simp [Vm.powerOn]
  ipRange := .inl (fits_small hc (by decide) (by decide))
  rbWord := fits_small hc (by decide) (by decide)
  haltedIff := by decide
  reasonIff := by decide
  recordClear := fun _ => rfl
  inWords := by simp [Vm.powerOn]
  outWords := by simp [Vm.powerOn]
  inRoom := by simp [Vm.powerOn]
  outRoom := by simp [Vm.powerOn]
  awaitingAtIn := fun h => by cases h

/-- The mux of at least one VM after MUX_RESET meets the invariant (R232, R311). -/
theorem powerOn_mux_inv {c : Config} (hc : c.wf = true) {m : MuxConfig} (hm : m.wf c = true) (n : Nat) :
    (Mux.powerOn m (n + 1)).Inv c (n + 1) := by
  have hzero : c.fits 0 = true := fits_small hc (by decide) (by decide)
  exact {
    cfgOk := hm
    asmCount := List.length_replicate
    emptyCountCount := List.length_replicate
    asmPartial := fun ws h => by simp [List.eq_of_mem_replicate h]
    asmWords := fun ws h => by simp [List.eq_of_mem_replicate h]
    hostOutWords := by simp [Mux.powerOn]
    signalWord := hzero
    bcastWords := ⟨hzero, hzero⟩
    monWords := by simp [Mux.powerOn]
    faultSource := Nat.succ_pos n
    faultDest := hzero }

/-- Settles O30: every VM is the empty one, no RUN is in progress, and 0 is a word. -/
theorem powerOnMeetsTheInvariant : Obligations.PowerOnMeetsTheInvariant := by
  intro c m n hc hm
  have hcount : (State.powerOn c m n).count = n + 1 := by simp [State.count, State.powerOn]; omega
  exact {
    cfgOk := hc
    instances := fun x hx => by
      have hx' : x = Vm.powerOn := by
        rcases List.mem_cons.1 hx with h | h
        · exact h
        · exact List.eq_of_mem_replicate h
      exact hx' ▸ powerOn_vm_inv hc
    muxOk := hcount ▸ powerOn_mux_inv hc hm n
    runsOnce := List.nodup_nil
    runsThere := fun p hp => by cases hp }

end Sys2Proof.Machine
end

section
/-! PROOFS. The invariant of R35 for one VM: every operation on a VM keeps it, and so every completed
instruction and every fault. -/

namespace Sys2Proof.Machine

/-! ## What a live VM that meets the invariant holds -/

theorem Vm.Inv.live_halted {c : Config} {x : Vm} (h : x.Inv c) (hl : x.isLive) : x.halted = false := by
  have hne : x.runState ≠ .haltedNormally := by rcases hl with hl | hl <;> simp [hl]
  simpa using mt h.haltedIff.1 hne

theorem Vm.Inv.live_fault {c : Config} {x : Vm} (h : x.Inv c) (hl : x.isLive) : x.fault = FaultRecord.clear :=
  h.recordClear (by rcases hl with hl | hl <;> simp [hl])

/-! ## The operations on a VM keep the invariant -/

/-- A live VM may be set to a run state that asks nothing of `HALTED`, of the record or of the word at `IP`. -/
theorem Vm.Inv.withRunState {c : Config} {x : Vm} (h : x.Inv c) (hl : x.isLive) {r : RunState}
    (hr : r = .running ∨ r = .killed) : Vm.Inv c { x with runState := r } :=
  { h with
    haltedIff := by rcases hr with rfl | rfl <;> simp [h.live_halted hl]
    reasonIff := by rcases hr with rfl | rfl <;> simp [h.live_fault hl, FaultRecord.clear]
    recordClear := fun _ => h.live_fault hl
    awaitingAtIn := by rcases hr with rfl | rfl <;> simp }

theorem Vm.Inv.advance {c : Config} {x : Vm} (h : x.Inv c) (hl : x.isLive) {n : Int}
    (hn : c.fits n = true ∨ c.fits (n - 1) = true) : (x.advance n).Inv c :=
  { h.withRunState hl (.inl rfl) with ipRange := hn, awaitingAtIn := by simp }

/-- A write of a word keeps the invariant of a VM that does not wait, whose word at `IP` is free to change. -/
theorem Vm.Inv.store {c : Config} {x : Vm} (h : x.Inv c) (hw : x.runState ≠ .awaitingInput) {d v : Int}
    (hd : legalAddr c d) (hr : writeRoom c x d) (hv : c.fits v = true) : (x.store d.toNat v).Inv c :=
  { h with
    memCanonical := write_canonical _ _ _ h.memCanonical
    memWords := fun p hp => by
      rcases mem_write _ _ _ p hp with hp | ⟨rfl, _⟩
      · exact h.memWords p hp
      · exact hv
    memInFootprint := fun p hp => by
      refine (mem_footprintAdd _ _ _).2 ?_
      rcases mem_write _ _ _ p hp with hp | ⟨rfl, _⟩
      · exact .inr (h.memInFootprint p hp)
      · exact .inl rfl
    footprintRising := footprintAdd_rising _ _ h.footprintRising
    footprintLegal := fun a ha => by
      rcases (mem_footprintAdd _ _ _).1 ha with rfl | ha
      · rwa [Int.toNat_of_nonneg hd.1]
      · exact h.footprintLegal a ha
    footprintRoom := fun k hk => by
      have hle := h.footprintRoom k hk
      have hroom := hr k hk
      rw [store_fp, footprintAdd_length _ _ h.footprintRising]
      split
      · exact hle
      · have := hroom.resolve_left ‹_›
        omega
    awaitingAtIn := fun ha => absurd ha hw }

theorem Vm.Inv.pushOut {c : Config} {x : Vm} (h : x.Inv c) {v : Int} (hv : c.fits v = true)
    (hroom : outputFull c x = false) : (x.pushOut v).Inv c :=
  { h with
    outWords := fun w hw => by
      rcases List.mem_append.1 hw with hw | hw
      · exact h.outWords w hw
      · rwa [List.mem_singleton.1 hw]
    outRoom := fun d hd => by
      have hle := h.outRoom d hd
      have hne : d ≠ x.outQ.length := by simpa [outputFull, hd] using hroom
      simp only [pushOut_outQ, List.length_append, List.length_singleton]
      omega }

theorem Vm.Inv.popOut {c : Config} {x : Vm} (h : x.Inv c) : x.popOut.Inv c :=
  { h with
    outWords := fun v hv => h.outWords v (List.mem_of_mem_tail hv)
    outRoom := fun d hd => by
      have := h.outRoom d hd
      simp only [popOut_outQ, List.length_tail]
      omega }

theorem Vm.Inv.pushIn {c : Config} {x : Vm} (h : x.Inv c) {vs : List Int} (hv : ∀ v ∈ vs, c.fits v = true)
    (hroom : inputRoom c x vs.length) : (x.pushIn vs).Inv c :=
  { h with
    inWords := fun v hm => (List.mem_append.1 hm).elim (h.inWords v) (hv v)
    inRoom := fun d hd => by simpa using hroom d hd }

/-- IN takes the front word of `InQ` (R160). -/
theorem Vm.Inv.popIn {c : Config} {x : Vm} (h : x.Inv c) {v : Int} {more : List Int} (hq : x.inQ = v :: more) :
    Vm.Inv c { x with inQ := more } :=
  { h with
    inWords := fun w hw => h.inWords w (by simp [hq, hw])
    inRoom := fun d hd => by
      have := h.inRoom d hd
      simp only [hq, List.length_cons] at this
      simp only
      omega }

theorem Vm.Inv.withBase {c : Config} {x : Vm} (h : x.Inv c) {b : Int} (hb : c.fits b = true) :
    Vm.Inv c { x with rb := b } :=
  { h with rbWord := hb }

theorem Vm.Inv.withPolicy {c : Config} {x : Vm} (h : x.Inv c) (p : InputPolicy) :
    Vm.Inv c { x with inputPolicy := p } :=
  { h with }

theorem Vm.Inv.kill {c : Config} {x : Vm} (h : x.Inv c) : x.kill.Inv c := by
  have hempty : ∀ y : Vm, y.Inv c → Vm.Inv c { y with inQ := [], outQ := [] } := fun y hy =>
    { hy with inWords := by simp, outWords := by simp, inRoom := by simp, outRoom := by simp }
  by_cases hl : x.live = true
  · have := hempty _ (h.withRunState ((live_iff x).1 hl) (.inr rfl))
    simpa [Vm.kill, hl] using this
  · simpa [Vm.kill, hl] using hempty x h

theorem Vm.Inv.setHalted {c : Config} {x : Vm} (h : x.Inv c) (hl : x.isLive) : x.setHalted.Inv c :=
  { h with
    haltedIff := by simp
    reasonIff := by simp [h.live_fault hl, FaultRecord.clear]
    recordClear := fun _ => h.live_fault hl
    awaitingAtIn := by simp }

/-- The fault entry keeps the invariant, since a live VM is not halted (R276). -/
theorem Vm.Inv.faultEntry {c : Config} {x : Vm} (h : x.Inv c) (hl : x.isLive) (e : Raise) :
    (Machine.faultEntry c x e).Inv c :=
  { h with
    haltedIff := by simp [h.live_halted hl]
    reasonIff := by simp [faultRecord]
    recordClear := by simp
    awaitingAtIn := by simp }

/-- A program that LOAD takes (R202). -/
theorem loadRefusal_eq_none {c : Config} {program : List Int} (h : loadRefusal c program = none) :
    (∀ v ∈ program, c.fits v = true) ∧ (∀ l, c.addrLimit = some l → program.length ≤ l) ∧
      ∀ k, c.capacity = some k → program.length ≤ k := by
  unfold loadRefusal at h
  split at h
  · cases h
  · rename_i hwords
    split at h
    · cases h
    · rename_i hlimit
      split at h
      · cases h
      · rename_i hcap
        refine ⟨by simpa using hwords, fun l hl => ?_, fun k hk => ?_⟩
        · simpa [hl] using hlimit
        · simpa [hk] using hcap

/-- The image of LOAD meets the invariant where LOAD is not refused (R201). -/
theorem Vm.Inv.loaded {c : Config} (hc : c.wf = true) {program : List Int} (h : loadRefusal c program = none) :
    (Vm.loaded program).Inv c := by
  obtain ⟨hwords, hlimit, hcap⟩ := loadRefusal_eq_none h
  have himage : ∀ p ∈ Memory.writeList [] 0 program, p.2 ∈ program ∧ p.1 < program.length := fun p hp => by
    rcases mem_writeList _ _ _ p hp with hp | ⟨hv, _, ha⟩
    · cases hp
    · exact ⟨hv, by omega⟩
  exact { powerOn_vm_inv hc with
    memCanonical := writeList_canonical _ _ _ (powerOn_vm_inv hc).memCanonical
    memWords := fun p hp => hwords _ (himage p hp).1
    memInFootprint := fun p hp => List.mem_range.2 (himage p hp).2
    footprintRising := List.pairwise_lt_range
    footprintLegal := fun a ha => ⟨by omega, fun l hl => by
      have hlen := hlimit l hl
      have hlt : a < program.length := List.mem_range.1 ha
      omega⟩
    footprintRoom := fun k hk => by simpa [Vm.loaded] using hcap k hk
    awaitingAtIn := fun ha => by cases ha }

/-! ## A completed instruction keeps the invariant -/

/-- Past its last word, at `IP + k`, an instruction leaves `IP` in range (R23). -/
theorem ipRange_past {c : Config} (hc : c.wf = true) {x : Vm} {k : Nat} (h : legalAddr c (x.ip + k)) {n : Int}
    (hn : n = x.ip + k + 1) : c.fits n = true ∨ c.fits (n - 1) = true :=
  .inr (by rw [hn, add_sub_cancel_right]; exact fits_address hc h)

theorem Vm.Inv.stored {c : Config} (hc : c.wf = true) {x : Vm} (h : x.Inv c) (hl : x.isLive) {k : Nat} {m : Mode}
    {d v n : Int} (hd : destAddr c x k m d) (hr : writeRoom c x d) (hv : c.fits v = true) (hn : n = x.ip + k + 1) :
    ((x.store d.toNat v).advance n).Inv c :=
  (h.advance hl (ipRange_past hc hd.1 hn)).store (by simp) hd.2.1 hr hv

theorem Vm.Inv.jumped {c : Config} (hc : c.wf = true) {x : Vm} (h : x.Inv c) (hl : x.isLive) {p : Prop} [Decidable p]
    {m : Mode} {a : Int} (ha : inputValue c x 2 m a) : (x.advance (if p then a else x.ip + 3)).Inv c := by
  refine h.advance hl ?_
  split
  · exact .inl (fits_inputValue hc h.memWords ha)
  · exact ipRange_past hc ha.1 (by push_cast; ring)

theorem fits_aluLt {c : Config} (hc : c.wf = true) (a b : Int) : c.fits (aluLt a b) = true := by
  unfold aluLt
  split <;> exact fits_small hc (by decide) (by decide)

theorem fits_aluEq {c : Config} (hc : c.wf = true) (a b : Int) : c.fits (aluEq a b) = true := by
  unfold aluEq
  split <;> exact fits_small hc (by decide) (by decide)

theorem Effect.inv {c : Config} (hc : c.wf = true) {x y : Vm} {i : Instr} {r : StepResult} (he : Effect c x i r y)
    (h : x.Inv c) (hl : x.isLive) (hip : legalAddr c x.ip) (hi : decode (x.wordAt x.ip) = .ok i) : y.Inv c := by
  cases he with
  | add _ _ hd hv hr => exact h.stored hc hl hd hr hv (by push_cast; ring)
  | mul _ _ hd hv hr => exact h.stored hc hl hd hr hv (by push_cast; ring)
  | lt _ _ hd hr => exact h.stored hc hl hd hr (fits_aluLt hc _ _) (by push_cast; ring)
  | eq _ _ hd hr => exact h.stored hc hl hd hr (fits_aluEq hc _ _) (by push_cast; ring)
  | inp hd hq hr =>
    exact (h.popIn hq).stored hc hl hd hr (h.inWords _ (by simp [hq])) (by push_cast; ring)
  | inpWaits _ _ _ =>
    exact { h with
      haltedIff := by simp [h.live_halted hl]
      reasonIff := by simp [h.live_fault hl, FaultRecord.clear]
      recordClear := fun _ => h.live_fault hl
      awaitingAtIn := fun _ => ⟨hip, _, hi⟩ }
  | out ha hroom =>
    exact (h.pushOut (fits_inputValue hc h.memWords ha) hroom).advance hl (ipRange_past hc ha.1 (by push_cast; ring))
  | outHolds _ _ => exact h
  | jt _ ha => exact h.jumped hc hl ha
  | jf _ ha => exact h.jumped hc hl ha
  | arb ha hv => exact (h.withBase hv).advance hl (ipRange_past hc ha.1 (by push_cast; ring))
  | halt => exact h.setHalted hl

/-- Settles O32: a terminal step leaves the VM, a live one faults (`Vm.Inv.faultEntry`) or
completes an instruction (`Effect.inv`). -/
theorem instanceStepKeepsTheInvariant : Obligations.InstanceStepKeepsTheInvariant := by
  intro s t hp hc h hstep
  obtain ⟨u, hu, rfl⟩ := step_engine hp hstep
  obtain ⟨hcfg, -, hinst, -⟩ := noteRun_rest u
  rw [hcfg, hinst, (engineStep_rest hu).1]
  rcases engineStep_cases hu with ⟨r, rfl, _⟩ | ⟨hlive, ⟨e, rfl⟩ | ⟨i, r, y, hip, hi, he, rfl⟩⟩
  · exact h
  · exact h.faultEntry ((live_iff _).1 hlive) e
  · exact he.inv hc h ((live_iff _).1 hlive) hip hi

/-- Settles O31: reset is power-on with this hardware's parameters, which are admitted. -/
theorem resetMeetsTheInvariant : Obligations.ResetMeetsTheInvariant :=
  powerOnMeetsTheInvariant _ _ _ (by decide) (by decide)

end Sys2Proof.Machine
end

section
/-! PROOFS. What a step of the system can do, said once: each VM moves by `VmMove`, and `Moves` says
how a whole state has come from another. Moves follow one another, whatever the event,
so that a property of every move is a property of every step. -/

namespace Sys2Proof.Machine

/-! ## The moves of one VM -/

/-- Everything that a step of the machine taken in `s` can do to VM `j`, one move at a time. -/
inductive VmMove (s : State) (j : Nat) (x : Vm) : Vm → Prop
  | same : VmMove s j x x
  | pushed {vs : List Int} : inputRoom s.cfg x vs.length → (s.Inv → ∀ v ∈ vs, s.cfg.fits v = true) →
      VmMove s j x (x.pushIn vs)
  | popped : VmMove s j x x.popOut
  | killed : VmMove s j x x.kill
  | loaded {program : List Int} {rest : List Event} : s.pending = .load j program :: rest →
      loadRefusal s.cfg program = none → VmMove s j x (Vm.loaded program)
  | policySet {p : InputPolicy} {rest : List Event} : s.pending = .setInputPolicy j p :: rest →
      VmMove s j x { x with inputPolicy := p }
  | faulted (e : Raise) : x.isLive → VmMove s j x (faultEntry s.cfg x e)
  | executed {i : Instr} {r : StepResult} {y : Vm} : x.isLive → legalAddr s.cfg x.ip →
      decode (x.wordAt x.ip) = .ok i → Effect s.cfg x i r y → VmMove s j x y

/-- A step may be several moves of one VM: a ROUTE pops a word and may push it to the same VM. -/
def VmMoves (s : State) (j : Nat) : Vm → Vm → Prop := Relation.ReflTransGen (VmMove s j)

theorem VmMove.inv {s : State} {j : Nat} {x y : Vm} (hm : VmMove s j x y) (hs : s.Inv) (h : x.Inv s.cfg) :
    y.Inv s.cfg := by
  cases hm with
  | same => exact h
  | pushed hroom hv => exact h.pushIn (hv hs) hroom
  | popped => exact h.popOut
  | killed => exact h.kill
  | loaded _ hload => exact .loaded hs.cfgOk hload
  | policySet _ => exact h.withPolicy _
  | faulted e hl => exact h.faultEntry hl e
  | executed hl hip hi he => exact he.inv hs.cfgOk h hl hip hi

theorem VmMoves.inv {s : State} {j : Nat} {x y : Vm} (hm : VmMoves s j x y) (hs : s.Inv) (h : x.Inv s.cfg) :
    y.Inv s.cfg := by
  induction hm with
  | refl => exact h
  | tail _ hlast ih => exact hlast.inv hs ih

/-! ## The moves of the system -/

/-- The RUN commands in progress are of VMs that are there, at most one for each (R207). -/
def State.RunsOk (s : State) : Prop := (s.runs.map Prod.fst).Nodup ∧ ∀ p ∈ s.runs, p.1 < s.count

/-- What a step taken in `s` that has come to `t` may have done to the system: each VM has moved, and the mux and the
list of RUN commands are as the invariant asks where they were so in `s`. -/
structure Moves (s t : State) : Prop where
  cfg : t.cfg = s.cfg
  count : t.count = s.count
  vms : ∀ j x, s.vm? j = some x → ∃ y, t.vm? j = some y ∧ VmMoves s j x y
  mux : s.Inv → t.mux.Inv s.cfg s.count
  runs : s.RunsOk → t.RunsOk

theorem State.Inv.runsOk {s : State} (h : s.Inv) : s.RunsOk := ⟨h.runsOnce, h.runsThere⟩

theorem Moves.refl (s : State) : Moves s s :=
  ⟨rfl, rfl, fun _ x hx => ⟨x, hx, .refl⟩, State.Inv.muxOk, id⟩

/-- VM `j` of `t` comes from VM `j` of `s`. -/
theorem Moves.source {s t : State} (h : Moves s t) {j : Nat} {y : Vm} (hy : t.vm? j = some y) :
    ∃ x, s.vm? j = some x ∧ VmMoves s j x y := by
  have hj : j < s.insts.length := by
    rw [length_insts, ← h.count]
    exact vm_lt hy
  have hx : s.vm? j = some s.insts[j] := List.getElem?_eq_getElem hj
  obtain ⟨z, hz, hm⟩ := h.vms j _ hx
  rw [hy] at hz
  cases hz
  exact ⟨_, hx, hm⟩

theorem Moves.vmInv {s t : State} (h : Moves s t) (hs : s.Inv) {j : Nat} {y : Vm} (hy : t.vm? j = some y) :
    y.Inv s.cfg := by
  obtain ⟨x, hx, hm⟩ := h.source hy
  exact hm.inv hs (hs.instances x (mem_insts hx))

theorem Moves.inv {s t : State} (h : Moves s t) (hs : s.Inv) : t.Inv where
  cfgOk := h.cfg ▸ hs.cfgOk
  instances := fun y hy => by
    obtain ⟨j, hj⟩ := List.mem_iff_getElem?.1 hy
    rw [h.cfg]
    exact h.vmInv hs hj
  muxOk := by
    rw [h.cfg, h.count]
    exact h.mux hs
  runsOnce := (h.runs hs.runsOk).1
  runsThere := (h.runs hs.runsOk).2

/-! ## The moves one after another -/

theorem Moves.modifyVm {s t : State} (h : Moves s t) {j : Nat} {f : Vm → Vm}
    (hf : ∀ y, t.vm? j = some y → VmMove s j y (f y)) : Moves s (t.modifyVm j f) := by
  obtain ⟨hcfg, hmux, hruns, -⟩ := modifyVm_rest t j f
  refine ⟨hcfg.trans h.cfg, (count_modifyVm ..).trans h.count, fun k x hx => ?_, fun hs => ?_, fun hs => ?_⟩
  · obtain ⟨y, hy, hm⟩ := h.vms k x hx
    rw [vm_modifyVm, hy]
    by_cases hjk : j = k
    · subst hjk
      exact ⟨f y, by simp, hm.tail (hf y hy)⟩
    · exact ⟨y, by simp [hjk], hm⟩
  · rw [hmux]
    exact h.mux hs
  · unfold State.RunsOk
    rw [hruns, count_modifyVm]
    exact h.runs hs

theorem Moves.modifyMux {s t : State} (h : Moves s t) {f : Mux → Mux}
    (hf : s.Inv → t.mux.Inv s.cfg s.count → (f t.mux).Inv s.cfg s.count) : Moves s (t.modifyMux f) :=
  ⟨h.cfg, h.count, h.vms, fun hs => hf hs (h.mux hs), h.runs⟩

theorem Moves.answer {s t : State} (h : Moves s t) (r : Reply) : Moves s (t.answer r) :=
  ⟨h.cfg, h.count, h.vms, h.mux, h.runs⟩

theorem Moves.withPending {s t : State} (h : Moves s t) (rest : List Event) : Moves s { t with pending := rest } :=
  ⟨h.cfg, h.count, h.vms, h.mux, h.runs⟩

theorem Moves.focus {s t : State} (h : Moves s t) (j : Nat) : Moves s (t.focus j) := by
  obtain ⟨hcfg, hmux, hruns, -⟩ := focus_rest t j
  have hcount : (t.focus j).count = t.count := by rw [← length_insts, ← length_insts, insts_focus]
  refine ⟨hcfg.trans h.cfg, hcount.trans h.count, fun k x hx => ?_, fun hs => ?_, fun hs => ?_⟩
  · unfold State.vm?
    rw [insts_focus]
    exact h.vms k x hx
  · rw [hmux]
    exact h.mux hs
  · unfold State.RunsOk
    rw [hruns, hcount]
    exact h.runs hs

/-- Ending RUN commands leaves the others (R132). -/
theorem Moves.filterRuns {s t : State} (h : Moves s t) (p : Nat × Bool → Bool) :
    Moves s { t with runs := t.runs.filter p } :=
  ⟨h.cfg, h.count, h.vms, h.mux, fun hs =>
    ⟨(h.runs hs).1.sublist (List.filter_sublist.map _), fun q hq => (h.runs hs).2 q (List.mem_filter.1 hq).1⟩⟩

theorem Moves.noteRun {s t : State} (h : Moves s t) : Moves s t.noteRun := by
  unfold State.noteRun
  split
  · split
    · exact h.filterRuns _
    · exact h
  · exact h

/-- A RUN of a VM takes the place of an earlier one of it (R207). -/
theorem Moves.addRun {s t : State} (h : Moves s t) {j : Nat} (hj : j < t.count) (stop : Bool) :
    Moves s { t with runs := (j, stop) :: t.runs.filter (fun p => p.1 != j) } := by
  refine ⟨h.cfg, h.count, h.vms, h.mux, fun hs => ?_⟩
  obtain ⟨honce, hthere⟩ := (h.filterRuns (fun p => p.1 != j)).runs hs
  refine ⟨List.nodup_cons.2 ⟨?_, honce⟩, fun p hp => ?_⟩
  · simp
  · rcases List.mem_cons.1 hp with rfl | hp
    · exact hj
    · exact hthere p hp

/-! ## A step of a VM -/

theorem engineStep_move {s t u : State} (hcfg : t.cfg = s.cfg) (hu : engineStep t = .next u) (j : Nat) :
    VmMove s j t.inst u.inst := by
  rcases engineStep_cases hu with ⟨r, rfl, _⟩ | ⟨hlive, ⟨e, rfl⟩ | ⟨i, r, y, hip, hi, he, rfl⟩⟩
  · exact .same
  · rw [finish_error_inst, hcfg]
    exact .faulted e ((live_iff _).1 hlive)
  · exact .executed ((live_iff _).1 hlive) (hcfg ▸ hip) hi (hcfg ▸ he)

/-- A step of the engine changes the VM at the focus and the reply. -/
theorem engineStep_eq_modifyVm {s t : State} (h : engineStep s = .next t) :
    t = (s.modifyVm s.current (fun _ => t.inst)).answer t.reply := by
  obtain ⟨hcfg, hlower, hupper, hmux, hruns, hpending⟩ := engineStep_rest h
  have hfocus : s.modifyVm s.current (fun _ => t.inst) = { s with inst := t.inst } := by
    simp [State.modifyVm, State.current]
  rw [hfocus]
  cases t
  simp_all [State.answer]

theorem Moves.stepCurrent {s t u : State} (h : Moves s t) (hu : stepCurrent t = .next u) : Moves s u := by
  obtain ⟨w, hw, rfl⟩ := stepCurrent_eq hu
  refine Moves.noteRun ?_
  rw [engineStep_eq_modifyVm hw]
  refine (h.modifyVm fun y hy => ?_).answer _
  rw [vm_current] at hy
  cases hy
  exact engineStep_move h.cfg hw _

theorem Moves.stepAt {s t u : State} (h : Moves s t) {j : Nat} (hu : stepAt j t = .next u) : Moves s u :=
  (h.focus j).stepCurrent hu

end Sys2Proof.Machine
end

section
/-! PROOFS. Every operation on the mux keeps its invariant (R231). -/

namespace Sys2Proof.Machine

/-! ## The operations on the mux keep its invariant -/

section
variable {c : Config} {n : Nat} {m : Mux}

theorem Mux.Inv.clearCounts (h : m.Inv c n) : m.clearCounts.Inv c n :=
  { h with emptyCountCount := by simp [h.emptyCountCount] }

theorem Mux.Inv.countSupply (h : m.Inv c n) (i : Nat) :
    Mux.Inv c n { m with emptyCount := m.emptyCount.modify i (· + 1) } :=
  { h with emptyCountCount := by simp [h.emptyCountCount] }

theorem Mux.Inv.setAsm (h : m.Inv c n) {ws : List Int} (hlen : ws.length ≤ 2) (hw : ∀ v ∈ ws, c.fits v = true)
    (i : Nat) : (m.setAsm i ws).Inv c n :=
  { h with
    asmCount := by simp [h.asmCount]
    asmPartial := fun us hu => (List.mem_or_eq_of_mem_set hu).elim (h.asmPartial us) (fun e => e ▸ hlen)
    asmWords := fun us hu => (List.mem_or_eq_of_mem_set hu).elim (h.asmWords us) (fun e => e ▸ hw) }

theorem Mux.Inv.pushHostOut (h : m.Inv c n) {v : Int} (hv : c.fits v = true) : (m.pushHostOut v).Inv c n :=
  { h with
    hostOutWords := fun w hw => (List.mem_append.1 hw).elim (h.hostOutWords w) (fun e => List.mem_singleton.1 e ▸ hv) }

theorem Mux.Inv.signal (h : m.Inv c n) {v : Int} (hv : c.fits v = true) : (m.signal v).Inv c n :=
  { h with signalWord := hv }

theorem Mux.Inv.withStatus (h : m.Inv c n) (v : MuxStatus) : Mux.Inv c n { m with status := v } :=
  { h with }

/-- `MON` with a record of two words more. -/
theorem Mux.Inv.pushMon (h : m.Inv c n) {r : MonRecord} (hr : c.fits r.x = true ∧ c.fits r.y = true) :
    Mux.Inv c n { m with mon := m.mon ++ [r] } :=
  { h with
    monWords := fun q hq => (List.mem_append.1 hq).elim (h.monWords q) (fun e => List.mem_singleton.1 e ▸ hr) }

theorem Mux.Inv.noteReinject (h : m.Inv c n) : m.noteReinject.Inv c n := h.pushMon h.bcastWords

theorem Mux.Inv.withBcast (h : m.Inv c n) {x y : Int} (hx : c.fits x = true) (hy : c.fits y = true) :
    Mux.Inv c n { m with lastBcast := (x, y), lastBcastValid := true, mon := m.mon ++ [⟨.broadcast, x, y⟩] } :=
  { h.pushMon (r := ⟨.broadcast, x, y⟩) ⟨hx, hy⟩ with bcastWords := ⟨hx, hy⟩ }

theorem Mux.Inv.withRoutingFault (h : m.Inv c n) {i : Nat} {dest : Int} (hi : i < n) (hd : c.fits dest = true) :
    Mux.Inv c n { m with status := .routingFault, routeFaultSrc := i, routeFaultDest := dest } :=
  { h with faultSource := hi, faultDest := hd }

theorem Mux.Inv.withHostOut (h : m.Inv c n) {v : Int} {more : List Int} (hq : m.hostOut = v :: more) :
    Mux.Inv c n { m with hostOut := more } :=
  { h with hostOutWords := fun w hw => h.hostOutWords w (by simp [hq, hw]) }

theorem Mux.Inv.withMon (h : m.Inv c n) {r : MonRecord} {more : List MonRecord} (hq : m.mon = r :: more) :
    Mux.Inv c n { m with mon := more } :=
  { h with monWords := fun w hw => h.monWords w (by simp [hq, hw]) }

/-- MUX_RESET (R232): there is a VM 0 for `ROUTE_FAULT_SRC`, and 0 is a word. -/
theorem Mux.Inv.clear (h : m.Inv c n) (hc : c.wf = true) : m.clear.Inv c n := by
  have hzero : c.fits 0 = true := fits_small hc (by decide) (by decide)
  exact {
    cfgOk := h.cfgOk
    asmCount := by simp [Mux.clear, h.asmCount]
    emptyCountCount := by simp [Mux.clear, h.emptyCountCount]
    asmPartial := by simp [Mux.clear]
    asmWords := by simp [Mux.clear]
    hostOutWords := by simp [Mux.clear]
    signalWord := hzero
    bcastWords := ⟨hzero, hzero⟩
    monWords := by simp [Mux.clear]
    faultSource := Nat.zero_lt_of_lt h.faultSource
    faultDest := hzero }

/-- What SUPPLY pushes is a word (R242). -/
theorem Mux.Inv.supplyWord (h : m.Inv c n) {v : Int} (hv : m.policy = .supply v) : c.fits v = true := by
  have hcfg := h.cfgOk
  unfold Mux.policy at hv
  split at hv
  · cases hv
  · simp only [MuxConfig.wf, hv, Bool.and_eq_true] at hcfg
    exact hcfg.2

theorem Mux.Inv.asmAt (h : m.Inv c n) (i : Nat) :
    ((m.asm[i]?).getD []).length ≤ 2 ∧ ∀ v ∈ (m.asm[i]?).getD [], c.fits v = true := by
  cases hi : m.asm[i]? with
  | none => simp
  | some ws =>
    have hmem : ws ∈ m.asm := List.mem_of_getElem? hi
    exact ⟨h.asmPartial ws hmem, h.asmWords ws hmem⟩

end

end Sys2Proof.Machine
end

section
/-! PROOFS. Every event is made of moves: the steps of the mux, the commands of the host, and the step of the system. -/

namespace Sys2Proof.Machine

/-! ## A step of the mux -/

theorem Moves.deliver {s t u : State} (h : Moves s t) {d : Nat} {vs : List Int}
    (hv : s.Inv → ∀ v ∈ vs, s.cfg.fits v = true) (hu : t.deliver d vs = some u) : Moves s u := by
  cases hy : t.vm? d with
  | none => simp [State.deliver, hy] at hu
  | some y =>
    obtain ⟨hkilled, hroom, hfull⟩ := deliver_cases (vs := vs) hy
    by_cases hk : y.runState = .killed
    · rw [hkilled hk] at hu
      cases hu
      exact h
    · by_cases hr : inputRoom t.cfg y vs.length
      · rw [hroom hk hr] at hu
        cases hu
        refine h.modifyVm fun z hz => ?_
        rw [hy] at hz
        cases hz
        exact .pushed (h.cfg ▸ hr) hv
      · rw [hfull hk hr] at hu
        cases hu

theorem Moves.routeChain {s t u : State} (h : Moves s t) {i : Nat} {v : Int} (hv : s.Inv → s.cfg.fits v = true)
    (hu : routeChain i v t = some u) : Moves s u := by
  have hvs : s.Inv → ∀ w ∈ [v], s.cfg.fits w = true := fun hs w hw => List.mem_singleton.1 hw ▸ hv hs
  unfold Machine.routeChain at hu
  split at hu
  · exact h.deliver hvs hu
  · split at hu
    · obtain ⟨w, hw, rfl⟩ := Option.map_eq_some_iff.1 hu
      exact (h.deliver hvs hw).modifyMux fun hs hm => hm.signal (hv hs)
    · cases hu
      exact h.modifyMux fun hs hm => (hm.pushHostOut (hv hs)).signal (hv hs)

theorem Moves.dispatchPacket {s t u : State} (h : Moves s t) {i : Nat} (hi : i < s.count) {dest x y : Int}
    (hv : s.Inv → ∀ v ∈ [dest, x, y], s.cfg.fits v = true) (hu : dispatchPacket i dest x y t = some u) :
    Moves s u := by
  unfold Machine.dispatchPacket at hu
  split at hu
  · cases hu
    exact h.modifyMux fun hs hm => hm.withBcast (hv hs x (by simp)) (hv hs y (by simp))
  · split at hu
    · exact h.deliver (fun hs v hm => hv hs v (by simp_all)) hu
    · cases hu
      exact h.modifyMux fun hs hm => hm.withRoutingFault hi (hv hs dest (by simp))

theorem Moves.routePacket {s t u : State} (h : Moves s t) {i : Nat} (hi : i < s.count) {v : Int}
    (hv : s.Inv → s.cfg.fits v = true) (hu : routePacket i v t = some u) : Moves s u := by
  unfold Machine.routePacket at hu
  have hasm : s.Inv → ∀ w ∈ (t.mux.asm[i]?).getD [] ++ [v], s.cfg.fits w = true := fun hs w hw =>
    (List.mem_append.1 hw).elim (((h.mux hs).asmAt i).2 w) (fun e => List.mem_singleton.1 e ▸ hv hs)
  split at hu
  · rename_i dest x hws
    rw [hws] at hasm
    obtain ⟨w, hw, rfl⟩ := Option.map_eq_some_iff.1 hu
    exact (h.dispatchPacket hi hasm hw).modifyMux fun _ hm => hm.setAsm (by simp) (by simp) i
  · rename_i hnot
    cases hu
    refine h.modifyMux fun hs hm => hm.setAsm ?_ (hasm hs) i
    have hle := (hm.asmAt i).1
    have hne : ((t.mux.asm[i]?).getD []).length ≠ 2 := fun h2 => by
      obtain ⟨a, b, hab⟩ := List.length_eq_two.1 h2
      exact hnot a b hab
    rw [List.length_append, List.length_singleton]
    omega

theorem Moves.routeWord {s t u : State} (h : Moves s t) {i : Nat} (hi : i < s.count) {v : Int}
    (hv : s.Inv → s.cfg.fits v = true) (hu : routeWord i v t = some u) : Moves s u := by
  unfold Machine.routeWord at hu
  split at hu
  · exact h.routeChain hv hu
  · exact h.routePacket hi hv hu

theorem Moves.route {s t u : State} (h : Moves s t) {i : Nat} (hu : route i t = some u) : Moves s u := by
  by_cases ha : t.mux.status = .active
  · cases hx : t.vm? i with
    | none => simp [Machine.route, ha, hx] at hu
    | some x =>
      cases hq : x.outQ with
      | nil => simp [Machine.route, ha, hx, hq] at hu
      | cons v more =>
        rw [route_eq ha hx hq] at hu
        obtain ⟨w, hw, rfl⟩ := Option.map_eq_some_iff.1 hu
        have hv : s.Inv → s.cfg.fits v = true := fun hs => (h.vmInv hs hx).outWords v (by simp [hq])
        have hpop : Moves s (t.modifyVm i Vm.popOut) := h.modifyVm fun _ _ => .popped
        exact (hpop.routeWord (h.count ▸ vm_lt hx) hv hw).modifyMux fun _ hm => hm.clearCounts
  · rw [route_inactive ha] at hu
    cases hu

theorem Moves.supply {s t u : State} (h : Moves s t) {i : Nat} (hu : supply i t = some u) : Moves s u := by
  unfold Machine.supply at hu
  split at hu
  · rename_i v x _ hpolicy hx
    split at hu
    · rename_i hwait
      obtain ⟨_, _, hroom⟩ := hwait
      cases hu
      refine Moves.modifyMux (h.modifyVm fun y hy => ?_) fun _ hm => hm.countSupply i
      rw [hx] at hy
      cases hy
      refine .pushed (h.cfg ▸ hasRoom_iff.1 hroom) fun hs w hw => ?_
      rw [List.mem_singleton.1 hw]
      exact (h.mux hs).supplyWord hpolicy
    · cases hu
  · cases hu

theorem Moves.setMuxStatus {s t : State} (h : Moves s t) (v : MuxStatus) : Moves s (t.setMuxStatus v) :=
  h.modifyMux fun _ hm => hm.withStatus v

theorem Moves.reinject {s t u : State} (h : Moves s t) (hu : reinject t = some u) : Moves s u := by
  obtain ⟨w, hw, rfl⟩ := Option.map_eq_some_iff.1 hu
  have hv : s.Inv → ∀ v ∈ [t.mux.lastBcast.1, t.mux.lastBcast.2], s.cfg.fits v = true := fun hs => by
    simpa using (h.mux hs).bcastWords
  exact (h.deliver hv hw).modifyMux fun _ hm => hm.noteReinject.clearCounts

theorem Moves.idleAction {s t u : State} (h : Moves s t) (hu : idleAction t = some u) : Moves s u := by
  unfold Machine.idleAction at hu
  split at hu
  · split at hu
    · cases hu
      exact h.setMuxStatus _
    · split at hu
      · exact h.reinject hu
      · cases hu
        exact h.setMuxStatus _
  · cases hu

theorem Moves.complete {s t u : State} (h : Moves s t) (hu : complete t = some u) : Moves s u := by
  unfold Machine.complete at hu
  split at hu
  · split at hu
    · cases hu
      exact h.setMuxStatus _
    · cases hu
  · cases hu

theorem Moves.takeMux {s t u : State} (h : Moves s t) {r : Option State} (hr : ∀ w, r = some w → Moves s w)
    (hu : t.takeMux r = .next u) : Moves s u := by
  cases r with
  | none =>
    cases hu
    exact h.answer _
  | some w =>
    cases hu
    exact (hr w rfl).answer _

theorem Moves.muxStep {s t u : State} (h : Moves s t) {j : Nat} (hu : muxStep j t = .next u) : Moves s u := by
  unfold Machine.muxStep at hu
  split at hu
  · exact h.stepAt hu
  · cases hu
    exact h.answer _

theorem Moves.roundRobin {s t u : State} (h : Moves s t) (hu : perform .roundRobin t = .next u) : Moves s u := by
  cases hmove : t.roundRobinMove with
  | none =>
    simp only [perform, hmove, Host.Outcome.next.injEq] at hu
    exact hu ▸ h.answer _
  | some move =>
    cases move with
    | step j => exact h.muxStep (by simpa only [perform, hmove] using hu)
    | route j => exact h.takeMux (fun _ => h.route) (by simpa only [perform, hmove] using hu)

/-! ## A command of the host -/

/-- A command is a move of the VM it names (R200). -/
theorem Moves.command {s t : State} (h : Moves s t) {j : Nat} {f : Vm → Reply × Vm}
    (hf : ∀ x, VmMove s j x (f x).2) : Moves s (t.command j f) := by
  unfold State.command
  split
  · exact h.answer _
  · rename_i x hx
    refine (h.modifyVm fun y hy => ?_).answer _
    rw [hx] at hy
    cases hy
    exact hf x

theorem load_move {s : State} {j : Nat} {program : List Int} {rest : List Event}
    (hp : s.pending = .load j program :: rest) (x : Vm) : VmMove s j x (load s.cfg program x).2 := by
  unfold load
  split
  · exact .same
  · exact .loaded hp ‹_›

theorem provideInputs_move (s : State) (j : Nat) (vs : List Int) (x : Vm) :
    VmMove s j x (provideInputs s.cfg vs x).2 := by
  unfold provideInputs
  split
  · exact .same
  · rename_i hv
    split
    · exact .same
    · split
      · exact .pushed (hasRoom_iff.1 ‹_›) fun _ => by simpa using hv
      · exact .same

/-- PROVIDE_INPUT is PROVIDE_INPUT_SEQUENCE of one word (R204). -/
theorem provideInput_eq (c : Config) (v : Int) : provideInput c v = provideInputs c [v] := by
  funext x
  simp [provideInput, provideInputs]

theorem readOutput_move (s : State) (j : Nat) (x : Vm) : VmMove s j x (readOutput x).2 := by
  unfold readOutput
  split
  · exact .same
  · rename_i v more hq
    have hpop : x.popOut = { x with outQ := more } := by simp [Vm.popOut, hq]
    exact hpop ▸ .popped

theorem peek_move (s : State) (j : Nat) (a : Int) (x : Vm) : VmMove s j x (peek s.cfg a x).2 := by
  unfold peek
  split <;> exact .same

theorem Moves.hostStep {s t u : State} (h : Moves s t) {j : Nat} (hu : hostStep j t = .next u) : Moves s u := by
  unfold Machine.hostStep at hu
  split at hu
  · cases hu
    exact h.answer _
  · exact h.stepAt hu

theorem Moves.startRun {s t u : State} (h : Moves s t) {j : Nat} {stop : Bool}
    (hu : startRun j stop t = .next u) : Moves s u := by
  unfold Machine.startRun at hu
  split at hu
  · cases hu
    exact h.answer _
  · exact (h.addRun (vm_lt ‹_›) stop).stepAt hu

theorem Moves.muxKill {s t : State} (h : Moves s t) (j : Nat) : Moves s (muxKill j t) := by
  unfold Machine.muxKill
  split
  · exact h.answer _
  · have hkill : Moves s (t.modifyVm j Vm.kill) := h.modifyVm fun _ _ => .killed
    exact (hkill.modifyMux fun _ hm => hm.setAsm (by simp) (by simp) j).answer _

theorem Moves.popHostOut {s t : State} (h : Moves s t) : Moves s (popHostOut t) := by
  unfold Machine.popHostOut
  split
  · exact h.answer _
  · exact (h.modifyMux fun _ hm => hm.withHostOut ‹_›).answer _

theorem Moves.popMon {s t : State} (h : Moves s t) : Moves s (popMon t) := by
  unfold Machine.popMon
  split
  · exact h.answer _
  · exact (h.modifyMux fun _ hm => hm.withMon ‹_›).answer _

/-! ## A step of the system -/

theorem perform_moves {s t : State} {e : Event} {rest : List Event} (hp : s.pending = e :: rest)
    (ht : perform e { s with pending := rest } = .next t) : Moves s t := by
  have h := (Moves.refl s).withPending rest
  cases e with
  | load j program => cases ht; exact h.command (load_move hp)
  | provideInput j v =>
    cases ht
    refine h.command ?_
    rw [provideInput_eq]
    exact provideInputs_move s j [v]
  | provideInputSequence j vs => cases ht; exact h.command (provideInputs_move s j vs)
  | hostStep j => exact h.hostStep ht
  | run j stop => exact h.startRun ht
  | readOutput j => cases ht; exact h.command (readOutput_move s j)
  | isHalted j => cases ht; exact h.command fun _ => .same
  | readStatus j => cases ht; exact h.command fun _ => .same
  | setInputPolicy j p => cases ht; exact h.command fun _ => .policySet hp
  | peek j a => cases ht; exact h.command (peek_move s j a)
  | kill j => cases ht; exact h.command fun _ => .killed
  | muxReset => cases ht; exact (h.modifyMux fun hs hm => hm.clear hs.cfgOk).answer _
  | muxKill j => cases ht; exact h.muxKill j
  | readMux => cases ht; exact h.answer _
  | popHostOut => cases ht; exact h.popHostOut
  | popMon => cases ht; exact h.popMon
  | muxStep j => exact h.muxStep ht
  | route j => exact h.takeMux (fun _ => h.route) ht
  | supply j => exact h.takeMux (fun _ => h.supply) ht
  | idleAction => exact h.takeMux (fun _ => h.idleAction) ht
  | complete => exact h.takeMux (fun _ => h.complete) ht
  | roundRobin => exact h.roundRobin ht

/-- Whatever the event, what a step does to a VM are the moves of `VmMove`. -/
theorem step_moves {s t : State} (h : step s = .next t) : Moves s t := by
  cases hp : s.pending with
  | nil => exact (Moves.refl s).stepCurrent (step_nil hp ▸ h)
  | cons e rest => exact perform_moves hp (step_cons hp ▸ h)

/-- Settles O33: every step is made of moves that keep the invariant of each VM, of the mux and of the RUN commands. -/
theorem everyEventKeepsTheInvariant : Obligations.EveryEventKeepsTheInvariant :=
  fun _ _ hs h => (step_moves h).inv hs

end Sys2Proof.Machine
end

section
/-! PROOFS. What a step leaves of a VM and of the system, read off its moves. -/

namespace Sys2Proof.Machine

/-! ## From one move to a step -/

/-- A terminal run state is left by LOAD alone (R26, R279). -/
theorem VmMove.runState_of_terminal {s : State} {j : Nat} {x y : Vm} (hm : VmMove s j x y)
    (hx : x.runState.terminal) (hload : ∀ program rest, s.pending ≠ .load j program :: rest) :
    y.runState = x.runState := by
  have hlive : x.live = false := (terminal_iff x).1 hx
  have hnot : ¬ x.isLive := fun hl => by simp [(live_iff x).2 hl] at hlive
  cases hm with
  | same | pushed | popped | policySet => rfl
  | killed => simp [hlive]
  | loaded hp _ => exact absurd hp (hload _ _)
  | faulted _ hl => exact absurd hl hnot
  | executed hl => exact absurd hl hnot

theorem VmMoves.runState_of_terminal {s : State} {j : Nat} {x y : Vm} (hm : VmMoves s j x y)
    (hx : x.runState.terminal) (hload : ∀ program rest, s.pending ≠ .load j program :: rest) :
    y.runState = x.runState := by
  induction hm with
  | refl => rfl
  | tail _ hlast ih => exact (hlast.runState_of_terminal (ih ▸ hx) hload).trans ih

/-- Settles O36: no move but a LOAD leaves a terminal run state. -/
theorem onlyLoadLeavesATerminalState : Obligations.OnlyLoadLeavesATerminalState := by
  intro s t j x hx hterm hstep hload
  obtain ⟨y, hy, hm⟩ := (step_moves hstep).vms j x hx
  exact ⟨y, hy, hm.runState_of_terminal hterm hload⟩

theorem Effect.fp_subset {c : Config} {x y : Vm} {i : Instr} {r : StepResult} (he : Effect c x i r y) :
    x.fp ⊆ y.fp := by
  have hstore : ∀ d : Nat, x.fp ⊆ footprintAdd x.fp d := fun d a ha => (mem_footprintAdd _ _ _).2 (.inr ha)
  cases he with
  | add | mul | lt | eq | inp => exact hstore _
  | inpWaits | out | outHolds | jt | jf | arb | halt => exact List.Subset.refl _

theorem Effect.inputPolicy {c : Config} {x y : Vm} {i : Instr} {r : StepResult} (he : Effect c x i r y) :
    y.inputPolicy = x.inputPolicy := by
  cases he <;> rfl

theorem VmMove.fp_subset {s : State} {j : Nat} {x y : Vm} (hm : VmMove s j x y)
    (hload : ∀ program rest, s.pending ≠ .load j program :: rest) : x.fp ⊆ y.fp := by
  cases hm with
  | same | pushed | popped | killed | policySet | faulted => exact List.Subset.refl _
  | loaded hp _ => exact absurd hp (hload _ _)
  | executed _ _ _ he => exact he.fp_subset

theorem VmMoves.fp_subset {s : State} {j : Nat} {x y : Vm} (hm : VmMoves s j x y)
    (hload : ∀ program rest, s.pending ≠ .load j program :: rest) : x.fp ⊆ y.fp := by
  induction hm with
  | refl => exact List.Subset.refl _
  | tail _ hlast ih => exact List.Subset.trans ih (hlast.fp_subset hload)

theorem VmMove.inputPolicy {s : State} {j : Nat} {x y : Vm} (hm : VmMove s j x y)
    (hload : ∀ program rest, s.pending ≠ .load j program :: rest)
    (hset : ∀ p rest, s.pending ≠ .setInputPolicy j p :: rest) : y.inputPolicy = x.inputPolicy := by
  cases hm with
  | same | pushed | popped | killed | faulted => rfl
  | loaded hp _ => exact absurd hp (hload _ _)
  | policySet hp => exact absurd hp (hset _ _)
  | executed _ _ _ he => exact he.inputPolicy

theorem VmMoves.inputPolicy {s : State} {j : Nat} {x y : Vm} (hm : VmMoves s j x y)
    (hload : ∀ program rest, s.pending ≠ .load j program :: rest)
    (hset : ∀ p rest, s.pending ≠ .setInputPolicy j p :: rest) : y.inputPolicy = x.inputPolicy := by
  induction hm with
  | refl => rfl
  | tail _ hlast ih => exact (hlast.inputPolicy hload hset).trans ih

/-- Settles O37: no move but a LOAD takes an address from the footprint, and none but a LOAD or
SET_INPUT_POLICY writes the policy. -/
theorem policyIsTheHostsAndFootprintGrows : Obligations.PolicyIsTheHostsAndFootprintGrows := by
  intro s t j x hx hstep hload
  obtain ⟨y, hy, hm⟩ := (step_moves hstep).vms j x hx
  exact ⟨y, hy, fun _ ha => hm.fp_subset hload ha, hm.inputPolicy hload⟩

/-! ## A step of the engine -/

/-- Settles O34: neither the engine nor the bookkeeping of RUN writes anything beside the VM at the
focus, the reply and the list of RUN commands. -/
theorem stepTouchesNoOtherInstance : Obligations.StepTouchesNoOtherInstance := by
  intro s t hp hstep
  obtain ⟨u, hu, rfl⟩ := step_engine hp hstep
  obtain ⟨hcfg, hlower, -, hupper, hmux, hpending, -⟩ := noteRun_rest u
  obtain ⟨hcfg', hlower', hupper', hmux', -, hpending'⟩ := engineStep_rest hu
  exact ⟨hlower.trans hlower', hupper.trans hupper', hmux.trans hmux', hcfg.trans hcfg',
    hpending.trans (hpending'.trans hp)⟩

/-- Settles O13: only the effects of completed instructions other than HALT write `IP`, and they report it. -/
theorem ipChangesOnlyOnCompletion : Obligations.IpChangesOnlyOnCompletion := by
  intro s t r hp hstep hr
  obtain ⟨u, hu, rfl⟩ := step_engine hp hstep
  obtain ⟨-, -, hinst, -, -, -, hreply⟩ := noteRun_rest u
  rw [hreply] at hr
  rw [hinst]
  rcases engineStep_cases hu with ⟨_, rfl, hterminal⟩ | ⟨_, ⟨e, rfl⟩ | ⟨i, _, y, _, _, he, rfl⟩⟩
  · cases hr
    rcases hterminal with ⟨_, rfl⟩ | ⟨_, rfl⟩ | ⟨_, rfl⟩ <;> rfl
  · cases hr
    rfl
  · cases hr
    cases he <;> rfl

end Sys2Proof.Machine
end

section
/-! PROOFS. The codes and the places of the fields of `STATUS` (R30). -/

namespace Sys2Proof.Machine

theorem RunState.code_lt (r : RunState) : r.code < 8 := by cases r <;> decide

theorem FaultRecord.reasonCode_lt (f : FaultRecord) : f.reasonCode < 16 := by
  unfold FaultRecord.reasonCode
  rcases f.reason with _ | f
  · decide
  · cases f <;> decide

theorem InputPolicy.code_lt (p : InputPolicy) : p.code < 2 := by cases p <;> decide

/-- Each field of `STATUS` fits in its bits (R30). -/
theorem statusFields_lt (x : Vm) :
    x.runState.code < 8 ∧ x.halted.toNat < 2 ∧ x.fault.reasonCode < 16 ∧ x.fault.wordValid.toNat < 2 ∧
      x.fault.addrValid.toNat < 2 ∧ x.inputPolicy.code < 2 :=
  ⟨x.runState.code_lt, x.halted.toNat_lt, x.fault.reasonCode_lt, x.fault.wordValid.toNat_lt,
    x.fault.addrValid.toNat_lt, x.inputPolicy.code_lt⟩

/-- No field of `STATUS` is cut off at bit 16 (R30). -/
theorem toNat_status (x : Vm) :
    x.status.toNat = x.runState.code + 8 * x.halted.toNat + 16 * x.fault.reasonCode + 256 * x.fault.wordValid.toNat
      + 512 * x.fault.addrValid.toNat + 1024 * x.inputPolicy.code := by
  have hfields := statusFields_lt x
  rw [Vm.status, BitVec.toNat_ofNat]
  omega

/-- Settles O42: the sum that `STATUS` is has its fields as digits, since each fits in its bits. -/
theorem statusCodesAndPlaces : Obligations.StatusCodesAndPlaces := by
  refine ⟨rfl, rfl, rfl, rfl, fun x => ?_⟩
  have hfields := statusFields_lt x
  rw [toNat_status]
  omega

end Sys2Proof.Machine
end

section
/-! PROOFS. The memory as a function (R50 to R55): what a successful MemWrite leaves to MemRead, and that the
canonical list is determined by what it reads as. -/

namespace Sys2Proof.Machine

/-- After a store every other existing address holds the word it held (R54). -/
theorem wordAt_store_other {c : Config} {x : Vm} {a b v : Int} (ha : legalAddr c a) (hb : legalAddr c b)
    (hne : b ≠ a) : (x.store a.toNat v).wordAt b = x.wordAt b := by
  obtain ⟨ha0, -⟩ := ha
  obtain ⟨hb0, -⟩ := hb
  exact read_write_other _ _ _ _ (by omega)

/-- Settles O28: the store is read back (`read_write_same`), other words stay (`wordAt_store_other`), and
an address that does not exist faults in both memories. -/
theorem readsSeeTheLastWrite : Obligations.ReadsSeeTheLastWrite := by
  intro c x y a v hwf hw
  obtain ⟨ha, -, rfl⟩ := memWrite_eq_ok hw
  refine ⟨?_, fun b hne => ?_, mem_footprintAdd _ _⟩
  · rw [memRead_legal ha]
    exact congrArg Except.ok (read_write_same _ _ _ hwf)
  · rcases legal_or_fault c b with hb | ⟨f, hb⟩
    · rw [memRead_legal hb, memRead_legal hb, wordAt_store_other ha hb hne]
    · rw [memRead_fault hb, memRead_fault hb]

theorem Memory.wf.tail {p : Nat × Int} {m : Memory} (h : Memory.wf (p :: m)) : Memory.wf m :=
  ⟨(List.pairwise_cons.1 h.1).2, fun q hq => h.2 q (List.mem_cons_of_mem _ hq)⟩

/-- In the canonical form a pair is listed exactly when its address reads as its word and the word is not 0. -/
theorem mem_iff_read {m : Memory} (h : m.wf) (a : Nat) (v : Int) : (a, v) ∈ m ↔ m.read a = v ∧ v ≠ 0 := by
  induction m with
  | nil => simp only [Memory.read, List.not_mem_nil, false_iff]; omega
  | cons p rest ih =>
    obtain ⟨b, w⟩ := p
    have hlater : ∀ q ∈ rest, b < q.1 := (List.pairwise_cons.1 h.1).1
    have hw : w ≠ 0 := h.2 (b, w) List.mem_cons_self
    by_cases hab : a = b
    · subst hab
      have hnot : (a, v) ∉ rest := fun hm => lt_irrefl a (hlater _ hm)
      simp only [List.mem_cons, hnot, Memory.read, Prod.mk.injEq, if_true, or_false, true_and]
      exact ⟨fun hv => ⟨hv.symm, hv ▸ hw⟩, fun hv => hv.1.symm⟩
    · simp [Memory.read, hab, ih h.tail]

/-- Memories in the canonical form that read alike are the same list. -/
theorem eq_of_read_eq {m n : Memory} (hm : m.wf) (hn : n.wf) (h : ∀ a, m.read a = n.read a) : m = n := by
  have hirrefl : Std.Irrefl (fun p q : Nat × Int => p.1 < q.1) := ⟨fun p => lt_irrefl p.1⟩
  have hasymm : Std.Asymm (fun p q : Nat × Int => p.1 < q.1) := ⟨fun _ _ => lt_asymm⟩
  refine hm.1.eq_of_mem_iff hn.1 fun (a, v) => ?_
  rw [mem_iff_read hm, mem_iff_read hn, h]

/-- Settles O29: `write_canonical` and `eq_of_read_eq`. -/
theorem memoryFormIsCanonical : Obligations.MemoryFormIsCanonical :=
  ⟨write_canonical, fun _ _ => eq_of_read_eq⟩

end Sys2Proof.Machine
end

section
/-! PROOFS. The frame of an instruction (R62): each register is written only by the effects that name it, and a fault
writes the run state and the record alone. -/

namespace Sys2Proof.Machine

/-! ## What an effect leaves of each register -/

section
variable {c : Config} {x y : Vm} {i : Instr} {r : StepResult}

theorem Effect.fault (he : Effect c x i r y) : y.fault = x.fault := by
  cases he <;> rfl

theorem Effect.rb (he : Effect c x i r y) (hi : ∀ m, i ≠ .arb m) : y.rb = x.rb := by
  cases he with
  | arb => exact absurd rfl (hi _)
  | _ => rfl

theorem Effect.halted (he : Effect c x i r y) (hi : i ≠ .halt) : y.halted = x.halted := by
  cases he with
  | halt => exact absurd rfl hi
  | _ => rfl

theorem Effect.outQ (he : Effect c x i r y) (hi : ∀ m, i ≠ .out m) : y.outQ = x.outQ := by
  cases he with
  | out => exact absurd rfl (hi _)
  | _ => rfl

theorem Effect.inQ (he : Effect c x i r y) (hi : ∀ m, i ≠ .inp m) : y.inQ = x.inQ := by
  cases he with
  | inp => exact absurd rfl (hi _)
  | _ => rfl

/-- An instruction without a destination writes no memory (R62). -/
theorem Effect.memory (he : Effect c x i r y) (hi : ∀ k, i.kind k ≠ some .output) : y.mem = x.mem ∧ y.fp = x.fp := by
  cases he with
  | add | mul | lt | eq => exact absurd rfl (hi 3)
  | inp => exact absurd rfl (hi 1)
  | _ => exact ⟨rfl, rfl⟩

/-- ADD, MUL, LT and EQ store one word at their destination and go on (R127, R128). -/
theorem Effect.stores {m1 m2 m3 : Mode}
    (hi : i ∈ [Instr.add m1 m2 m3, Instr.mul m1 m2 m3, Instr.lt m1 m2 m3, Instr.eq m1 m2 m3])
    (he : Effect c x i r y) :
    ∃ d v, destAddr c x 3 m3 d ∧ y = (x.store d.toNat v).advance (x.ip + 4) := by
  cases he with
  | add _ _ hd | mul _ _ hd | lt _ _ hd | eq _ _ hd =>
    simp only [List.mem_cons, List.not_mem_nil, or_false, false_or, reduceCtorEq, Instr.add.injEq, Instr.mul.injEq,
      Instr.lt.injEq, Instr.eq.injEq] at hi
    obtain ⟨-, -, rfl⟩ := hi
    exact ⟨_, _, hd, rfl⟩
  | _ => simp at hi

end

/-! ## What an instruction leaves -/

/-- An instruction leaves the rest of the system. -/
theorem exec_rest {i : Instr} {s t : State} (h : exec i s = .next t) :
    t.lower = s.lower ∧ t.upper = s.upper ∧ t.mux = s.mux ∧ t.cfg = s.cfg ∧ t.runs = s.runs ∧
      t.pending = s.pending := by
  rcases exec_cases h with ⟨r, y, _, rfl⟩ | ⟨e, rfl⟩ <;> simp

/-- Only a fault writes the fault record (R276). -/
theorem exec_fault {i : Instr} {s t : State} (h : exec i s = .next t) (ht : t.inst.runState ≠ .faulted) :
    t.inst.fault = s.inst.fault := by
  rcases exec_cases h with ⟨r, y, he, rfl⟩ | ⟨e, rfl⟩
  · exact he.fault
  · exact absurd rfl ht

/-- Settles O25: a completed instruction is a store at the resolved destination (`Effect.stores`), and a fault
leaves all that the frame names. -/
theorem storingInstructionsFrame : Obligations.StoringInstructionsFrame := by
  intro m1 m2 m3 i s t hi h
  have hrest := exec_rest h
  have hfault := exec_fault h
  rcases exec_cases h with ⟨r, y, he, rfl⟩ | ⟨e, rfl⟩
  · obtain ⟨d, v, hd, rfl⟩ := he.stores hi
    refine ⟨by simp, hfault, hrest, fun d' hd' a ha => ?_, fun hno => absurd ⟨d, resolveOut_addr hd⟩ hno⟩
    obtain rfl := destAddr_unique hd (resolveOut_eq_ok hd')
    simp [read_write_other _ _ _ _ ha, mem_footprintAdd, ha]
  · exact ⟨by simp, hfault, hrest, by simp, by simp⟩

/-- OUT, JT, JF, ARB and HALT have no destination (R82). -/
theorem nonStoring_no_output {m1 m2 : Mode} {i : Instr}
    (hi : i ∈ [Instr.out m1, Instr.jt m1 m2, Instr.jf m1 m2, Instr.arb m1, Instr.halt]) (k : Nat) :
    i.kind k ≠ some .output := by
  intro hk
  have hmem := List.mem_of_getElem? hk
  simp only [List.mem_cons, List.not_mem_nil, or_false] at hi
  rcases hi with rfl | rfl | rfl | rfl | rfl <;> simp [Instr.opcode, paramKinds] at hmem

/-- Settles O27: no effect without a destination writes memory (`Effect.memory`), and each other register
is written by the one instruction named. -/
theorem nonStoringInstructionsFrame : Obligations.NonStoringInstructionsFrame := by
  intro m1 m2 i s t hi h
  have hrest := exec_rest h
  have hfault := exec_fault h
  rcases exec_cases h with ⟨r, y, he, rfl⟩ | ⟨e, rfl⟩
  · obtain ⟨hmem, hfp⟩ := he.memory (nonStoring_no_output hi)
    have hinQ : y.inQ = s.inst.inQ := he.inQ (by rintro m rfl; simp at hi)
    refine ⟨⟨hmem, hfp, hinQ, he.inputPolicy⟩, fun hne => he.outQ ?_, fun hne => he.rb ?_, he.halted, hfault, hrest⟩
    · rintro m rfl
      exact hne (by simpa using hi)
    · rintro m rfl
      exact hne (by simpa using hi)
  · exact ⟨by simp, by simp, by simp, by simp, hfault, hrest⟩

end Sys2Proof.Machine
end

section
/-! PROOFS. The decoder and the encoder (R80 to R103). `decode_eq_ok_iff` says once which words decode to an instruction: those that
hold its opcode and its mode digits. `modes_decode` says once that the modes are read in order, so the first bad digit decides. -/

namespace Sys2Proof

/-! ## A computation for each element of a list, in order -/

section
variable {α β ε : Type} {f : α → Except ε β} {l : List α}

/-- The first element whose computation fails gives the failure. -/
theorem mapM_eq_error {k : Nat} {a : α} {e : ε} (hk : l[k]? = some a)
    (hbefore : ∀ (j : Nat) (b : α), j < k → l[j]? = some b → ∃ v, f b = .ok v) (ha : f a = .error e) :
    l.mapM f = .error e := by
  induction l generalizing k with
  | nil => simp at hk
  | cons b l ih =>
    rw [List.mapM_cons]
    cases k with
    | zero =>
      cases hk
      rw [ha]
      rfl
    | succ k =>
      obtain ⟨v, hv⟩ := hbefore 0 b (by omega) rfl
      rw [hv, ih hk fun j d hj hd => hbefore (j + 1) d (by omega) hd]
      rfl

theorem mapM_eq_ok (h : ∀ a ∈ l, ∃ v, f a = .ok v) : ∃ vs, l.mapM f = .ok vs := by
  induction l with
  | nil => exact ⟨[], rfl⟩
  | cons a l ih =>
    obtain ⟨v, hv⟩ := h a (by simp)
    obtain ⟨vs, hvs⟩ := ih fun b hb => h b (by simp [hb])
    exact ⟨v :: vs, by rw [List.mapM_cons, hv, hvs]; rfl⟩

end

/-! ## The parts of an instruction -/

theorem Instr.opcode_lt (i : Instr) : i.opcode < 100 := by cases i <;> simp [Instr.opcode]

theorem Instr.length_modes_le (i : Instr) : i.modes.length ≤ 3 := by cases i <;> simp [Instr.modes]

theorem Instr.length_modes {i : Instr} {kinds : List ParamKind} (h : paramKinds i.opcode = some kinds) :
    i.modes.length = kinds.length := by
  cases i <;> cases h <;> rfl

theorem Mode.digit_le (m : Mode) : m.digit ≤ 2 := by cases m <;> decide

theorem Instr.modeDigit_le (i : Instr) (k : Nat) : i.modeDigit k ≤ 2 := by
  unfold Instr.modeDigit
  cases i.modes[k - 1]? with
  | none => simp
  | some m => exact m.digit_le

/-- "An unused position reads 0" (R102). -/
theorem Instr.modeDigit_unused {i : Instr} {k : Nat} (h : i.modes.length ≤ k) : i.modeDigit (k + 1) = 0 := by
  simp [Instr.modeDigit, h]

/-! ## The words that hold an instruction -/

/-- The digits of `w` from position `k` on are those of the modes, in order. -/
def holdsDigits (w : Nat) : Nat → List Mode → Prop
  | _, [] => True
  | k, m :: ms => m.digit = dig w k ∧ holdsDigits w (k + 1) ms

/-- `w` holds the opcode and the mode digits of `i` (R81). -/
def holds (w : Nat) (i : Instr) : Prop := i.opcode = w % 100 ∧ holdsDigits w 2 i.modes

theorem holdsDigits_iff {w k : Nat} {ms : List Mode} :
    holdsDigits w k ms ↔ ∀ (n : Nat) (m : Mode), ms[n]? = some m → m.digit = dig w (k + n) := by
  induction ms generalizing k with
  | nil => simp [holdsDigits]
  | cons m ms ih =>
    rw [holdsDigits, ih]
    constructor
    · rintro ⟨hm, hms⟩ (_ | n) m' hn
      · cases hn
        exact hm
      · rw [hms n m' hn, Nat.add_right_comm, Nat.add_assoc]
    · refine fun h => ⟨h 0 m rfl, fun n m' hn => ?_⟩
      rw [h (n + 1) m' hn, Nat.add_right_comm, Nat.add_assoc]

theorem holds_iff {w : Nat} {i : Instr} :
    holds w i ↔ i.opcode = w % 100 ∧ ∀ k, k < i.modes.length → i.modeDigit (k + 1) = dig w (k + 2) := by
  refine and_congr_right fun _ => holdsDigits_iff.trans ⟨fun h k hk => ?_, fun h k m hm => ?_⟩
  · have hm : i.modes[k]? = some i.modes[k] := List.getElem?_eq_getElem hk
    rw [Nat.add_comm k 2, ← h k _ hm]
    simp [Instr.modeDigit, hm]
  · rw [Nat.add_comm 2 k, ← h k (List.getElem?_eq_some_iff.1 hm).1]
    simp [Instr.modeDigit, hm]

/-! ## The words that decode to an instruction -/

theorem decodeMode_of_digit {kind : ParamKind} {w k : Nat} {m : Mode} (hd : m.digit = dig w (k + 1))
    (hm : kind = .output → m.namesAddress = true) : decodeMode kind w k = .ok m := by
  unfold decodeMode
  rw [← hd]
  cases m with
  | position => rfl
  | relative => cases kind <;> rfl
  | immediate =>
    cases kind with
    | input => rfl
    | output => cases hm rfl

theorem decode1_of_digits {mk : Mode → Instr} {kind : ParamKind} {w : Nat} {m1 : Mode} (h1 : m1.digit = dig w 2)
    (hm : kind = .output → m1.namesAddress = true) : decode1 mk kind w = .ok (mk m1) := by
  rw [decode1, decodeMode_of_digit h1 hm]
  rfl

theorem decode2_of_digits {mk : Mode → Mode → Instr} {w : Nat} {m1 m2 : Mode} (h1 : m1.digit = dig w 2)
    (h2 : m2.digit = dig w 3) : decode2 mk w = .ok (mk m1 m2) := by
  rw [decode2, decodeMode_of_digit (kind := .input) h1 nofun, decodeMode_of_digit (kind := .input) h2 nofun]
  rfl

theorem decode3_of_digits {mk : Mode → Mode → Mode → Instr} {w : Nat} {m1 m2 m3 : Mode} (h1 : m1.digit = dig w 2)
    (h2 : m2.digit = dig w 3) (h3 : m3.digit = dig w 4) (hm : m3.namesAddress = true) :
    decode3 mk w = .ok (mk m1 m2 m3) := by
  rw [decode3, decodeMode_of_digit (kind := .input) h1 nofun, decodeMode_of_digit (kind := .input) h2 nofun,
    decodeMode_of_digit h3 fun _ => hm]
  rfl

theorem holds_of_decode1 {mk : Mode → Instr} {kind : ParamKind} {w : Nat} {i : Instr}
    (h : decode1 mk kind w = .ok i) (hmk : ∀ m1, (mk m1).opcode = w % 100 ∧ (mk m1).modes = [m1])
    (hwf : ∀ m1, (kind = .output → m1.namesAddress = true) → (mk m1).wf = true) :
    i.wf = true ∧ holds w i := by
  obtain ⟨m1, rfl, h1, hm⟩ := decode1_eq_ok h
  obtain ⟨hop, hmodes⟩ := hmk m1
  exact ⟨hwf m1 hm, hop, hmodes ▸ ⟨h1.symm, trivial⟩⟩

theorem holds_of_decode2 {mk : Mode → Mode → Instr} {w : Nat} {i : Instr} (h : decode2 mk w = .ok i)
    (hmk : ∀ m1 m2, (mk m1 m2).opcode = w % 100 ∧ (mk m1 m2).modes = [m1, m2] ∧ (mk m1 m2).wf = true) :
    i.wf = true ∧ holds w i := by
  obtain ⟨m1, m2, rfl, h1, h2⟩ := decode2_eq_ok h
  obtain ⟨hop, hmodes, hwf⟩ := hmk m1 m2
  exact ⟨hwf, hop, hmodes ▸ ⟨h1.symm, h2.symm, trivial⟩⟩

theorem holds_of_decode3 {mk : Mode → Mode → Mode → Instr} {w : Nat} {i : Instr} (h : decode3 mk w = .ok i)
    (hmk : ∀ m1 m2 m3, (mk m1 m2 m3).opcode = w % 100 ∧ (mk m1 m2 m3).modes = [m1, m2, m3] ∧
      (mk m1 m2 m3).wf = m3.namesAddress) : i.wf = true ∧ holds w i := by
  obtain ⟨m1, m2, m3, rfl, h1, h2, h3, hm⟩ := decode3_eq_ok h
  obtain ⟨hop, hmodes, hwf⟩ := hmk m1 m2 m3
  exact ⟨hwf.trans hm, hop, hmodes ▸ ⟨h1.symm, h2.symm, h3.symm, trivial⟩⟩

theorem holds_of_decode {w : Nat} {i : Instr} (h : decode (w : Int) = .ok i) : i.wf = true ∧ holds w i := by
  simp only [decode, if_neg (Int.natCast_nonneg w).not_gt, Int.toNat_natCast] at h
  split at h
  · next hop => exact holds_of_decode3 h (fun _ _ _ => ⟨hop.symm, rfl, rfl⟩)
  · next hop => exact holds_of_decode3 h (fun _ _ _ => ⟨hop.symm, rfl, rfl⟩)
  · next hop => exact holds_of_decode1 h (fun _ => ⟨hop.symm, rfl⟩) (fun _ hm => hm rfl)
  · next hop => exact holds_of_decode1 h (fun _ => ⟨hop.symm, rfl⟩) (fun _ _ => rfl)
  · next hop => exact holds_of_decode2 h (fun _ _ => ⟨hop.symm, rfl, rfl⟩)
  · next hop => exact holds_of_decode2 h (fun _ _ => ⟨hop.symm, rfl, rfl⟩)
  · next hop => exact holds_of_decode3 h (fun _ _ _ => ⟨hop.symm, rfl, rfl⟩)
  · next hop => exact holds_of_decode3 h (fun _ _ _ => ⟨hop.symm, rfl, rfl⟩)
  · next hop => exact holds_of_decode1 h (fun _ => ⟨hop.symm, rfl⟩) (fun _ _ => rfl)
  · next hop =>
    cases h
    exact ⟨rfl, hop.symm, trivial⟩
  · cases h

theorem decode_of_holds {w : Nat} {i : Instr} (hwf : i.wf = true) (h : holds w i) : decode (w : Int) = .ok i := by
  obtain ⟨hop, hd⟩ := h
  simp only [decode, if_neg (Int.natCast_nonneg w).not_gt, Int.toNat_natCast, ← hop]
  cases i with
  | add m1 m2 m3 | mul m1 m2 m3 | lt m1 m2 m3 | eq m1 m2 m3 =>
    obtain ⟨h1, h2, h3, -⟩ := hd
    exact decode3_of_digits h1 h2 h3 hwf
  | jt m1 m2 | jf m1 m2 =>
    obtain ⟨h1, h2, -⟩ := hd
    exact decode2_of_digits h1 h2
  | inp m1 => exact decode1_of_digits hd.1 fun _ => hwf
  | out m1 | arb m1 => exact decode1_of_digits (kind := .input) hd.1 nofun
  | halt => rfl

/-- The words that decode to an instruction (R81, R83, R100). -/
theorem decode_eq_ok_iff {w : Nat} {i : Instr} : decode (w : Int) = .ok i ↔ i.wf = true ∧ holds w i :=
  ⟨holds_of_decode, fun ⟨hwf, h⟩ => decode_of_holds hwf h⟩

/-! ## The opcode word -/

theorem dig_opcodeWord (i : Instr) {k : Nat} (hk : k < 3) :
    dig (opcodeWord i).toNat (k + 2) = i.modeDigit (k + 1) := by
  have h0 := i.opcode_lt
  have h1 := i.modeDigit_le 1
  have h2 := i.modeDigit_le 2
  have h3 := i.modeDigit_le 3
  simp only [dig, opcodeWord, Int.toNat_natCast]
  obtain rfl | rfl | rfl : k = 0 ∨ k = 1 ∨ k = 2 := by omega
  all_goals
    simp only [Nat.reduceAdd, Nat.reducePow]
    omega

theorem holds_opcodeWord (i : Instr) : holds (opcodeWord i).toNat i := by
  refine holds_iff.2 ⟨?_, fun k hk => (dig_opcodeWord i (by have := i.length_modes_le; omega)).symm⟩
  have := i.opcode_lt
  simp only [opcodeWord, Int.toNat_natCast]
  omega

theorem decode_opcodeWord {i : Instr} (hwf : i.wf = true) : decode (opcodeWord i) = .ok i :=
  decode_eq_ok_iff.2 ⟨hwf, holds_opcodeWord i⟩

/-- The literals read off the front of a list of words (R80). -/
theorem map_range_getD (l rest : List Int) :
    (List.range l.length).map (fun k => (l ++ rest).getD k 0) = l := by
  refine List.ext_getElem (by simp) fun k hk hk' => ?_
  simp [List.getElem?_append_left hk', List.getElem?_eq_getElem hk']

/-- Settles O2: the opcode word decodes to the instruction (`decode_opcodeWord`), whose length says where the literals end. -/
theorem decodeInvertsEncode : Obligations.DecodeInvertsEncode := by
  intro i literals rest hwf hlit
  have hlen : i.length = literals.length + 1 := by
    rw [length_eq_modes, beq_iff_eq.1 hlit]
  have hdecode : decode ((encode i literals ++ rest).getD 0 0) = .ok i := decode_opcodeWord hwf
  rw [decodeWords, hdecode]
  show Except.ok (i, _) = _
  rw [hlen]
  simpa [encode] using map_range_getD literals rest

/-- The opcode word of an instruction is the consumed digits of any word that holds it. -/
theorem opcodeWord_of_holds {w : Nat} {i : Instr} (h : holds w i) :
    opcodeWord i = ((w % 10 ^ (i.length + 1) : Nat) : Int) := by
  obtain ⟨hop, hd⟩ := holds_iff.1 h
  have hle := i.length_modes_le
  have hdigit : ∀ k, i.modeDigit (k + 1) = if k < i.modes.length then dig w (k + 2) else 0 := fun k => by
    split
    · exact hd k ‹_›
    · exact Instr.modeDigit_unused (by omega)
  rw [length_eq_modes, opcodeWord, hop, hdigit 0, hdigit 1, hdigit 2]
  interval_cases i.modes.length <;> simp [dig] <;> omega

/-- Settles O3: the word holds the instruction, and what is above its consumed digits is the quotient. -/
theorem decodedWordIsItsEncoding : Obligations.DecodedWordIsItsEncoding := by
  intro w i h
  have hneg : ¬ w < 0 := fun hneg => by simp [decode, hneg] at h
  lift w to Nat using by omega
  obtain ⟨hwf, hholds⟩ := decode_eq_ok_iff.1 h
  refine ⟨hwf, w / 10 ^ (i.length + 1), ?_⟩
  rw [opcodeWord_of_holds hholds]
  exact_mod_cast (Nat.mod_add_div w _).symm

/-! ## The digits above the consumed ones -/

theorem dig_add_mul {w r n k : Nat} (hk : k < n) : dig (w + 10 ^ n * r) k = dig w k := by
  obtain ⟨m, rfl⟩ := Nat.exists_eq_add_of_lt hk
  have hpow : 10 ^ (k + m + 1) * r = 10 ^ k * (10 * (10 ^ m * r)) := by ring
  rw [dig, dig, hpow, Nat.add_mul_div_left _ _ (by positivity), Nat.add_mul_mod_self_left]

/-- Settles O4: the decoder looks at the opcode and the consumed digits (`decode_congr`), which stay. -/
theorem unconsumedDigitsAreIgnored : Obligations.UnconsumedDigitsAreIgnored := by
  intro w rest kinds hk
  refine decode_congr hk ?_ fun k hk => dig_add_mul (by omega)
  have hpow : 10 ^ (kinds.length + 2) * rest = 100 * (10 ^ kinds.length * rest) := by ring
  rw [hpow, Nat.add_mul_mod_self_left]

/-! ## The order of the decoder's checks -/

/-- The modes of a word whose parameters have these kinds, decoded in order (R83). -/
def decodeModes (kinds : List ParamKind) (w : Nat) : Except DecodeError (List Mode) :=
  kinds.zipIdx.mapM fun p => decodeMode p.1 w (p.2 + 1)

theorem modes_decode {w : Nat} {kinds : List ParamKind} (h : paramKinds (w % 100) = some kinds) :
    Instr.modes <$> decode (w : Int) = decodeModes kinds w := by
  simp only [decode, if_neg (Int.natCast_nonneg w).not_gt, Int.toNat_natCast]
  rcases paramKinds_cases h with ⟨hop, rfl⟩ | ⟨hop, rfl⟩ | ⟨hop, rfl⟩ | ⟨hop, rfl⟩ | ⟨hop, rfl⟩ | ⟨hop, rfl⟩ |
    ⟨hop, rfl⟩ | ⟨hop, rfl⟩ | ⟨hop, rfl⟩ | ⟨hop, rfl⟩ <;>
    simp [hop, decode1, decode2, decode3, decodeModes, Instr.modes, map_bind]
  case inr.inr.inr.inr.inr.inr.inr.inr.inr => rfl -- HALT has no mode to decode

theorem decode_eq_error {w : Nat} {kinds : List ParamKind} {e : DecodeError}
    (hk : paramKinds (w % 100) = some kinds) (h : decodeModes kinds w = .error e) : decode (w : Int) = .error e := by
  rw [← modes_decode hk] at h
  cases hd : decode (w : Int) with
  | ok i => rw [hd] at h; cases h
  | error e' => rw [hd] at h; cases h; rfl

theorem decode_eq_ok {w : Nat} {kinds : List ParamKind} (hk : paramKinds (w % 100) = some kinds)
    (h : ∃ ms, decodeModes kinds w = .ok ms) : ∃ i, decode (w : Int) = .ok i := by
  rw [← modes_decode hk] at h
  obtain ⟨ms, hms⟩ := h
  cases hd : decode (w : Int) with
  | ok i => exact ⟨i, rfl⟩
  | error e => rw [hd] at hms; cases hms

theorem decode_unsupported {w : Nat} (h : w % 100 ∉ [1, 2, 3, 4, 5, 6, 7, 8, 9, 99]) :
    decode (w : Int) = .error (.invalidOpcode ((w % 100 : Nat) : Int)) := by
  simp only [decode, if_neg (Int.natCast_nonneg w).not_gt, Int.toNat_natCast]
  split <;> simp_all

/-- Settles O5: the sign, the opcode and the modes in order are the decoder's three checks (R83). -/
theorem decodeRejectsByRule : Obligations.DecodeRejectsByRule := by
  refine ⟨fun w hw => if_pos hw, fun w hw => decode_unsupported hw, ?_⟩
  intro w k kinds kind hkinds hk hbad hbefore
  refine decode_eq_error hkinds (mapM_eq_error (k := k) (a := (kind, k)) ?_ ?_ (decodeMode_bad hbad))
  · simp [hk]
  · rintro j ⟨other, n⟩ hj hother
    obtain ⟨ho, rfl⟩ : kinds[j]? = some other ∧ j = n := by simpa using hother
    obtain ⟨m, hm, -⟩ := decodeMode_good (hbefore _ _ hj ho)
    exact ⟨m, hm⟩

/-- Settles O6: no mode is rejected, and the word holds what it decodes to. -/
theorem decodeAcceptsLegalWords : Obligations.DecodeAcceptsLegalWords := by
  intro w kinds hkinds hgood
  obtain ⟨i, hi⟩ := decode_eq_ok hkinds <| mapM_eq_ok fun p hp =>
    (decodeMode_good (hgood p.2 p.1 (List.mem_zipIdx_iff_getElem?.1 hp))).imp fun _ => And.left
  obtain ⟨hop, hdigits⟩ := holds_iff.1 (decode_eq_ok_iff.1 hi).2
  have hlen : i.modes.length = kinds.length := Instr.length_modes (hop ▸ hkinds)
  exact ⟨i, hi, hop, by rw [length_eq_modes, hlen], hlen, hlen ▸ hdigits⟩

/-- Settles O1: each word is run through the decoder. -/
theorem decodeReadsTableWords : Obligations.DecodeReadsTableWords := by
  unfold Obligations.DecodeReadsTableWords
  decide

end Sys2Proof
end

section
/-! PROOFS. Operand resolution (R90 to R99): an instruction is its operands resolved in order, and then the operation on their
values (`executed_eq_operation`), so the first operand at fault decides. -/

namespace Sys2Proof.Machine

/-! ## An instruction as its operands and its operation -/

/-- What parameter `k` comes to: the value of an input, or the destination address of an output (R90). -/
def operand (c : Config) (x : Vm) (i : Instr) (k : Nat) : Except Raise Int :=
  match i.kind k, i.modes[k - 1]? with
  | some .input, some m => resolveIn c x k m
  | some .output, some m => resolveOut c x k m
  | _, _ => .ok 0

/-- Every operand of an instruction, in order (R98). -/
def operands (c : Config) (x : Vm) (i : Instr) : Except Raise (List Int) :=
  (List.range' 1 i.modes.length).mapM (operand c x i)

/-- The part of an instruction that comes after operand resolution, on what its parameters came to. -/
def operation (c : Config) (x : Vm) (i : Instr) (v1 v2 v3 : Int) : Executed :=
  match i with
  | .add _ _ _ => aluAdd c v1 v2 >>= storeAndContinue c x 4 v3
  | .mul _ _ _ => aluMul c v1 v2 >>= storeAndContinue c x 4 v3
  | .lt _ _ _ => storeAndContinue c x 4 v3 (aluLt v1 v2)
  | .eq _ _ _ => storeAndContinue c x 4 v3 (aluEq v1 v2)
  | .inp _ => inputTo c x v1
  | .out _ => outputFrom c x v1
  | .jt _ _ => continueAt x (if v1 != 0 then v2 else x.ip + 3)
  | .jf _ _ => continueAt x (if v1 == 0 then v2 else x.ip + 3)
  | .arb _ => adjustBase c x v1
  | .halt => .ok (.halted, x.setHalted)

theorem executed_eq_operation (i : Instr) (c : Config) (x : Vm) :
    executed i c x = (do
      let vs ← operands c x i
      operation c x i (vs.getD 0 0) (vs.getD 1 0) (vs.getD 2 0)) := by
  cases i <;>
    simp [executed, operands, operand, operation, threeOperand, jumpIf, Instr.kind, Instr.opcode, paramKinds,
      Instr.modes, List.range'_succ]

/-! ## One operand -/

section
variable {c : Config} {x : Vm} {i : Instr} {k : Nat} {f : Fault} {a : Int}

theorem operand_input {m : Mode} (hk : i.kind k = some .input) (hm : i.modes[k - 1]? = some m) :
    operand c x i k = resolveIn c x k m := by
  simp [operand, hk, hm]

theorem operand_output {m : Mode} (hk : i.kind k = some .output) (hm : i.modes[k - 1]? = some m) :
    operand c x i k = resolveOut c x k m := by
  simp [operand, hk, hm]

theorem operand_ok (h : operandOk c x i k) : ∃ v, operand c x i k = .ok v := by
  unfold operandOk at h
  split at h
  · next hk hm =>
    obtain ⟨v, hv⟩ := h
    exact ⟨v, (operand_input hk hm).trans (resolveIn_value hv)⟩
  · next hk hm =>
    obtain ⟨d, hd⟩ := h
    exact ⟨d, (operand_output hk hm).trans (resolveOut_addr hd)⟩
  · exact h.elim

/-- An operand at fault is an input or an output of the instruction. -/
theorem operandFault_cases (h : operandFault c x i k f a) :
    ∃ m, i.modes[k - 1]? = some m ∧
      ((i.kind k = some .input ∧ inputFault c x k m f a) ∨ (i.kind k = some .output ∧ destFault c x k m f a)) := by
  unfold operandFault at h
  split at h
  · next hk hm => exact ⟨_, hm, .inl ⟨hk, h⟩⟩
  · next hk hm => exact ⟨_, hm, .inr ⟨hk, h⟩⟩
  · exact h.elim

theorem operand_fault (h : operandFault c x i k f a) : operand c x i k = .error ⟨f, a⟩ := by
  obtain ⟨m, hm, ⟨hk, hf⟩ | ⟨hk, hf⟩⟩ := operandFault_cases h
  · exact (operand_input hk hm).trans (resolveIn_fault hf)
  · exact (operand_output hk hm).trans (resolveOut_fault hf)

theorem operandFault_lt (h : operandFault c x i k f a) : k - 1 < i.modes.length := by
  obtain ⟨m, hm, -⟩ := operandFault_cases h
  exact (List.getElem?_eq_some_iff.1 hm).1

/-- The faults of the address check record the address (R270, R276). -/
theorem addressFault_hasAddr (h : addressFault c a f) : f.hasAddr = true := by
  rcases h with ⟨-, rfl⟩ | ⟨-, rfl, -⟩ <;> rfl

theorem inputFault_hasAddr {m : Mode} (h : inputFault c x k m f a) : f.hasAddr = true := by
  rcases h with ⟨h, -⟩ | ⟨-, h, -⟩ <;> exact addressFault_hasAddr h

theorem operandFault_hasAddr (h : operandFault c x i k f a) : f.hasAddr = true := by
  obtain ⟨m, -, ⟨-, hf⟩ | ⟨-, hf⟩⟩ := operandFault_cases h
  · exact inputFault_hasAddr hf
  · exact inputFault_hasAddr hf.2

end

/-! ## The first operand at fault -/

theorem operands_eq_error {c : Config} {x : Vm} {i : Instr} {k : Nat} {f : Fault} {a : Int} (hk : 1 ≤ k)
    (hbefore : ∀ j, 1 ≤ j → j < k → operandOk c x i j) (h : operandFault c x i k f a) :
    operands c x i = .error ⟨f, a⟩ := by
  refine mapM_eq_error (k := k - 1) (a := k) ?_ (fun j b hj hb => ?_) (operand_fault h)
  · rw [List.getElem?_range' (operandFault_lt h)]
    exact congrArg some (by omega)
  · obtain ⟨hlt, rfl⟩ := List.getElem?_eq_some_iff.1 hb
    rw [List.getElem_range']
    exact operand_ok (hbefore _ (by omega) (by omega))

/-- Settles O15: the operands resolve in order before the operation, and the fault of the first at fault records its address. -/
theorem firstOperandFaultStops : Obligations.FirstOperandFaultStops := by
  intro i s k f a _ hip hk hbefore h
  have hexec : executed i s.cfg s.inst = .error ⟨f, a⟩ := by
    rw [executed_eq_operation, operands_eq_error hk hbefore h]
    rfl
  rw [exec_eq, hexec, finish_error_eq _ hip, operandFault_hasAddr h]
  rfl

/-- Settles O16: both are the value `resolveIn_value` gives. -/
theorem immediateAndPositionAgree : Obligations.ImmediateAndPositionAgree := by
  intro c x y k v hx hlit hy haddr hword
  exact ⟨resolveIn_value ⟨hx, hlit.symm⟩, resolveIn_value ⟨hy, haddr, hword.symm⟩⟩

end Sys2Proof.Machine
end

section
/-! PROOFS. A step by what it comes to (R121 to R132): a live step is the end of `liveRun`, and RUN's bookkeeping after it looks at
the result alone. -/

namespace Sys2Proof.Machine

/-! ## A live step -/

theorem finish_runs (s : State) (r : Executed) : (s.finish r).runs = s.runs := by cases r <;> rfl

theorem step_live {s : State} (hp : s.pending = []) (hlive : s.inst.isLive) :
    step s = .next (s.finish (liveRun s.cfg s.inst)).noteRun := by
  have hengine : engineStep s = .next (s.finish (liveRun s.cfg s.inst)) := by rw [engineStep_live hlive, liveStep_eq]
  rw [step_nil hp, stepCurrent_next hengine]

theorem engineStep_exec {s : State} {i : Instr} (hlive : s.inst.isLive) (hip : legalAddr s.cfg s.inst.ip)
    (hi : decode (s.inst.wordAt s.inst.ip) = .ok i) : engineStep s = exec i s := by
  rw [engineStep_live hlive, liveStep_exec hip hi]

theorem stepCurrent_exec {s : State} {i : Instr} (hlive : s.inst.isLive) (hip : legalAddr s.cfg s.inst.ip)
    (hi : decode (s.inst.wordAt s.inst.ip) = .ok i) (hruns : s.runs = []) : stepCurrent s = exec i s := by
  rw [stepCurrent, engineStep_exec hlive hip hi, exec_eq]
  exact congrArg Host.Outcome.next (noteRun_nil ((finish_runs s _).trans hruns))

/-- Settles O7: `engineStep_exec`; with no RUN in progress there is none to end (`stepCurrent_exec`). -/
theorem stepRunsTheDecodedInstruction : Obligations.StepRunsTheDecodedInstruction := by
  intro s i hp hlive hip hi
  rw [step_nil hp]
  exact ⟨congrArg (mapNext State.noteRun) (engineStep_exec hlive hip hi), stepCurrent_exec hlive hip hi⟩

/-- A live step that raises takes the fault entry (R129, R276). -/
theorem step_raises {s : State} {e : Raise} (hp : s.pending = []) (hlive : s.inst.isLive)
    (h : liveRun s.cfg s.inst = .error e) :
    ∃ t, step s = .next t ∧ t.reply = .stepResult (.faulted (some e.cause)) ∧ t.inst = faultEntry s.cfg s.inst e := by
  obtain ⟨-, -, hinst, -, -, -, hreply⟩ := noteRun_rest (s.finish (.error e))
  exact ⟨_, by rw [step_live hp hlive, h], hreply, hinst⟩

/-- Everything a live step can do to its VM and the reply: an effect of an instruction, or the fault entry. -/
theorem step_live_cases {s t : State} (hp : s.pending = []) (hlive : s.inst.isLive) (h : step s = .next t) :
    (∃ i r, Effect s.cfg s.inst i r t.inst ∧ t.reply = .stepResult r) ∨
      ∃ e, t.inst = faultEntry s.cfg s.inst e ∧ t.reply = .stepResult (.faulted (some e.cause)) := by
  obtain ⟨u, hu, rfl⟩ := step_engine hp h
  obtain ⟨-, -, hinst, -, -, -, hreply⟩ := noteRun_rest u
  rw [hinst, hreply]
  rcases engineStep_cases hu with ⟨_, _, hterminal⟩ | ⟨_, ⟨e, rfl⟩ | ⟨i, r, y, _, _, he, rfl⟩⟩
  · rcases hlive with hl | hl <;> simp [hl] at hterminal
  · exact .inr ⟨e, rfl, rfl⟩
  · exact .inl ⟨i, r, he, rfl⟩

/-- No instruction that ends without a fault returns `Faulted`. -/
theorem Effect.not_faulted {c : Config} {x y : Vm} {i : Instr} {f : Option Fault} :
    ¬ Effect c x i (.faulted f) y := nofun

/-- Settles O12: only the fault entry answers `Faulted`. -/
theorem faultsArePrecise : Obligations.FaultsArePrecise := by
  intro s t f hp hlive hstep hf
  rcases step_live_cases hp hlive hstep with ⟨i, r, he, hr⟩ | ⟨e, hinst, hr⟩
  · cases hr.symm.trans hf
    exact absurd he Effect.not_faulted
  · cases hr.symm.trans hf
    rw [hinst]
    exact ⟨rfl, rfl, rfl⟩

/-- Settles O14: each effect sets the run state of its result, and the fault entry that of a fault. -/
theorem runStateTransitions : Obligations.RunStateTransitions := by
  intro s t r hp hlive hstep hr
  rcases step_live_cases hp hlive hstep with ⟨i, r', he, hr'⟩ | ⟨e, hinst, hr'⟩
  · cases hr'.symm.trans hr
    generalize t.inst = y at he
    cases he with
    | halt => exact ⟨rfl, rfl⟩
    | _ => rfl
  · cases hr'.symm.trans hr
    rw [hinst]
    exact ⟨rfl, by simp, rfl⟩

/-! ## The fetch -/

/-- An address that is not listed reads as 0 (R51). -/
theorem read_eq_zero {m : Memory} {a : Nat} (h : ∀ p ∈ m, p.1 ≠ a) : m.read a = 0 := by
  induction m with
  | nil => rfl
  | cons p rest ih =>
    have hne : a ≠ p.1 := (h p List.mem_cons_self).symm
    have hrest : Memory.read rest a = 0 := ih fun q hq => h q (List.mem_cons_of_mem _ hq)
    simp [Memory.read, hne, hrest]

theorem liveRun_of_addressFault {c : Config} {x : Vm} {f : Fault} (h : addressFault c x.ip f) :
    liveRun c x = .error ⟨f, x.ip⟩ := by
  rw [liveRun, fetch, memRead_fault h, bind_error]

theorem liveRun_of_zero {c : Config} {x : Vm} (hip : legalAddr c x.ip) (hzero : x.wordAt x.ip = 0) :
    liveRun c x = .error ⟨.invalidOpcode, 0⟩ := by
  rw [liveRun, fetch_legal hip, hzero]
  rfl

/-- The record of a fetch at an address that does not exist: no word, and `IP` as the address (R123, R276). -/
theorem faultRecord_of_addressFault {c : Config} {x : Vm} {f : Fault} (h : addressFault c x.ip f) :
    faultRecord c x ⟨f, x.ip⟩ =
      { reason := some f, ip := x.ip, opcode := 0, word := 0, wordValid := false, addr := x.ip, addrValid := true } := by
  simp [faultRecord, fetch, memRead_fault h, addressFault_hasAddr h]

/-- The record of a 0 fetched (R85, R276). -/
theorem faultRecord_of_zero {c : Config} {x : Vm} (hip : legalAddr c x.ip) (hzero : x.wordAt x.ip = 0) :
    faultRecord c x ⟨.invalidOpcode, 0⟩ =
      { reason := some .invalidOpcode, ip := x.ip, opcode := 0, word := 0, wordValid := true, addr := 0,
        addrValid := false } := by
  simp [faultRecord_legal _ hip, instrFaultRecord, hzero, Fault.hasAddr]

/-- Settles O8: the fetch raises at an address that does not exist, and the decoder on a 0; the fault entry is all that follows. -/
theorem fetchFaults : Obligations.FetchFaults := by
  intro s hp hlive
  refine ⟨fun f hf => ?_, fun hip hword => ?_⟩
  · rw [← faultRecord_of_addressFault hf]
    exact step_raises hp hlive (liveRun_of_addressFault hf)
  · have hzero : s.inst.wordAt s.inst.ip = 0 := by
      rcases hword with hzero | ⟨hmem, hfp⟩
      · exact hzero
      · exact read_eq_zero fun p hmemp heq => hfp (heq ▸ hmem p hmemp)
    rw [← faultRecord_of_zero hip hzero]
    exact step_raises hp hlive (liveRun_of_zero hip hzero)

/-! ## Every step answers -/

theorem stepCurrent_answers (s : State) : ∃ t, stepCurrent s = .next t := by
  obtain ⟨u, hu⟩ := engineStep_next s
  exact ⟨_, stepCurrent_next hu⟩

theorem hostStep_answers (j : Nat) (s : State) : ∃ t, hostStep j s = .next t := by
  unfold hostStep
  split
  · exact ⟨_, rfl⟩
  · exact stepCurrent_answers _

theorem startRun_answers (j : Nat) (stop : Bool) (s : State) : ∃ t, startRun j stop s = .next t := by
  unfold startRun
  split
  · exact ⟨_, rfl⟩
  · exact stepCurrent_answers _

theorem muxStep_answers (j : Nat) (s : State) : ∃ t, muxStep j s = .next t := by
  unfold muxStep
  split
  · exact stepCurrent_answers _
  · exact ⟨_, rfl⟩

theorem takeMux_answers (s : State) (r : Option State) : ∃ t, s.takeMux r = .next t := by
  cases r <;> exact ⟨_, rfl⟩

theorem roundRobin_answers (s : State) : ∃ t, perform .roundRobin s = .next t := by
  cases hm : s.roundRobinMove with
  | none => exact ⟨_, by rw [perform, hm]⟩
  | some move =>
    cases move with
    | step j => simpa only [perform, hm] using muxStep_answers j s
    | route j => simpa only [perform, hm] using takeMux_answers s _

theorem perform_answers (e : Event) (s : State) : ∃ t, perform e s = .next t := by
  cases e with
  | hostStep j => exact hostStep_answers j s
  | run j stop => exact startRun_answers j stop s
  | muxStep j => exact muxStep_answers j s
  | route | supply | idleAction | complete => exact takeMux_answers s _
  | roundRobin => exact roundRobin_answers s
  | _ => exact ⟨_, rfl⟩

/-- Settles O11: `stepCurrent_answers` with no event pending, and else `perform_answers`. -/
theorem everyStepAnswers : Obligations.EveryStepAnswers := by
  intro s
  cases hp : s.pending with
  | nil => exact step_nil hp ▸ stepCurrent_answers s
  | cons e rest => exact step_cons hp ▸ perform_answers e _

/-! ## The bookkeeping of RUN -/

/-- A result that ends every RUN leaves none of the stepped VM in progress (R132). -/
theorem noteRun_of_ends {s : State} {r : StepResult} (hr : s.reply = .stepResult r)
    (hends : ∀ stop, endsRun stop r = true) :
    s.noteRun = { s with runs := s.runs.filter (fun p => p.1 != s.current) } := by
  cases hl : s.runs.lookup s.current with
  | some stop => simp [State.noteRun, hr, hl, hends]
  | none =>
    have hnone : s.runs.filter (fun p => p.1 != s.current) = s.runs :=
      List.filter_eq_self.2 fun p hp => by simpa [bne_comm] using List.lookup_eq_none_iff.1 hl p hp
    rw [hnone]
    show s.noteRun = s
    simp [State.noteRun, hr, hl]

/-- After the bookkeeping a RUN of the stepped VM is in progress exactly if it was and the result does not end it (R132). -/
theorem lookup_noteRun {s : State} {r : StepResult} {stop : Bool} (hr : s.reply = .stepResult r)
    (hl : s.runs.lookup s.current = some stop) :
    s.noteRun.runs.lookup s.current = if endsRun stop r then none else some stop := by
  cases he : endsRun stop r with
  | true =>
    have hnone : (s.runs.filter (fun p => p.1 != s.current)).lookup s.current = none :=
      List.lookup_eq_none_iff.2 fun p hp => by simpa [bne_comm] using (List.mem_filter.1 hp).2
    simp [State.noteRun, hr, hl, he, hnone]
  | false => simp [State.noteRun, hr, hl, he]

/-- A step that only answers a result that ends every RUN. -/
theorem endsWith_of_answer {s : State} {r : StepResult} (hp : s.pending = [])
    (h : engineStep s = .next (s.answer (.stepResult r))) (hends : ∀ stop, endsRun stop r = true) :
    endsWith s (.stepResult r) := by
  unfold endsWith
  rw [step_nil hp, stepCurrent_next h, noteRun_of_ends rfl hends]
  rfl

/-- Settles O10: the engine answers a terminal state's result (R122), which ends every RUN. -/
theorem terminalStepOnlyAnswers : Obligations.TerminalStepOnlyAnswers := by
  intro s hp
  refine ⟨fun h => ?_, fun h => ?_, fun h => ?_⟩ <;>
    exact endsWith_of_answer hp (by simp only [engineStep, h]) fun _ => rfl

/-! ## The events that wait -/

/-- The bookkeeping of RUN reads no event. -/
theorem noteRun_pending (s : State) (p : List Event) :
    State.noteRun { s with pending := p } = { s.noteRun with pending := p } := by
  simp only [State.noteRun, State.current]
  split
  · split <;> rfl
  · rfl

theorem finish_pending (s : State) (p : List Event) (r : Executed) :
    State.finish { s with pending := p } r = { s.finish r with pending := p } := by
  cases r <;> rfl

/-- The engine reads no event. -/
theorem engineStep_pending (s : State) (p : List Event) :
    engineStep { s with pending := p } = mapNext (fun u => { u with pending := p }) (engineStep s) := by
  have hlive : liveStep { s with pending := p } = mapNext (fun u => { u with pending := p }) (liveStep s) := by
    rw [liveStep_eq, liveStep_eq]
    exact congrArg Host.Outcome.next (finish_pending s p _)
  unfold engineStep
  cases s.inst.runState with
  | running | awaitingInput => exact hlive
  | haltedNormally | faulted | killed => rfl

theorem stepCurrent_pending {s u : State} (h : stepCurrent s = .next u) (p : List Event) :
    stepCurrent { s with pending := p } = .next { u with pending := p } := by
  obtain ⟨w, hw, rfl⟩ := stepCurrent_eq h
  have hp : engineStep { s with pending := p } = .next { w with pending := p } := by rw [engineStep_pending, hw]; rfl
  rw [stepCurrent_next hp, noteRun_pending]

theorem focus_pending (s : State) (j : Nat) (p : List Event) :
    State.focus { s with pending := p } j = { s.focus j with pending := p } := by
  simp only [State.focus, State.insts]
  split <;> rfl

/-- STEP of VM `j` among waiting events is the step of the system with `j` at the focus and no event (R206). -/
theorem stepAt_waiting (s : State) (j : Nat) (rest : List Event) :
    ∃ u, step { s.focus j with pending := [] } = .next u ∧
      stepAt j { s with pending := rest } = .next { u with pending := rest } := by
  obtain ⟨u, hu⟩ := stepCurrent_answers { s.focus j with pending := [] }
  refine ⟨u, (step_nil rfl).trans hu, ?_⟩
  rw [stepAt, focus_pending]
  exact stepCurrent_pending hu rest

theorem hostStep_eq {s : State} {j : Nat} {x : Vm} (hx : s.vm? j = some x) : hostStep j s = stepAt j s := by
  rw [hostStep, hx]

/-- Settles O48: `stepAt_waiting`, with the focus written out. -/
theorem hostStepStepsTheNamedInstance : Obligations.HostStepStepsTheNamedInstance := by
  intro s j x rest hp hx
  obtain ⟨u, hu, hat⟩ := stepAt_waiting s j rest
  rw [focus_eq hx] at hu
  exact ⟨u, hu, (step_cons hp).trans ((hostStep_eq (s := { s with pending := rest }) hx).trans hat)⟩

/-! ## The first step of RUN -/

/-- The system with RUN of `j` in progress in the place of an earlier one (R207); `startRun_eq` ties it to `startRun`. -/
def State.withRun (s : State) (j : Nat) (stop : Bool) : State :=
  { s with runs := (j, stop) :: s.runs.filter (fun p => p.1 != j) }

theorem startRun_eq {s : State} {j : Nat} {x : Vm} {stop : Bool} (hx : s.vm? j = some x) :
    startRun j stop s = stepAt j (s.withRun j stop) := by
  rw [startRun, hx]
  rfl

/-- A step of a VM with a RUN in progress: the RUN is in progress after it unless the result ends it (R132). -/
theorem step_lookup {s u : State} {j : Nat} {stop : Bool} (hp : s.pending = []) (hj : s.current = j)
    (hl : s.runs.lookup j = some stop) (hu : step s = .next u) :
    ∃ r, u.reply = .stepResult r ∧ u.runs.lookup j = if endsRun stop r then none else some stop := by
  obtain ⟨w, hw, rfl⟩ := step_engine hp hu
  obtain ⟨r, hr⟩ := engineStep_reply hw
  obtain ⟨-, hlower, -, -, hruns, -⟩ := engineStep_rest hw
  obtain ⟨-, -, -, -, -, -, hreply⟩ := noteRun_rest w
  have hcurrent : w.current = j := (congrArg List.length hlower).trans hj
  exact ⟨r, hreply.trans hr, hcurrent ▸ lookup_noteRun hr (by rw [hcurrent, hruns, hl])⟩

/-- Settles O49: the RUN is in progress when its first step is taken (`stepAt_waiting`), and `step_lookup` says which results
end it. -/
theorem runStopsWhereTheLoopStops : Obligations.RunStopsWhereTheLoopStops := by
  intro s j x stop rest hp hx
  obtain ⟨u, hu, hat⟩ := stepAt_waiting (s.withRun j stop) j rest
  have hcurrent : ((s.withRun j stop).focus j).current = j := current_focus (s := s.withRun j stop) hx
  obtain ⟨-, -, hruns, -⟩ := focus_rest (s.withRun j stop) j
  have hrun : ((s.withRun j stop).focus j).runs.lookup j = some stop := by
    rw [hruns, State.withRun, List.lookup_cons_self]
  obtain ⟨r, hr, hl⟩ := step_lookup (s := { (s.withRun j stop).focus j with pending := [] }) rfl hcurrent hrun hu
  rw [focus_eq (s := s.withRun j stop) hx] at hu
  refine ⟨u, r, hu, (step_cons hp).trans ((startRun_eq (s := { s with pending := rest }) hx).trans hat), hr, ?_, ?_⟩
  · rintro (rfl | rfl | rfl | rfl | ⟨f, rfl⟩ | ⟨rfl, v, rfl⟩) <;> exact hl
  · rintro (⟨ip, rfl⟩ | ⟨rfl, v, rfl⟩) <;> exact hl

end Sys2Proof.Machine
end

section
/-! PROOFS. What an instruction makes of other words in `OutQ` (R131): the operands never see them, and the operation sees their
number alone. -/

namespace Sys2Proof.Machine

/-- A VM with other words in `OutQ`. -/
def Vm.withOutQ (q : List Int) (x : Vm) : Vm := { x with outQ := q }

/-- The words that a result appends to `OutQ` (R162). -/
def StepResult.appended : StepResult → List Int
  | .producedOutput v => [v]
  | _ => []

/-- A result, and the VM after it where `OutQ` held `q` before. -/
def requeued (q : List Int) (p : StepResult × Vm) : StepResult × Vm := (p.1, p.2.withOutQ (q ++ p.1.appended))

theorem Effect.outQ_eq {c : Config} {x y : Vm} {i : Instr} {r : StepResult} (he : Effect c x i r y) :
    y.outQ = x.outQ ++ r.appended := by
  cases he with
  | out => rfl
  | _ => exact (List.append_nil _).symm

section
variable (c : Config) (x : Vm) (q : List Int)

theorem operands_withOutQ (i : Instr) : operands c (x.withOutQ q) i = operands c x i := rfl

theorem continueAt_withOutQ (next : Int) : continueAt (x.withOutQ q) next = requeued q <$> continueAt x next := by
  simp [continueAt, requeued, StepResult.appended, Vm.withOutQ, Vm.advance]

theorem memWrite_withOutQ (d v : Int) : memWrite c (x.withOutQ q) d v = Vm.withOutQ q <$> memWrite c x d v := by
  unfold memWrite
  cases checkAddr c d with
  | error e => rfl
  | ok n =>
    have hfull : footprintFull c (x.withOutQ q) n = footprintFull c x n := rfl
    cases h : footprintFull c x n with
    | true => simp [hfull, h]
    | false =>
      simp only [bind_ok, hfull, h, Bool.false_eq_true, if_false]
      rfl

theorem storeAndContinue_withOutQ (n : Nat) (d v : Int) :
    storeAndContinue c (x.withOutQ q) n d v = requeued q <$> storeAndContinue c x n d v := by
  rw [storeAndContinue, memWrite_withOutQ, bind_map_left, storeAndContinue, map_bind]
  exact congrArg _ (funext fun y => continueAt_withOutQ y q _)

theorem inputTo_withOutQ (d : Int) : inputTo c (x.withOutQ q) d = requeued q <$> inputTo c x d := by
  have hinQ : (x.withOutQ q).inQ = x.inQ := rfl
  have hpolicy : (x.withOutQ q).inputPolicy = x.inputPolicy := rfl
  unfold inputTo
  rw [hinQ, hpolicy]
  cases x.inQ with
  | cons v more => exact storeAndContinue_withOutQ c { x with inQ := more } q 2 d v
  | nil =>
    cases x.inputPolicy with
    | suspend => simp [requeued, StepResult.appended, Vm.withOutQ]
    | fault => rfl

theorem adjustBase_withOutQ (a : Int) : adjustBase c (x.withOutQ q) a = requeued q <$> adjustBase c x a := by
  have hrb : (x.withOutQ q).rb = x.rb := rfl
  rw [adjustBase, adjustBase, map_bind, hrb]
  exact congrArg _ (funext fun r => continueAt_withOutQ { x with rb := r } q _)

variable {q} (hq : q.length = x.outQ.length)
include hq

/-- OUT is the one operation that looks at `OutQ`, and at its fill level alone (R162, R163). -/
theorem outputFrom_withOutQ (v : Int) : outputFrom c (x.withOutQ q) v = requeued q <$> outputFrom c x v := by
  have hfull : outputFull c (x.withOutQ q) = outputFull c x := by simp [outputFull, Vm.withOutQ, hq]
  unfold outputFrom
  rw [hfull]
  split
  · simp [requeued, StepResult.appended]
  · simp [requeued, StepResult.appended, Vm.withOutQ, Vm.pushOut, Vm.advance]

theorem operation_withOutQ (i : Instr) (v1 v2 v3 : Int) :
    operation c (x.withOutQ q) i v1 v2 v3 = requeued q <$> operation c x i v1 v2 v3 := by
  cases i with
  | add | mul =>
    simp only [operation, map_bind]
    exact congrArg _ (funext fun v => storeAndContinue_withOutQ c x q 4 v3 v)
  | lt | eq => exact storeAndContinue_withOutQ c x q 4 v3 _
  | inp => exact inputTo_withOutQ c x q v1
  | out => exact outputFrom_withOutQ c x hq v1
  | jt | jf => exact continueAt_withOutQ x q _
  | arb => exact adjustBase_withOutQ c x q v1
  | halt => simp [operation, requeued, StepResult.appended, Vm.withOutQ, Vm.setHalted]

theorem executed_withOutQ (i : Instr) : executed i c (x.withOutQ q) = requeued q <$> executed i c x := by
  rw [executed_eq_operation, executed_eq_operation, operands_withOutQ, map_bind]
  exact congrArg _ (funext fun vs => operation_withOutQ c x hq i _ _ _)

end

/-- Settles O38: the instruction comes to the same with other words in `OutQ` (`executed_withOutQ`), and appends the words of its
result (`Effect.outQ_eq`). -/
theorem resultDependsOnTheInstanceAlone : Obligations.ResultDependsOnTheInstanceAlone := by
  intro i s u q hcfg hq hinst
  have hs := exec_eq i s
  have hu := exec_eq i u
  have hexec : executed i u.cfg u.inst = requeued q <$> executed i s.cfg s.inst := by
    rw [hcfg, hinst]
    exact executed_withOutQ s.cfg s.inst hq i
  rw [hexec] at hu
  cases he : executed i s.cfg s.inst with
  | ok p =>
    rw [he] at hs hu
    exact ⟨_, _, p.1.appended, hs, hu, rfl, (executed_eq_ok he).outQ_eq, rfl⟩
  | error e =>
    rw [he] at hs hu
    have hentry : faultEntry u.cfg u.inst e = (faultEntry s.cfg s.inst e).withOutQ q := by
      rw [hcfg, hinst]
      rfl
    exact ⟨_, _, [], hs, hu, rfl, (List.append_nil _).symm, hentry.trans (by rw [List.append_nil]; rfl)⟩

end Sys2Proof.Machine
end

section
/-! PROOFS. An IN that suspends and is resumed (R134, R135): the three steps, each with its event. -/

namespace Sys2Proof.Machine

/-! ## IN by the words in `InQ` -/

/-- IN with a word in `InQ` (R160). -/
theorem executed_inp_stores {c : Config} {x : Vm} {m1 : Mode} {d v : Int} {more : List Int} (hd : destAddr c x 1 m1 d)
    (hr : writeRoom c x d) (hq : x.inQ = v :: more) :
    executed (.inp m1) c x =
      .ok (.continued (x.ip + 2), (Vm.store { x with inQ := more } d.toNat v).advance (x.ip + 2)) := by
  have hroom : writeRoom c { x with inQ := more } d := hr
  simp only [executed, resolveOut_addr hd, bind_ok, inputTo, hq]
  exact storeAndContinue_room hd.2.1 hroom

/-- IN with `InQ` empty under `Suspend` (R160). -/
theorem executed_inp_waits {c : Config} {x : Vm} {m1 : Mode} {d : Int} (hd : destAddr c x 1 m1 d) (hq : x.inQ = [])
    (hp : x.inputPolicy = .suspend) : executed (.inp m1) c x = .ok (.needsInput, { x with runState := .awaitingInput }) := by
  simp only [executed, resolveOut_addr hd, bind_ok, inputTo, hq, hp]

/-! ## The two events -/

theorem run_succ {s t : State} (h : step s = .next t) (k : Nat) :
    Host.Core.run Sys2Proof.core (k + 1) s = Host.Core.run Sys2Proof.core k t := by
  have hcore : Sys2Proof.core.step s = .next t := h
  simp only [Host.Core.run, hcore]

theorem focus_current (s : State) : s.focus s.current = s := by
  rw [focus_eq (vm_current s)]
  simp [State.insts, State.current]

theorem hostStep_current (s : State) : hostStep s.current s = stepCurrent s := by
  rw [hostStep_eq (vm_current s), stepAt, focus_current]

/-- STEP of the VM at the focus, live, at the instruction `i`, with no RUN in progress. -/
theorem step_hostStep_current {s : State} {i : Instr} {rest : List Event} (hp : s.pending = .hostStep s.current :: rest)
    (hlive : s.inst.isLive) (hip : legalAddr s.cfg s.inst.ip) (hi : decode (s.inst.wordAt s.inst.ip) = .ok i)
    (hruns : s.runs = []) : step s = exec i { s with pending := rest } := by
  rw [step_cons hp]
  exact (hostStep_current { s with pending := rest }).trans (stepCurrent_exec hlive hip hi hruns)

/-- PROVIDE_INPUT of a word to the live VM at the focus, with room in `InQ` (R203). -/
theorem step_provideInput_current {s : State} {v : Int} {rest : List Event}
    (hp : s.pending = .provideInput s.current v :: rest) (hlive : s.inst.isLive) (hv : s.cfg.fits v = true)
    (hroom : inputRoom s.cfg s.inst 1) :
    step s = .next { s with inst := s.inst.pushIn [v], pending := rest, reply := .ok } := by
  have hx : State.vm? { s with pending := rest } s.current = some s.inst := vm_current s
  have hnot : s.inst.runState ≠ .killed := by rcases hlive with h | h <;> simp [h]
  have hprovide : provideInput s.cfg v s.inst = (.ok, s.inst.pushIn [v]) := by
    simp [provideInput, hv, hnot, hasRoom_iff.2 hroom]
  rw [step_cons hp, perform, State.command, hx]
  simp [hprovide, State.modifyVm, State.current, State.answer]

/-! ## The word first, and the word late -/

/-- The system after an IN of `v` to `d` that is all that was waiting. -/
def State.afterInput (s : State) (d v : Int) : State :=
  { s with
    inst := (Vm.store { s.inst with inQ := [] } d.toNat v).advance (s.inst.ip + 2)
    pending := []
    reply := .stepResult (.continued (s.inst.ip + 2)) }

section
variable {s : State} {m1 : Mode} {v d : Int} (hlive : s.inst.isLive) (hip : legalAddr s.cfg s.inst.ip)
  (hi : decode (s.inst.wordAt s.inst.ip) = .ok (.inp m1)) (hd : destAddr s.cfg s.inst 1 m1 d) (hq : s.inst.inQ = [])
  (hruns : s.runs = [])
include hlive hip hi hd hq hruns

/-- PROVIDE_INPUT, STEP at an IN with `InQ` empty. -/
theorem run_provideInput_hostStep
    (hp : s.pending = [.provideInput s.current v, .hostStep s.current]) (hr : writeRoom s.cfg s.inst d)
    (hv : s.cfg.fits v = true) (hroom : inputRoom s.cfg s.inst 1) :
    Host.Core.run Sys2Proof.core 2 s = .next (s.afterInput d v) := by
  have hq' : (s.inst.pushIn [v]).inQ = [v] := by simp [hq]
  have hstep := step_hostStep_current (s := { s with
    inst := s.inst.pushIn [v], pending := [.hostStep s.current], reply := .ok }) rfl hlive hip hi hruns
  rw [exec_eq, executed_inp_stores (x := s.inst.pushIn [v]) hd hr hq'] at hstep
  rw [run_succ (step_provideInput_current hp hlive hv hroom), run_succ hstep]
  rfl

/-- STEP at an IN with `InQ` empty under `Suspend`. -/
theorem step_hostStep_suspends {rest : List Event} (hp : s.pending = .hostStep s.current :: rest)
    (hpolicy : s.inst.inputPolicy = .suspend) :
    step s = .next { s with
      inst := { s.inst with runState := .awaitingInput }, pending := rest, reply := .stepResult .needsInput } := by
  rw [step_hostStep_current hp hlive hip hi hruns, exec_eq, executed_inp_waits hd hq hpolicy]
  rfl

end

/-- Settles O41: after the suspension the system differs in the run state and the reply, which both runs then write. -/
theorem suspendAndResumeIsInvisible : Obligations.SuspendAndResumeIsInvisible := by
  intro s m1 v d hlive hip hi hd hr hq hpolicy hv hroom hruns
  have hsuspends := step_hostStep_suspends (s := { s with
    pending := [.hostStep s.current, .provideInput s.current v, .hostStep s.current] }) hlive hip hi hd hq hruns rfl hpolicy
  refine ⟨s.afterInput d v, ?_, ?_, rfl, rfl, rfl, rfl⟩
  · rw [run_succ hsuspends]
    exact run_provideInput_hostStep (.inr rfl) hip hi hd hq hruns rfl hr hv hroom
  · exact run_provideInput_hostStep (s := { s with
      pending := [.provideInput s.current v, .hostStep s.current] }) hlive hip hi hd hq hruns rfl hr hv hroom

end Sys2Proof.Machine
end

section
/-! PROOFS. ADD and MUL (R150 to R152): with the operands resolved, the exact result is checked to be a word and then written. -/

namespace Sys2Proof.Machine

/-! ## The write that ends a storing instruction -/

theorem finish_storeAndContinue_room {s : State} {n : Nat} {d v : Int} (hd : legalAddr s.cfg d)
    (hr : writeRoom s.cfg s.inst d) : s.finish (storeAndContinue s.cfg s.inst n d v) = s.stored n d v := by
  rw [storeAndContinue_room hd hr]
  rfl

theorem finish_storeAndContinue_full {s : State} {n : Nat} {d v : Int} (hip : legalAddr s.cfg s.inst.ip)
    (hd : legalAddr s.cfg d) (hr : ¬ writeRoom s.cfg s.inst d) :
    s.finish (storeAndContinue s.cfg s.inst n d v) = s.faultedWith .capacityExceeded (some d) := by
  rw [storeAndContinue_full hd hr]
  exact finish_error_eq _ hip

/-! ## The exact result -/

theorem exec_add_or_mul {i : Instr} {m1 m2 m3 : Mode} {s : State} {a1 a2 d v : Int}
    (h1 : inputValue s.cfg s.inst 1 m1 a1) (h2 : inputValue s.cfg s.inst 2 m2 a2) (h3 : destAddr s.cfg s.inst 3 m3 d)
    (hi : (i = .add m1 m2 m3 ∧ v = a1 + a2) ∨ (i = .mul m1 m2 m3 ∧ v = a1 * a2)) :
    exec i s = .next (s.finish (exactWord s.cfg v >>= storeAndContinue s.cfg s.inst 4 d)) := by
  rw [exec_eq]
  rcases hi with ⟨rfl, rfl⟩ | ⟨rfl, rfl⟩ <;> rw [executed, threeOperand_resolved h1 h2 h3] <;> rfl

/-- Settles O17: by whether the exact result is a word, and then by whether its write has room. -/
theorem addAndMulAreExactOrFault : Obligations.AddAndMulAreExactOrFault := by
  intro m1 m2 m3 s a1 a2 d hip h1 h2 h3 i v hi
  rw [exec_add_or_mul h1 h2 h3 hi]
  have hd : legalAddr s.cfg d := h3.2.1
  refine ⟨fun hv hr => ?_, fun hv => ?_, fun hv hr => ?_⟩
  · rw [exactWord_fits hv, bind_ok, finish_storeAndContinue_room hd hr]
  · rw [exactWord_not hv, bind_error, finish_error_eq _ hip]
    rfl
  · rw [exactWord_fits hv, bind_ok, finish_storeAndContinue_full hip hd hr]

end Sys2Proof.Machine
end

section
/-! PROOFS. IN and OUT (R160 to R163): with the operand resolved, IN is decided by the front of `InQ` and OUT by the room in `OutQ`. -/

namespace Sys2Proof.Machine

/-! ## IN -/

/-- An IN whose write finds no room (R55, R160). -/
theorem executed_inp_full {c : Config} {x : Vm} {m1 : Mode} {d v : Int} {more : List Int} (hd : destAddr c x 1 m1 d)
    (hr : ¬ writeRoom c x d) (hq : x.inQ = v :: more) : executed (.inp m1) c x = .error ⟨.capacityExceeded, d⟩ := by
  have hfull : ¬ writeRoom c { x with inQ := more } d := hr
  simp only [executed, resolveOut_addr hd, bind_ok, inputTo, hq]
  exact storeAndContinue_full hd.2.1 hfull

/-- IN with `InQ` empty under `Fault` (R160, R274). -/
theorem executed_inp_exhausted {c : Config} {x : Vm} {m1 : Mode} {d : Int} (hd : destAddr c x 1 m1 d) (hq : x.inQ = [])
    (hp : x.inputPolicy = .fault) : executed (.inp m1) c x = .error ⟨.inputExhausted, 0⟩ := by
  simp only [executed, resolveOut_addr hd, bind_ok, inputTo, hq, hp]

/-- Settles O19: by whether the write has room (`executed_inp_stores`, `executed_inp_full`). -/
theorem inStoresTheFrontWord : Obligations.InStoresTheFrontWord := by
  intro m1 s d v rest hip hd hq
  rw [exec_eq]
  refine ⟨fun hr => ?_, fun hr => ?_⟩
  · rw [executed_inp_stores hd hr hq]
    rfl
  · rw [executed_inp_full hd hr hq, finish_error_eq _ hip]
    rfl

/-- Settles O20: by `INPUT_POLICY` (`executed_inp_waits`, `executed_inp_exhausted`), before any write looks at the capacity. -/
theorem inWithoutInputWaitsOrFaults : Obligations.InWithoutInputWaitsOrFaults := by
  intro m1 s d hip hd hq
  rw [exec_eq]
  refine ⟨fun hp => ?_, fun hp => ?_⟩
  · rw [executed_inp_waits hd hq hp]
    rfl
  · rw [executed_inp_exhausted hd hq hp, finish_error_eq _ hip]
    rfl

/-- Settles O26: an IN that completes stores at the resolved destination and shortens `InQ`; a suspension writes the run state
alone, and a fault the run state and the record. -/
theorem inputFrame : Obligations.InputFrame := by
  intro m1 s t h
  have hrest := exec_rest h
  have hfault := exec_fault h
  rcases exec_cases h with ⟨r, y, he, rfl⟩ | ⟨e, rfl⟩
  · refine ⟨⟨he.rb (by simp), he.halted (by simp), he.inputPolicy, he.outQ (by simp)⟩, hfault, hrest, ?_⟩
    cases he with
    | inp hd hq _ =>
      refine ⟨fun d hd' a ha => ?_, fun hsame => ?_⟩
      · obtain rfl := destAddr_unique hd (resolveOut_eq_ok hd')
        simp [read_write_other _ _ _ _ ha, mem_footprintAdd, ha]
      · simp [hq] at hsame
    | inpWaits => simp
  · exact ⟨by simp, hfault, hrest, by simp, by simp⟩

/-! ## OUT -/

theorem outputFull_iff {c : Config} {x : Vm} : outputFull c x = true ↔ c.outDepth = some x.outQ.length := beq_iff_eq

/-- OUT with room in `OutQ` (R162). -/
theorem executed_out_appends {c : Config} {x : Vm} {m1 : Mode} {a1 : Int} (h1 : inputValue c x 1 m1 a1)
    (hroom : c.outDepth ≠ some x.outQ.length) :
    executed (.out m1) c x = .ok (.producedOutput a1, (x.pushOut a1).advance (x.ip + 2)) := by
  simp only [executed, resolveIn_value h1, bind_ok, outputFrom, outputFull_iff, hroom, if_false]

/-- OUT with `OutQ` full (R163). -/
theorem executed_out_holds {c : Config} {x : Vm} {m1 : Mode} {a1 : Int} (h1 : inputValue c x 1 m1 a1)
    (hfull : c.outDepth = some x.outQ.length) : executed (.out m1) c x = .ok (.outputBlocked, x) := by
  simp only [executed, resolveIn_value h1, bind_ok, outputFrom, outputFull_iff, hfull, if_true]

/-- Settles O21: by whether `OutQ` holds `OUT_DEPTH` words (`executed_out_appends`, `executed_out_holds`). -/
theorem outAppendsOrHolds : Obligations.OutAppendsOrHolds := by
  intro m1 s a1 h1
  rw [exec_eq]
  refine ⟨fun hroom => ?_, fun hfull => ?_⟩
  · rw [executed_out_appends h1 hroom]
    rfl
  · rw [executed_out_holds h1 hfull]
    rfl

end Sys2Proof.Machine
end

section
/-! PROOFS. JT and JF (R170 to R172): with both inputs resolved, the jump goes to the target as it is, unchecked, or on to `IP + 3`. -/

namespace Sys2Proof.Machine

/-- The end of a conditional jump whose inputs resolve; the target is any word (R172). -/
theorem finish_jumpIf_resolved {taken : Int → Bool} {m1 m2 : Mode} {s : State} {a1 a2 : Int}
    (h1 : inputValue s.cfg s.inst 1 m1 a1) (h2 : inputValue s.cfg s.inst 2 m2 a2) :
    s.finish (jumpIf taken m1 m2 s.cfg s.inst) = s.movedTo (if taken a1 then a2 else s.inst.ip + 3) := by
  rw [jumpIf_resolved h1 h2]
  rfl

/-- Settles O22: `finish_jumpIf_resolved`, with the test of JT (R170) and the test of JF (R171). -/
theorem conditionalJumps : Obligations.ConditionalJumps := by
  intro m1 m2 s a1 a2 h1 h2
  constructor
  · rw [exec_eq, executed, finish_jumpIf_resolved h1 h2]
    simp only [bne_iff_ne]
  · rw [exec_eq, executed, finish_jumpIf_resolved h1 h2]
    simp only [beq_iff_eq]

end Sys2Proof.Machine
end

section
/-! PROOFS. LT and EQ (R180, R181): a comparison always gives a word, so with the operands resolved only the write can fault. -/

namespace Sys2Proof.Machine

/-! ## An operation that never raises -/

theorem finish_threeOperand_room {op : Int → Int → Int} {m1 m2 m3 : Mode} {s : State} {a1 a2 d : Int}
    (h1 : inputValue s.cfg s.inst 1 m1 a1) (h2 : inputValue s.cfg s.inst 2 m2 a2) (h3 : destAddr s.cfg s.inst 3 m3 d)
    (hr : writeRoom s.cfg s.inst d) :
    s.finish (threeOperand (fun a b => .ok (op a b)) m1 m2 m3 s.cfg s.inst) = s.stored 4 d (op a1 a2) := by
  rw [threeOperand_resolved h1 h2 h3, bind_ok, finish_storeAndContinue_room h3.2.1 hr]

theorem finish_threeOperand_full {op : Int → Int → Int} {m1 m2 m3 : Mode} {s : State} {a1 a2 d : Int}
    (hip : legalAddr s.cfg s.inst.ip) (h1 : inputValue s.cfg s.inst 1 m1 a1) (h2 : inputValue s.cfg s.inst 2 m2 a2)
    (h3 : destAddr s.cfg s.inst 3 m3 d) (hr : ¬ writeRoom s.cfg s.inst d) :
    s.finish (threeOperand (fun a b => .ok (op a b)) m1 m2 m3 s.cfg s.inst) =
      s.faultedWith .capacityExceeded (some d) := by
  rw [threeOperand_resolved h1 h2 h3, bind_ok, finish_storeAndContinue_full hip h3.2.1 hr]

/-- Settles O18: by whether the write has room (`finish_threeOperand_room`, `finish_threeOperand_full`), with the comparison of
LT (R180) and the comparison of EQ (R181). -/
theorem comparisonsWriteOneOrZero : Obligations.ComparisonsWriteOneOrZero := by
  intro m1 m2 m3 s a1 a2 d hip h1 h2 h3
  refine ⟨fun hr => ⟨?_, ?_⟩, fun hr => ⟨?_, ?_⟩⟩
  · rw [exec_eq, executed, finish_threeOperand_room h1 h2 h3 hr, aluLt]
  · rw [exec_eq, executed, finish_threeOperand_room h1 h2 h3 hr, aluEq]
  · rw [exec_eq, executed, finish_threeOperand_full hip h1 h2 h3 hr]
  · rw [exec_eq, executed, finish_threeOperand_full hip h1 h2 h3 hr]

end Sys2Proof.Machine
end

section
/-! PROOFS. ARB and HALT (R190, R191): with the operand resolved, ARB is decided by whether the new base is a word; HALT always
completes. -/

namespace Sys2Proof.Machine

/-- ARB whose new base is a word (R190). -/
theorem executed_arb_adjusts {c : Config} {x : Vm} {m1 : Mode} {a1 : Int} (h1 : inputValue c x 1 m1 a1)
    (hv : c.fits (x.rb + a1) = true) :
    executed (.arb m1) c x = .ok (.continued (x.ip + 2), Vm.advance { x with rb := x.rb + a1 } (x.ip + 2)) := by
  simp only [executed, resolveIn_value h1, bind_ok, adjustBase, aluAdd, exactWord_fits hv, continueAt]

/-- ARB whose new base is no word (R152, R190). -/
theorem executed_arb_overflows {c : Config} {x : Vm} {m1 : Mode} {a1 : Int} (h1 : inputValue c x 1 m1 a1)
    (hv : c.fits (x.rb + a1) = false) : executed (.arb m1) c x = .error ⟨.arithmeticOverflow, 0⟩ := by
  simp only [executed, resolveIn_value h1, bind_ok, adjustBase, aluAdd, exactWord_not hv, bind_error]

/-- Settles O23: by whether the new base is a word (`executed_arb_adjusts`, `executed_arb_overflows`). -/
theorem arbAddsToTheBase : Obligations.ArbAddsToTheBase := by
  intro m1 s a1 hip h1
  rw [exec_eq]
  refine ⟨fun hv => ?_, fun hv => ?_⟩
  · rw [executed_arb_adjusts h1 hv]
    rfl
  · rw [executed_arb_overflows h1 hv, finish_error_eq _ hip]
    rfl

/-- Settles O24: HALT resolves no operand, so it comes to `Vm.setHalted` in every state. -/
theorem haltStopsAtItsAddress : Obligations.HaltStopsAtItsAddress := by
  intro s
  rw [exec_eq, executed]
  rfl

end Sys2Proof.Machine
end

section
/-! PROOFS. The host's commands on one VM (R200 to R213) and MUX_RESET and KILL of the mux (R232, R243). Each command is the
pair of its reply and its VM (`command_gives`), so what is left is to evaluate that pair, one lemma a case. -/

namespace Sys2Proof.Machine

/-- What a command leaves, read off the pair it answers. -/
theorem commandGives_of_eq {s : State} {j : Nat} {p : Reply × Vm} {r : Reply} {y : Vm}
    (h : commandGives s j p.1 p.2) (hp : p = (r, y)) : commandGives s j r y := by
  subst hp
  exact h

/-! ## LOAD -/

theorem loadRefusal_eq_none_iff {c : Config} {program : List Int} :
    loadRefusal c program = none ↔
      (∀ v ∈ program, c.fits v = true) ∧ (∀ l, c.addrLimit = some l → program.length ≤ l) ∧
        ∀ k, c.capacity = some k → program.length ≤ k := by
  refine ⟨loadRefusal_eq_none, fun ⟨hwords, hlimit, hcap⟩ => ?_⟩
  have hlimit' : c.addrLimit.any (fun l => decide (l < program.length)) = false := by
    simpa [Option.any_eq_false] using hlimit
  have hcap' : c.capacity.any (fun k => decide (k < program.length)) = false := by
    simpa [Option.any_eq_false] using hcap
  simp [loadRefusal, List.all_eq_true.2 hwords, hlimit', hcap']

theorem load_accepted {c : Config} {program : List Int} (h : loadRefusal c program = none) (x : Vm) :
    load c program x = (.ok, Vm.loaded program) := by
  simp [load, h]

theorem load_refused {c : Config} {program : List Int} {why : RefuseReason} (h : loadRefusal c program = some why)
    (x : Vm) : load c program x = (.refused why, x) := by
  simp [load, h]

/-- The image of LOAD: the program from 0 on, and 0 elsewhere (R201). -/
theorem loaded_read (program : List Int) (a : Nat) : (Vm.loaded program).mem.read a = program.getD a 0 := by
  have hread : (Vm.loaded program).mem.read a = if 0 ≤ a ∧ a < 0 + program.length then program.getD (a - 0) 0 else 0 :=
    read_writeList [] 0 a program ⟨.nil, by simp⟩
  rw [hread]
  split
  · rfl
  · exact (List.getD_eq_default _ _ (by omega)).symm

/-- Settles O43: by whether LOAD has a reason to refuse (`loadRefusal_eq_none_iff`). -/
theorem loadResetsOrRefuses : Obligations.LoadResetsOrRefuses := by
  intro s j x program rest hp hx
  have hgives := command_gives (f := load s.cfg program) hp hx rfl
  refine ⟨fun hwords hlimit hcap => ?_, fun hbad => ?_⟩
  · have hnone := loadRefusal_eq_none_iff.2 ⟨hwords, hlimit, hcap⟩
    exact ⟨Vm.loaded program, commandGives_of_eq hgives (load_accepted hnone x), loaded_read program,
      rfl, rfl, rfl, rfl, rfl, rfl, rfl, rfl, rfl⟩
  · cases hr : loadRefusal s.cfg program with
    | some why => exact ⟨why, commandGives_of_eq hgives (load_refused hr x)⟩
    | none =>
      obtain ⟨hwords, hlimit, hcap⟩ := loadRefusal_eq_none hr
      rcases hbad with ⟨v, hv, hnot⟩ | ⟨l, hl, hlong⟩ | ⟨k, hk, hlong⟩
      · simp [hwords v hv] at hnot
      · exact absurd (hlimit l hl) (by omega)
      · exact absurd (hcap k hk) (by omega)

/-! ## PROVIDE_INPUT and PROVIDE_INPUT_SEQUENCE -/

section
variable {c : Config} {vs : List Int} {x : Vm}

theorem provideInputs_notAWord (h : ∃ v ∈ vs, c.fits v = false) : provideInputs c vs x = (.refused .notAWord, x) := by
  simp [provideInputs, h]

theorem provideInputs_killed (hw : ∀ v ∈ vs, c.fits v = true) (hk : x.runState = .killed) :
    provideInputs c vs x = (.ok, x) := by
  simp [provideInputs, List.all_eq_true.2 hw, hk]

theorem provideInputs_room (hw : ∀ v ∈ vs, c.fits v = true) (hk : x.runState ≠ .killed)
    (hr : inputRoom c x vs.length) : provideInputs c vs x = (.ok, x.pushIn vs) := by
  simp [provideInputs, List.all_eq_true.2 hw, hk, hasRoom_iff.2 hr]

theorem provideInputs_full (hw : ∀ v ∈ vs, c.fits v = true) (hk : x.runState ≠ .killed)
    (hr : ¬ inputRoom c x vs.length) : provideInputs c vs x = (.refused .inputFull, x) := by
  rw [← hasRoom_iff] at hr
  simp [provideInputs, List.all_eq_true.2 hw, hk, hr]

end

/-- Settles O44: both commands are `provideInputs` (`provideInput_eq`), which has one lemma a clause. -/
theorem inputsAreQueuedOrRefused : Obligations.InputsAreQueuedOrRefused := by
  intro s j x vs rest hx hp
  have hgives : commandGives s j (provideInputs s.cfg vs x).1 (provideInputs s.cfg vs x).2 := by
    rcases hp with hp | ⟨v, rfl, hp⟩
    · exact command_gives hp hx rfl
    · rw [← provideInput_eq]
      exact command_gives hp hx rfl
  exact ⟨fun hw => commandGives_of_eq hgives (provideInputs_notAWord hw),
    fun hw hk => commandGives_of_eq hgives (provideInputs_killed hw hk),
    fun hw hk hr => commandGives_of_eq hgives (provideInputs_room hw hk hr),
    fun hw hk hr => commandGives_of_eq hgives (provideInputs_full hw hk hr)⟩

/-! ## READ_OUTPUT -/

theorem readOutput_nil {x : Vm} (h : x.outQ = []) : readOutput x = (.output none, x) := by
  simp [readOutput, h]

theorem readOutput_cons {x : Vm} {v : Int} {more : List Int} (h : x.outQ = v :: more) :
    readOutput x = (.output (some v), { x with outQ := more }) := by
  simp [readOutput, h]

/-- Settles O45: by whether `OutQ` is empty. -/
theorem readOutputPopsTheFront : Obligations.ReadOutputPopsTheFront := by
  intro s j x rest hp hx
  have hgives := command_gives (f := readOutput) hp hx rfl
  exact ⟨fun h => commandGives_of_eq hgives (readOutput_nil h),
    fun v more h => commandGives_of_eq hgives (readOutput_cons h)⟩

/-! ## The commands that read, and SET_INPUT_POLICY -/

theorem isHalted_halted {x : Vm} (h : x.runState = .haltedNormally) : isHalted x = (.isHalted true, x) := by
  simp [isHalted, h]

theorem isHalted_not {x : Vm} (h : x.runState ≠ .haltedNormally) : isHalted x = (.isHalted false, x) := by
  simp [isHalted, h]

theorem peek_legal {c : Config} {a : Int} (h : legalAddr c a) (x : Vm) : peek c a x = (.word (x.wordAt a), x) := by
  simp [peek, memRead_legal h]

theorem peek_illegal {c : Config} {a : Int} (h : ¬ legalAddr c a) (x : Vm) : peek c a x = (.refused .badAddress, x) := by
  obtain ⟨f, hf⟩ := (legal_or_fault c a).resolve_left h
  simp [peek, memRead_fault hf]

/-- Settles O46: READ_STATUS and SET_INPUT_POLICY are their pairs; IS_HALTED goes by the run state, PEEK by the address check. -/
theorem readingCommandsAndPolicy : Obligations.ReadingCommandsAndPolicy := by
  intro s j x rest hx
  refine ⟨fun hp => ?_, fun hp => command_gives (f := readStatus) hp hx rfl, fun a hp => ?_,
    fun p hp => command_gives (f := setInputPolicy p) hp hx rfl⟩
  · have hgives := command_gives (f := isHalted) hp hx rfl
    exact ⟨fun h => commandGives_of_eq hgives (isHalted_halted h), fun h => commandGives_of_eq hgives (isHalted_not h)⟩
  · have hgives := command_gives (f := peek s.cfg a) hp hx rfl
    exact ⟨fun h => commandGives_of_eq hgives (peek_legal h x), fun h => commandGives_of_eq hgives (peek_illegal h x)⟩

/-! ## KILL, and the mux's KILL and MUX_RESET -/

theorem kill_of_live {x : Vm} (h : x.isLive) : x.kill = { x with runState := .killed, inQ := [], outQ := [] } := by
  simp [Vm.kill, (live_iff x).2 h]

theorem kill_of_terminal {x : Vm} (h : ¬ x.isLive) : x.kill = { x with inQ := [], outQ := [] } := by
  rw [← live_iff] at h
  simp [Vm.kill, h]

/-- Settles O47: by whether the VM is live (`kill_of_live`, `kill_of_terminal`). -/
theorem killEndsALiveInstance : Obligations.KillEndsALiveInstance := by
  intro s j x rest hp hx
  have hgives : commandGives s j .ok x.kill := command_gives (f := kill) hp hx rfl
  exact ⟨fun h => kill_of_live h ▸ hgives, fun h => kill_of_terminal h ▸ hgives⟩

/-- KILL(j) through the mux, where there is a VM `j` (R243). -/
theorem step_muxKill {s : State} {j : Nat} {x : Vm} {rest : List Event} (hp : s.pending = .muxKill j :: rest)
    (hx : s.vm? j = some x) :
    step s = .next (((State.modifyVm { s with pending := rest } j Vm.kill).modifyMux (fun m => m.setAsm j [])).answer .ok) := by
  have hx' : State.vm? { s with pending := rest } j = some x := hx
  rw [step_cons hp, perform, muxKill, hx']

/-- Changing VM `j` by `f` sets it to what `f` gives. -/
theorem insts_modifyVm_eq_set {s : State} {j : Nat} {x : Vm} (hx : s.vm? j = some x) (f : Vm → Vm) :
    (s.modifyVm j f).insts = s.insts.set j (f x) := by
  rw [insts_modifyVm, List.modify_eq_set_getElem?]
  rw [State.vm?] at hx
  simp [hx]

/-- Settles O59: MUX_RESET is `Mux.clear`; KILL through the mux is `Vm.kill` of the VM and an emptied assembly buffer. -/
theorem muxResetAndKill : Obligations.MuxResetAndKill := by
  intro s rest
  refine ⟨fun hp => step_cons hp, fun j x hp hx => ?_⟩
  refine ⟨_, x.kill, step_muxKill hp hx, rfl, ?_, ?_, rfl, fun h => ?_, fun h => ?_⟩
  · exact insts_modifyVm_eq_set (s := { s with pending := rest }) hx Vm.kill
  · simp [Mux.setAsm, modifyVm_rest]
  · rw [kill_of_live h]
  · rw [kill_of_terminal h]

end Sys2Proof.Machine
end

section
/-! PROOFS. ROUTE and SUPPLY (R236 to R244). A ROUTE is the routing of its popped word, and where that word goes to a VM the three
clauses of a delivery are said once for both modes (`route_delivers`). -/

namespace Sys2Proof.Machine

/-! ## The routing of the popped word -/

section
variable {s t : State} {i j : Nat} {x y : Vm} {v : Int} {more vs : List Int}

/-- A delivery after the pop has the outcome it would have had before it: the pop touches no `InQ` and no run state. -/
theorem Popped.deliver_leaves (h : Popped s t i x more) (hy : s.vm? j = some y) :
    (y.runState = .killed → Leaves t (t.deliver j vs) (s.insts.set i { x with outQ := more }) s.mux) ∧
    (y.runState ≠ .killed → inputRoom s.cfg y vs.length →
      Leaves t (t.deliver j vs)
        ((s.insts.set i { x with outQ := more }).modify j (fun z => { z with inQ := z.inQ ++ vs })) s.mux) ∧
    (y.runState ≠ .killed → ¬ inputRoom s.cfg y vs.length → t.deliver j vs = none) := by
  obtain ⟨z, hz, hrun, hroom⟩ := h.vm j y hy
  obtain ⟨-, hcfg, -, -⟩ := h.kept
  rw [← hrun, ← hroom s.cfg vs.length, ← hcfg, ← h.insts, ← h.mux]
  exact Machine.deliver_leaves hz

theorem modifyVm_leaves (hx : s.vm? i = some x) (f : Vm → Vm) :
    Leaves s (some (s.modifyVm i f)) (s.insts.set i (f x)) s.mux :=
  ⟨_, rfl, kept_modifyVm .., insts_modifyVm_eq_set hx f, (modifyVm_rest ..).2.1⟩

theorem route_leaves {ws : List Vm} {m : Mux} (ha : s.mux.status = .active) (hx : s.vm? i = some x)
    (hq : x.outQ = v :: more) (h : ∀ t, Popped s t i x more → Leaves t (routeWord i v t) ws m) :
    Leaves s (route i s) ws m.clearCounts := by
  have hpop := popped hx hq
  rw [route_eq ha hx hq]
  exact ((h _ hpop).thenMux Mux.clearCounts).before hpop.kept

/-- A ROUTE whose word, with `f` done to the mux, is a delivery to VM `j` (R236, R240, R243). -/
theorem route_delivers {f : Mux → Mux} (ha : s.mux.status = .active) (hx : s.vm? i = some x)
    (hq : x.outQ = v :: more) (hy : s.vm? j = some y)
    (hword : ∀ t, Popped s t i x more → routeWord i v t = (t.deliver j vs).map (fun u => u.modifyMux f)) :
    (y.runState = .killed →
      Leaves s (route i s) (s.insts.set i { x with outQ := more }) (f s.mux).clearCounts) ∧
    (y.runState ≠ .killed → inputRoom s.cfg y vs.length →
      Leaves s (route i s)
        ((s.insts.set i { x with outQ := more }).modify j (fun z => { z with inQ := z.inQ ++ vs }))
        (f s.mux).clearCounts) ∧
    (y.runState ≠ .killed → ¬ inputRoom s.cfg y vs.length → route i s = none) := by
  have hpop := popped hx hq
  obtain ⟨hkilled, hroom, hfull⟩ := hpop.deliver_leaves (vs := vs) hy
  rw [route_eq ha hx hq, hword _ hpop]
  refine ⟨fun hk => ?_, fun hk hr => ?_, fun hk hr => ?_⟩
  · exact (((hkilled hk).thenMux f).thenMux Mux.clearCounts).before hpop.kept
  · exact (((hroom hk hr).thenMux f).thenMux Mux.clearCounts).before hpop.kept
  · rw [hfull hk hr]
    rfl

end

/-! ## Chain mode -/

section
variable {s : State} {i j : Nat} {v : Int}

/-- What a ROUTE in Chain mode that delivers to a VM does to `LAST_SIGNAL` (R236). -/
def chainSignal (s : State) (i : Nat) (v : Int) (m : Mux) : Mux := if i + 1 < s.count then m else m.signal v

theorem clearCounts_chainSignal : (chainSignal s i v s.mux).clearCounts = chainMux s i v := by
  unfold chainSignal chainMux
  split <;> rfl

theorem routeWord_chain (hm : s.mux.cfg.mode = .chain) : routeWord i v s = routeChain i v s := by
  rw [routeWord, hm]

theorem routeChain_to_hostOut (h : chainDest s i = none) :
    routeChain i v s = some (s.modifyMux (fun m => (m.pushHostOut v).signal v)) := by
  unfold chainDest at h
  unfold routeChain
  split at h
  · cases h
  · split at h
    · cases h
    · simp [*]

theorem routeChain_to_vm (h : chainDest s i = some j) :
    routeChain i v s = (s.deliver j [v]).map (fun t => t.modifyMux (chainSignal s i v)) := by
  unfold chainDest at h
  unfold routeChain chainSignal
  split at h
  · cases h
    simp [*, State.modifyMux]
  · split at h
    · cases h
      simp [*]
    · cases h

end

/-- The pop of the front output word changes no destination. -/
theorem Popped.chainDest {s t : State} {i : Nat} {x : Vm} {more : List Int} (h : Popped s t i x more) :
    chainDest t i = chainDest s i := by
  rw [Machine.chainDest, h.count, h.mux, Machine.chainDest]

theorem Popped.chainSignal {s t : State} {i : Nat} {x : Vm} {more : List Int} (h : Popped s t i x more) (v : Int) :
    chainSignal t i v = chainSignal s i v := by
  funext m
  rw [Machine.chainSignal, h.count, Machine.chainSignal]

theorem Popped.routeWord_chain {s t : State} {i : Nat} {x : Vm} {more : List Int} {v : Int} (h : Popped s t i x more)
    (hm : s.mux.cfg.mode = .chain) : routeWord i v t = routeChain i v t :=
  Machine.routeWord_chain (h.mux.symm ▸ hm)

theorem route_chain_to_hostOut {s : State} {i : Nat} {x : Vm} {v : Int} {more : List Int}
    (ha : s.mux.status = .active) (hm : s.mux.cfg.mode = .chain) (hx : s.vm? i = some x) (hq : x.outQ = v :: more)
    (hd : chainDest s i = none) :
    Leaves s (route i s) (s.insts.set i { x with outQ := more })
      { chainMux s i v with hostOut := s.mux.hostOut ++ [v] } := by
  have hlast : ¬ i + 1 < s.count := fun hlt => by simp [chainDest, hlt] at hd
  have hmux : { chainMux s i v with hostOut := s.mux.hostOut ++ [v] } =
      ((s.mux.pushHostOut v).signal v).clearCounts := by
    simp only [chainMux, if_neg hlast]
    rfl
  rw [hmux]
  refine route_leaves ha hx hq fun t ht => ?_
  rw [ht.routeWord_chain hm, routeChain_to_hostOut (ht.chainDest.trans hd), ← ht.insts, ← ht.mux]
  exact (leaves_some t).thenMux fun m => (m.pushHostOut v).signal v

/-- Settles O50: by the destination of the word; a word for a VM is a delivery (`route_delivers`). -/
theorem chainRouting : Obligations.ChainRouting := by
  intro s i x v more rest hp ha hm hx hq
  refine ⟨fun hd => Leaves.gives hp rfl (route_chain_to_hostOut (s := { s with pending := rest }) ha hm hx hq hd),
    fun j y hd hy => ?_⟩
  obtain ⟨hkilled, hroom, hfull⟩ := route_delivers (s := { s with pending := rest }) ha hx hq hy
    fun t ht => (ht.routeWord_chain hm).trans <|
      ht.chainSignal v ▸ routeChain_to_vm (ht.chainDest.trans hd)
  rw [clearCounts_chainSignal] at hkilled hroom
  exact ⟨fun hk => Leaves.gives hp rfl (hkilled hk), fun hk hr => Leaves.gives hp rfl (hroom hk hr),
    fun hk hr => answers_notEnabled hp rfl (hfull hk hr)⟩

/-! ## Packet mode -/

section
variable {s : State} {i j : Nat} {dest a v : Int}

theorem routeWord_packet (hm : s.mux.cfg.mode = .packet) : routeWord i v s = routePacket i v s := by
  rw [routeWord, hm]

theorem routePacket_assembles {ws : List Int} (hasm : s.mux.asm[i]? = some ws) (hlen : ws.length < 2) :
    routePacket i v s = some (s.modifyMux (fun m => m.setAsm i (ws ++ [v]))) := by
  match ws, hlen with
  | [], _ => simp [routePacket, hasm]
  | [_], _ => simp [routePacket, hasm]

theorem routePacket_dispatches (hasm : s.mux.asm[i]? = some [dest, a]) :
    routePacket i v s = (dispatchPacket i dest a v s).map (fun t => t.modifyMux (fun m => m.setAsm i [])) := by
  simp [routePacket, hasm]

/-- The broadcast packet `(a, v)` taken by the mux (R240). -/
def Mux.broadcast (m : Mux) (a v : Int) : Mux :=
  { m with lastBcast := (a, v), lastBcastValid := true, mon := m.mon ++ [⟨.broadcast, a, v⟩] }

/-- The mux in `RoutingFault` for a message of VM `i` to `dest` (R241). -/
def Mux.misrouted (m : Mux) (i : Nat) (dest : Int) : Mux :=
  { m with status := .routingFault, routeFaultSrc := i, routeFaultDest := dest }

theorem dispatchPacket_broadcast (hb : dest = s.mux.cfg.bcastAddr) :
    dispatchPacket i dest a v s = some (s.modifyMux (fun m => m.broadcast a v)) :=
  if_pos hb

theorem dispatchPacket_to_vm (hb : (j : Int) ≠ s.mux.cfg.bcastAddr) (hj : j < s.count) :
    dispatchPacket i j a v s = s.deliver j [a, v] := by
  rw [dispatchPacket, if_neg hb, if_pos ⟨by omega, by omega⟩, Int.toNat_natCast]

theorem dispatchPacket_misrouted (hb : dest ≠ s.mux.cfg.bcastAddr) (hd : dest < 0 ∨ (s.count : Int) ≤ dest) :
    dispatchPacket i dest a v s = some (s.modifyMux (fun m => m.misrouted i dest)) := by
  rw [dispatchPacket, if_neg hb, if_neg (by omega)]
  rfl

end

section
variable {s t : State} {i : Nat} {x : Vm} {dest a v : Int} {more : List Int}

theorem Popped.routeWord_packet (h : Popped s t i x more) (hm : s.mux.cfg.mode = .packet) :
    routeWord i v t = routePacket i v t :=
  Machine.routeWord_packet (h.mux.symm ▸ hm)

theorem Popped.routeWord_dispatches (h : Popped s t i x more) (hm : s.mux.cfg.mode = .packet)
    (hasm : s.mux.asm[i]? = some [dest, a]) :
    routeWord i v t = (dispatchPacket i dest a v t).map (fun u => u.modifyMux (fun m => m.setAsm i [])) :=
  (h.routeWord_packet hm).trans (routePacket_dispatches (h.mux.symm ▸ hasm))

theorem route_packet_assembles {ws : List Int} (ha : s.mux.status = .active) (hm : s.mux.cfg.mode = .packet)
    (hx : s.vm? i = some x) (hq : x.outQ = v :: more) (hasm : s.mux.asm[i]? = some ws) (hlen : ws.length < 2) :
    Leaves s (route i s) (s.insts.set i { x with outQ := more }) (s.mux.setAsm i (ws ++ [v])).clearCounts := by
  refine route_leaves ha hx hq fun t ht => ?_
  rw [ht.routeWord_packet hm, routePacket_assembles (ht.mux.symm ▸ hasm) hlen, ← ht.insts, ← ht.mux]
  exact (leaves_some t).thenMux fun m => m.setAsm i (ws ++ [v])

/-- A message that goes to the mux itself: a broadcast, or one to no VM. -/
theorem route_packet_to_mux {f : Mux → Mux} (ha : s.mux.status = .active) (hm : s.mux.cfg.mode = .packet)
    (hx : s.vm? i = some x) (hq : x.outQ = v :: more) (hasm : s.mux.asm[i]? = some [dest, a])
    (hdispatch : ∀ t, Popped s t i x more → dispatchPacket i dest a v t = some (t.modifyMux f)) :
    Leaves s (route i s) (s.insts.set i { x with outQ := more }) ((f s.mux).setAsm i []).clearCounts := by
  refine route_leaves ha hx hq fun t ht => ?_
  rw [ht.routeWord_dispatches hm hasm, hdispatch t ht, ← ht.insts, ← ht.mux]
  exact ((leaves_some t).thenMux f).thenMux fun m => m.setAsm i []

end

/-- Settles O51: the word popped is put in the assembly buffer (`route_packet_assembles`). -/
theorem packetAssembly : Obligations.PacketAssembly := by
  intro s i x v more ws rest hp ha hm hx hq hasm hlen
  exact Leaves.gives hp rfl (route_packet_assembles (s := { s with pending := rest }) ha hm hx hq hasm hlen)

/-- Settles O52: by the address of the message; one to a VM is a delivery of both words (`route_delivers`), any other goes to the
mux (`route_packet_to_mux`). -/
theorem packetDispatch : Obligations.PacketDispatch := by
  intro s i x dest a v more rest hp ha hm hx hq hasm
  refine ⟨fun hb => Leaves.gives hp rfl ?_, fun j y hb hj hy => ?_, fun hb hd => Leaves.gives hp rfl ?_⟩
  · exact route_packet_to_mux (s := { s with pending := rest }) (f := fun m => m.broadcast a v) ha hm hx hq hasm
      fun t ht => dispatchPacket_broadcast (ht.mux.symm ▸ hb)
  · subst hj
    obtain ⟨hkilled, hroom, hfull⟩ :=
      route_delivers (s := { s with pending := rest }) (f := fun m => m.setAsm i []) (vs := [a, v]) ha hx hq hy
        fun t ht => (ht.routeWord_dispatches hm hasm).trans <|
          congrArg (Option.map _) (dispatchPacket_to_vm (ht.mux.symm ▸ hb) (ht.count.symm ▸ vm_lt hy))
    exact ⟨fun hk => Leaves.gives hp rfl (hkilled hk), fun hk hr => Leaves.gives hp rfl (hroom hk hr),
      fun hk hr => answers_notEnabled hp rfl (hfull hk hr)⟩
  · exact route_packet_to_mux (s := { s with pending := rest }) (f := fun m => m.misrouted i dest) ha hm hx hq hasm
      fun t ht => dispatchPacket_misrouted (ht.mux.symm ▸ hb) (ht.count.symm ▸ hd)

/-! ## SUPPLY -/

theorem policy_suspend {m : Mux} (h : m.cfg.emptyInput = .suspend) : m.policy = .suspend := by
  unfold Mux.policy
  split
  · rfl
  · exact h

theorem policy_packet {m : Mux} (h : m.cfg.mode = .packet) : m.policy = m.cfg.emptyInput := by
  rw [Mux.policy, h]

theorem policy_chain {m : Mux} (h : m.cfg.mode = .chain) : m.policy = .suspend := by
  rw [Mux.policy, h]

section
variable {s : State} {i : Nat} {x : Vm} {v : Int}

theorem supply_inactive (h : s.mux.status ≠ .active) : supply i s = none := by
  unfold supply
  split
  · contradiction
  · rfl

theorem supply_suspended (h : s.mux.policy = .suspend) : supply i s = none := by
  simp [supply, h]

theorem supply_feeds (ha : s.mux.status = .active) (hpolicy : s.mux.policy = .supply v) (hx : s.vm? i = some x)
    (hwait : x.runState = .awaitingInput) (hq : x.inQ = []) (hroom : inputRoom s.cfg x 1) :
    Leaves s (supply i s) (s.insts.set i { x with inQ := [v] })
      { s.mux with emptyCount := s.mux.emptyCount.modify i (fun n => n + 1) } := by
  have hfed : { x with inQ := [v] } = Vm.pushIn [v] x := by simp [Vm.pushIn, hq]
  have hwaits : x.runState = .awaitingInput ∧ x.inQ = [] ∧ hasRoom s.cfg.inDepth x.inQ 1 = true :=
    ⟨hwait, hq, hasRoom_iff.2 hroom⟩
  rw [supply, ha, hpolicy, hx, hfed]
  simp only [if_pos hwaits]
  exact (modifyVm_leaves hx (Vm.pushIn [v])).thenMux fun m => { m with emptyCount := m.emptyCount.modify i (· + 1) }

theorem supply_not_waiting (hx : s.vm? i = some x)
    (h : x.runState ≠ .awaitingInput ∨ x.inQ ≠ [] ∨ ¬ inputRoom s.cfg x 1) : supply i s = none := by
  unfold supply
  split
  · rename_i y _ _ hy
    obtain rfl : x = y := Option.some.inj (hx.symm.trans hy)
    refine if_neg ?_
    rintro ⟨hwait, hq, hroom⟩
    rcases h with h | h | h
    · exact h hwait
    · exact h hq
    · exact h (hasRoom_iff.1 hroom)
  · rfl

end

/-- Settles O54: by the policy, and under `Supply(v)` by whether the VM waits with an empty `InQ` that has room. -/
theorem supplyFeedsAWaitingInstance : Obligations.SupplyFeedsAWaitingInstance := by
  intro s i rest hp
  refine ⟨fun hsuspend => answers_notEnabled hp rfl (supply_suspended (policy_suspend hsuspend)),
    fun x v ha hm hsupply hx => ⟨fun hwait hq hroom => Leaves.gives hp rfl ?_,
      fun h => answers_notEnabled hp rfl (supply_not_waiting hx h)⟩⟩
  exact supply_feeds (s := { s with pending := rest }) ha ((policy_packet hm).trans hsupply) hx hwait hq hroom

end Sys2Proof.Machine
end

section
/-! PROOFS. The idle action and the end of the mux's work (R238, R245 to R248), and what the mux does while it is not `Active`. -/

namespace Sys2Proof.Machine

/-! ## An idle system -/

section
variable {s : State}

theorem quiet_suspend (h : s.mux.policy = .suspend) :
    s.quiet = true ↔ ∀ x ∈ s.insts, x.isLive → x.runState = .awaitingInput := by
  simp [State.quiet, h, ← live_iff, imp_iff_not_or]

theorem quiet_supply {v : Int} (h : s.mux.policy = .supply v) :
    s.quiet = true ↔ ∀ (j : Nat) (x : Vm) (n : Nat), s.insts[j]? = some x → s.mux.emptyCount[j]? = some n →
      x.isLive → s.mux.cfg.idleWait ≤ n := by
  have hpair : s.quiet = true ↔ ∀ p ∈ s.insts.zip s.mux.emptyCount, p.1.isLive → s.mux.cfg.idleWait ≤ p.2 := by
    simp [State.quiet, h, ← live_iff, imp_iff_not_or]
  rw [hpair]
  constructor
  · intro hall j x n hx hn
    exact hall (x, n) (List.mem_of_getElem? (List.getElem?_zip_eq_some.2 ⟨hx, hn⟩))
  · rintro hall ⟨x, n⟩ hmem
    obtain ⟨j, hj⟩ := List.mem_iff_getElem?.1 hmem
    obtain ⟨hx, hn⟩ := List.getElem?_zip_eq_some.1 hj
    exact hall j x n hx hn

theorem quiet_iff :
    s.quiet = true ↔ (s.mux.policy = .suspend → ∀ x ∈ s.insts, x.isLive → x.runState = .awaitingInput) ∧
      ∀ v, s.mux.policy = .supply v →
        ∀ (j : Nat) (x : Vm) (n : Nat), s.insts[j]? = some x → s.mux.emptyCount[j]? = some n → x.isLive →
          s.mux.cfg.idleWait ≤ n := by
  cases hpolicy : s.mux.policy with
  | suspend => simp [quiet_suspend hpolicy]
  | supply v => simp [quiet_supply hpolicy]

/-- The model's test of R245 is R245. -/
theorem idle_iff : s.idle = true ↔ systemIdle s := by
  simp only [State.idle, systemIdle, Bool.and_eq_true, quiet_iff, and_assoc]
  simp [← live_iff, imp_iff_not_or]

theorem liveAt_iff {j : Nat} : s.liveAt j = true ↔ ∃ x, s.vm? j = some x ∧ x.isLive := by
  simp [State.liveAt, Option.any_eq_true, live_iff]

end

/-! ## The idle action -/

section
variable {s : State} {x : Vm}

theorem leaves_of_setMuxStatus {r : Option State} {v : MuxStatus} (h : r = some (s.setMuxStatus v)) :
    Leaves s r s.insts { s.mux with status := v } :=
  h ▸ (leaves_some s).thenMux fun m => { m with status := v }

theorem idleAction_inactive (h : s.mux.status ≠ .active) : idleAction s = none := by
  unfold idleAction
  split
  · contradiction
  · rfl

theorem idleAction_not_idle (h : ¬ systemIdle s) : idleAction s = none := by
  rw [← idle_iff, Bool.not_eq_true] at h
  simp [idleAction, h]

theorem idleAction_chain (ha : s.mux.status = .active) (hidle : systemIdle s) (hm : s.mux.cfg.mode = .chain) :
    idleAction s = some (s.setMuxStatus .deadlocked) := by
  simp only [idleAction, ha, idle_iff.2 hidle, hm]

theorem idleAction_nothing_to_reinject (ha : s.mux.status = .active) (hidle : systemIdle s)
    (hm : s.mux.cfg.mode = .packet)
    (h : s.mux.lastBcastValid = false ∨ ¬ ∃ x, s.vm? s.mux.cfg.natTarget = some x ∧ x.isLive) :
    idleAction s = some (s.setMuxStatus .deadlocked) := by
  have hnot : (s.mux.lastBcastValid && s.liveAt s.mux.cfg.natTarget) = false := by
    rwa [Bool.and_eq_false_iff, ← Bool.not_eq_true (s.liveAt _), liveAt_iff]
  simp [idleAction, ha, idle_iff.2 hidle, hm, hnot]

theorem idleAction_reinjects (ha : s.mux.status = .active) (hidle : systemIdle s) (hm : s.mux.cfg.mode = .packet)
    (hbcast : s.mux.lastBcastValid = true) (hx : s.vm? s.mux.cfg.natTarget = some x) (hlive : x.isLive) :
    idleAction s = reinject s := by
  simp [idleAction, ha, idle_iff.2 hidle, hm, hbcast, liveAt_iff.2 ⟨x, hx, hlive⟩]

theorem Vm.isLive.not_killed (h : x.isLive) : x.runState ≠ .killed := by
  rcases h with h | h <;> simp [h]

/-- Re-injection (R247) into a live VM, whose `InQ` is empty in an idle system. -/
theorem reinject_leaves (hx : s.vm? s.mux.cfg.natTarget = some x) (hlive : x.isLive) (hq : x.inQ = [])
    (hroom : inputRoom s.cfg x 2) :
    Leaves s (reinject s)
      (s.insts.set s.mux.cfg.natTarget { x with inQ := [s.mux.lastBcast.1, s.mux.lastBcast.2] })
      s.mux.noteReinject.clearCounts := by
  have hfed : { x with inQ := [s.mux.lastBcast.1, s.mux.lastBcast.2] } =
      Vm.pushIn [s.mux.lastBcast.1, s.mux.lastBcast.2] x := by simp [Vm.pushIn, hq]
  obtain ⟨-, hdelivered, -⟩ := deliver_cases (vs := [s.mux.lastBcast.1, s.mux.lastBcast.2]) hx
  rw [reinject, hdelivered hlive.not_killed hroom, hfed]
  exact (modifyVm_leaves hx _).thenMux fun m => m.noteReinject.clearCounts

theorem reinject_full (hx : s.vm? s.mux.cfg.natTarget = some x) (hlive : x.isLive) (hfull : ¬ inputRoom s.cfg x 2) :
    reinject s = none := by
  obtain ⟨-, -, hheld⟩ := deliver_cases (vs := [s.mux.lastBcast.1, s.mux.lastBcast.2]) hx
  rw [reinject, hheld hlive.not_killed hfull]
  rfl

end

/-- Settles O55: by whether the system is idle (`idle_iff`), the mode, and whether there is a packet and a live target. -/
theorem idleActionEnabledExactlyWhenIdle : Obligations.IdleAction := by
  intro s rest hp ha _
  refine ⟨fun hidle => answers_notEnabled hp rfl (idleAction_not_idle hidle),
    fun hidle hm => Leaves.gives hp rfl (leaves_of_setMuxStatus (s := { s with pending := rest }) ?_),
    fun hidle hm hnone => Leaves.gives hp rfl (leaves_of_setMuxStatus (s := { s with pending := rest }) ?_),
    fun x hidle hm hbcast hx hlive => ?_⟩
  · exact idleAction_chain ha hidle hm
  · exact idleAction_nothing_to_reinject ha hidle hm hnone
  · have hreinject : idleAction { s with pending := rest } = reinject { s with pending := rest } :=
      idleAction_reinjects ha hidle hm hbcast hx hlive
    obtain ⟨-, -, hempty, -⟩ := hidle
    refine ⟨fun hroom => Leaves.gives hp rfl (hreinject ▸ ?_),
      fun hfull => answers_notEnabled hp rfl (hreinject.trans (reinject_full hx hlive hfull))⟩
    exact reinject_leaves (s := { s with pending := rest }) hx hlive (hempty x (mem_insts hx) hlive) hroom

/-! ## Completion -/

section
variable {s : State}

theorem complete_inactive (h : s.mux.status ≠ .active) : complete s = none := by
  unfold complete
  split
  · contradiction
  · rfl

theorem complete_live (h : ∃ x ∈ s.insts, x.isLive) : complete s = none := by
  obtain ⟨x, hx, hlive⟩ := h
  have hsome : s.insts.all (fun x => !x.live) = false :=
    List.all_eq_false.2 ⟨x, hx, by simp [(live_iff x).2 hlive]⟩
  unfold complete
  split
  · simp [hsome]
  · rfl

/-- There is nothing to route of a VM whose `OutQ` is empty. -/
theorem route_empty {i : Nat} {x : Vm} (hx : s.vm? i = some x) (hq : x.outQ = []) : route i s = none := by
  unfold route
  split
  · simp_all
  · rfl

theorem complete_finished (ha : s.mux.status = .active) (h : ∀ x ∈ s.insts, ¬ x.isLive ∧ x.outQ = []) :
    complete s = some (s.setMuxStatus .finished) := by
  have hlive : s.insts.all (fun x => !x.live) = true :=
    List.all_eq_true.2 fun x hx => by simpa [← live_iff] using (h x hx).1
  have hroute : (List.range s.count).all (fun i => (route i s).isNone) = true := by
    refine List.all_eq_true.2 fun i hi => ?_
    have hlt : i < s.insts.length := length_insts s ▸ List.mem_range.1 hi
    have hx : s.vm? i = some s.insts[i] := List.getElem?_eq_getElem hlt
    rw [route_empty hx (h _ (mem_insts hx)).2]
    rfl
  simp only [complete, ha, hlive, hroute, Bool.and_self, if_true]

end

/-- Settles O56: with every `OutQ` empty no ROUTE is enabled, so that completion waits for nothing but the VMs. -/
theorem finishedWhenNoInstanceIsLive : Obligations.FinishedWhenNoInstanceIsLive := by
  intro s rest hp ha
  refine ⟨fun h => Leaves.gives hp rfl (leaves_of_setMuxStatus (s := { s with pending := rest }) ?_),
    fun h => answers_notEnabled hp rfl (complete_live h)⟩
  exact complete_finished ha h

/-! ## The mux's step of a VM -/

section
variable {s : State} {j : Nat}

theorem muxStep_enabled (h : s.mayStep j = true) : muxStep j s = stepAt j s := if_pos h

theorem muxStep_not_enabled (h : ¬ s.mayStep j = true) : muxStep j s = s.takeMux none := if_neg h

theorem mayStep_inactive (h : s.mux.status ≠ .active) : ¬ s.mayStep j = true := by
  simp [State.mayStep, h]

end

/-- Settles O57: the mux may step the VM exactly if it is ready (`mayStep_iff`), and both steps are `stepAt`. -/
theorem muxStepsReadyInstances : Obligations.MuxStepsReadyInstances := by
  intro s j x rest hp ha hx
  have hmay : State.mayStep { s with pending := rest } j = true ↔ x.isReady := mayStep_iff ha hx
  refine ⟨fun hready => ?_, fun hready => ?_⟩
  · calc step s = muxStep j { s with pending := rest } := step_cons hp
      _ = stepAt j { s with pending := rest } := muxStep_enabled (hmay.2 hready)
      _ = hostStep j { s with pending := rest } := (hostStep_eq (s := { s with pending := rest }) hx).symm
      _ = step { s with pending := .hostStep j :: rest } := rfl
  · exact answers_notEnabled hp (muxStep_not_enabled (mt hmay.1 hready)) rfl

/-! ## The round-robin schedule -/

section
variable {s : State} {j : Nat}

/-- A move of the schedule as the event of the mux that it is (R234, R235). -/
def RoundRobinMove.event : RoundRobinMove → Event
  | .step j => .muxStep j
  | .route j => .route j

theorem perform_roundRobin_none (h : s.roundRobinMove = none) : perform .roundRobin s = s.takeMux none := by
  rw [perform, h]
  rfl

theorem perform_roundRobin_some {move : RoundRobinMove} (h : s.roundRobinMove = some move) :
    perform .roundRobin s = perform move.event s := by
  rw [perform, h]
  cases move <;> rfl

theorem moveOf_cases {move : RoundRobinMove} (h : s.moveOf j = some move) : move = .step j ∨ move = .route j := by
  unfold State.moveOf at h
  split at h
  · cases h
    exact .inr rfl
  · split at h
    · cases h
      exact .inl rfl
    · cases h

theorem moveOf_inactive (h : s.mux.status ≠ .active) : s.moveOf j = none := by
  simp [State.moveOf, route_inactive h, mayStep_inactive h]

theorem count_pos (s : State) : 0 < s.count := by
  unfold State.count
  omega

theorem roundRobinMove_cases {move : RoundRobinMove} (h : s.roundRobinMove = some move) :
    ∃ j, j < s.count ∧ (move = .step j ∨ move = .route j) := by
  obtain ⟨j, hmem, hmove⟩ := List.exists_of_findSome?_eq_some h
  obtain ⟨k, -, rfl⟩ := List.mem_map.1 hmem
  exact ⟨_, Nat.mod_lt _ (count_pos s), moveOf_cases hmove⟩

theorem roundRobinMove_inactive (h : s.mux.status ≠ .active) : s.roundRobinMove = none :=
  List.findSome?_eq_none_iff.2 fun _ _ => moveOf_inactive h

/-- The VM at the focus comes first in the schedule (R235). -/
theorem roundRobinMove_of_focus {move : RoundRobinMove} (h : s.moveOf s.current = some move) :
    s.roundRobinMove = some move := by
  have hcurrent : (s.current + 0) % s.count = s.current := Nat.mod_eq_of_lt (vm_lt (vm_current s))
  obtain ⟨n, hn⟩ := Nat.exists_eq_succ_of_ne_zero (count_pos s).ne'
  rw [State.roundRobinMove, hn, List.range_succ_eq_map, List.map_cons, List.findSome?_cons, ← hn, hcurrent, h]

theorem moveOf_ready (ha : s.mux.status = .active) (hready : s.inst.isReady) (hq : s.inst.outQ = []) :
    s.moveOf s.current = some (.step s.current) := by
  have hmay : s.mayStep s.current = true := (mayStep_iff ha (vm_current s)).2 hready
  simp [State.moveOf, route_empty (vm_current s) hq, hmay, vm_current, hq]

end

/-- A round-robin event with a move is the event of that move. -/
theorem step_roundRobin {s : State} {rest : List Event} {move : RoundRobinMove} (hp : s.pending = .roundRobin :: rest)
    (h : State.roundRobinMove { s with pending := rest } = some move) :
    step s = step { s with pending := move.event :: rest } :=
  (step_cons hp).trans (perform_roundRobin_some h)

/-- Settles O58: by the move that the schedule finds (`roundRobinMove_cases`), which is the step of the VM at the focus where
that is ready (`moveOf_ready`). -/
theorem roundRobinIsAnAdmittedSchedule : Obligations.RoundRobinIsAnAdmittedSchedule := by
  intro s rest hp
  refine ⟨?_, fun ha hready hq => ?_⟩
  · cases hmove : State.roundRobinMove { s with pending := rest } with
    | none => exact .inl (answers_notEnabled hp (perform_roundRobin_none hmove) rfl)
    | some move =>
      obtain ⟨j, hj, rfl | rfl⟩ := roundRobinMove_cases hmove
      · exact .inr ⟨j, hj, .inl (step_roundRobin hp hmove)⟩
      · exact .inr ⟨j, hj, .inr (step_roundRobin hp hmove)⟩
  · exact step_roundRobin hp (roundRobinMove_of_focus (moveOf_ready (s := { s with pending := rest }) ha hready hq))

/-! ## An inactive mux -/

/-- Settles O53: none of the steps is enabled. -/
theorem inactiveMuxTakesNoStep : Obligations.InactiveMuxTakesNoStep := by
  rintro s e rest hp ha (⟨i, rfl | rfl | rfl⟩ | rfl | rfl | rfl)
  · exact answers_notEnabled hp rfl (route_inactive ha)
  · exact answers_notEnabled hp rfl (supply_inactive ha)
  · exact answers_notEnabled hp (muxStep_not_enabled (mayStep_inactive ha)) rfl
  · exact answers_notEnabled hp rfl (idleAction_inactive ha)
  · exact answers_notEnabled hp rfl (complete_inactive ha)
  · exact answers_notEnabled hp (perform_roundRobin_none (roundRobinMove_inactive ha)) rfl

end Sys2Proof.Machine
end

section
/-! PROOFS. The host's view of the mux (R250). -/

namespace Sys2Proof.Machine

section
variable {s : State}

theorem popHostOut_nil (h : s.mux.hostOut = []) : popHostOut s = s.answer (.output none) := by
  rw [popHostOut, h]

theorem popHostOut_cons {v : Int} {more : List Int} (h : s.mux.hostOut = v :: more) :
    popHostOut s = { s with reply := .output (some v), mux := { s.mux with hostOut := more } } := by
  rw [popHostOut, h]
  rfl

theorem popMon_nil (h : s.mux.mon = []) : popMon s = s.answer (.monRecord none) := by
  rw [popMon, h]

theorem popMon_cons {r : MonRecord} {more : List MonRecord} (h : s.mux.mon = r :: more) :
    popMon s = { s with reply := .monRecord (some r), mux := { s.mux with mon := more } } := by
  rw [popMon, h]
  rfl

/-- A step whose event only answers. -/
theorem onlyAnswers_of_perform {e : Event} {rest : List Event} {r : Reply} (hp : s.pending = e :: rest)
    (h : perform e { s with pending := rest } = .next (State.answer { s with pending := rest } r)) : onlyAnswers s r := by
  rw [onlyAnswers, step_cons hp, h, hp]
  rfl

end

/-- Settles O60: by whether the FIFO that is popped is empty. -/
theorem hostReadsTheMux : Obligations.HostReadsTheMux := by
  intro s rest
  refine ⟨fun hp => ⟨fun h => ?_, fun v more h => ?_⟩, fun hp => ⟨fun h => ?_, fun r more h => ?_⟩, fun hp => ?_⟩
  · exact onlyAnswers_of_perform hp (congrArg Host.Outcome.next (popHostOut_nil h))
  · exact (step_cons hp).trans (congrArg Host.Outcome.next (popHostOut_cons h))
  · exact onlyAnswers_of_perform hp (congrArg Host.Outcome.next (popMon_nil h))
  · exact (step_cons hp).trans (congrArg Host.Outcome.next (popMon_cons h))
  · exact onlyAnswers_of_perform hp rfl

end Sys2Proof.Machine
end

section
/-! PROOFS. The steps of the mux write nothing of a VM but its FIFOs (R230): what is left of the VMs without their FIFOs,
`State.cores`, is the same after each of its operations. -/

namespace Sys2Proof.Machine

/-- A VM without its FIFOs; `sameButQueues_iff` ties it to the claim. -/
def Vm.core (x : Vm) : Vm := { x with inQ := [], outQ := [] }

theorem sameButQueues_iff {x y : Vm} : sameButQueues x y ↔ y.core = x.core := by
  cases x
  cases y
  simp [sameButQueues, Vm.core]

/-- The VMs of the system without their FIFOs. -/
def State.cores (s : State) : List Vm := s.insts.map Vm.core

theorem cores_modifyVm (s : State) (j : Nat) {f : Vm → Vm} (hf : ∀ x, (f x).core = x.core) :
    (s.modifyVm j f).cores = s.cores := by
  refine List.ext_getElem? fun k => ?_
  rw [State.cores, insts_modifyVm, List.getElem?_map, List.getElem?_modify, State.cores, List.getElem?_map]
  cases s.insts[k]? with
  | none => simp
  | some x => by_cases hk : j = k <;> simp [hk, hf]

section
variable {s t : State} {i : Nat} {v : Int}

theorem deliver_cores {d : Nat} {vs : List Int} (h : s.deliver d vs = some t) : t.cores = s.cores := by
  unfold State.deliver at h
  split at h
  · cases h
  · split at h
    · cases h
      rfl
    · split at h
      · cases h
        exact cores_modifyVm s d fun _ => rfl
      · cases h

theorem map_modifyMux_cores {r : Option State} {f : Mux → Mux} (hr : ∀ u, r = some u → u.cores = s.cores)
    (h : r.map (fun u => u.modifyMux f) = some t) : t.cores = s.cores := by
  obtain ⟨u, hu, rfl⟩ := Option.map_eq_some_iff.1 h
  exact hr u hu

theorem routeChain_cores (h : routeChain i v s = some t) : t.cores = s.cores := by
  unfold routeChain at h
  split at h
  · exact deliver_cores h
  · split at h
    · exact map_modifyMux_cores (fun _ => deliver_cores) h
    · cases h
      rfl

theorem dispatchPacket_cores {dest a : Int} (h : dispatchPacket i dest a v s = some t) : t.cores = s.cores := by
  unfold dispatchPacket at h
  split at h
  · cases h
    rfl
  · split at h
    · exact deliver_cores h
    · cases h
      rfl

theorem routePacket_cores (h : routePacket i v s = some t) : t.cores = s.cores := by
  unfold routePacket at h
  split at h
  · exact map_modifyMux_cores (fun _ => dispatchPacket_cores) h
  · cases h
    rfl

theorem routeWord_cores (h : routeWord i v s = some t) : t.cores = s.cores := by
  unfold routeWord at h
  split at h
  · exact routeChain_cores h
  · exact routePacket_cores h

theorem route_cores (h : route i s = some t) : t.cores = s.cores := by
  unfold route at h
  split at h
  · refine map_modifyMux_cores (fun u hu => ?_) h
    exact (routeWord_cores hu).trans (cores_modifyVm s i fun _ => rfl)
  · cases h

theorem supply_cores (h : supply i s = some t) : t.cores = s.cores := by
  unfold supply at h
  split at h
  · split at h
    · cases h
      exact cores_modifyVm s i fun _ => rfl
    · cases h
  · cases h

theorem idleAction_cores (h : idleAction s = some t) : t.cores = s.cores := by
  unfold idleAction at h
  split at h
  · split at h
    · cases h
      rfl
    · split at h
      · exact map_modifyMux_cores (fun _ => deliver_cores) h
      · cases h
        rfl
  · cases h

theorem complete_cores (h : complete s = some t) : t.cores = s.cores := by
  unfold complete at h
  split at h
  · split at h
    · cases h
      rfl
    · cases h
  · cases h

theorem takeMux_cores {r : Option State} (hr : ∀ u, r = some u → u.cores = s.cores) (h : s.takeMux r = .next t) :
    t.cores = s.cores := by
  cases r with
  | none =>
    cases h
    rfl
  | some u =>
    cases h
    exact hr u rfl

theorem vm_of_cores {j : Nat} {x : Vm} (h : t.cores = s.cores) (hx : s.vm? j = some x) :
    ∃ y, t.vm? j = some y ∧ sameButQueues x y := by
  have hcore : t.cores[j]? = some x.core := by
    rw [h, State.cores, List.getElem?_map]
    exact congrArg (Option.map Vm.core) hx
  rw [State.cores, List.getElem?_map] at hcore
  obtain ⟨y, hy, hsame⟩ := Option.map_eq_some_iff.1 hcore
  exact ⟨y, hy, sameButQueues_iff.2 hsame⟩

end

/-- Settles O35: each of the four steps keeps `State.cores`. -/
theorem muxTouchesOnlyTheQueues : Obligations.MuxTouchesOnlyTheQueues := by
  intro s t e rest j x hp he hstep hx
  rw [step_cons hp] at hstep
  refine vm_of_cores (?_ : t.cores = State.cores { s with pending := rest }) hx
  obtain ⟨i, rfl | rfl⟩ | rfl | rfl := he
  · exact takeMux_cores (fun _ => route_cores) hstep
  · exact takeMux_cores (fun _ => supply_cores) hstep
  · exact takeMux_cores (fun _ => idleAction_cores) hstep
  · exact takeMux_cores (fun _ => complete_cores) hstep

end Sys2Proof.Machine
end

section
/-! PROOFS. The faults of the decoder (R271, R273, R276). -/

namespace Sys2Proof.Machine

theorem liveRun_of_rejected {c : Config} {x : Vm} {e : DecodeError} (hip : legalAddr c x.ip)
    (h : decode (x.wordAt x.ip) = .error e) : liveRun c x = .error (decodeRaise e) := by
  rw [liveRun, fetch_legal hip, bind_ok, decodedRun, h]

/-- Settles O9: the rejection is a fault raised after the fetch, whose entry leaves the record of R276 (`finish_error_eq`). -/
theorem decoderFaults : Obligations.DecoderFaults := by
  intro s e hp hlive hip hreject
  obtain ⟨t, hstep, hreply, hinst⟩ := step_raises hp hlive (liveRun_of_rejected hip hreject)
  have hrecord : t.inst = (s.faultedWith (decodeRaise e).cause _).inst :=
    hinst.trans (congrArg State.inst (finish_error_eq (decodeRaise e) hip))
  refine ⟨t, hstep, ?_⟩
  cases e with
  | invalidOpcode _ => exact ⟨hrecord, hreply⟩
  | invalidAddressingMode _ => exact ⟨hrecord, hreply⟩

end Sys2Proof.Machine
end
